-- ==== Sys2Proof/Word.lean ====
section
/-! DEFINITION. The words of the KCE crypto block (spec 00_scope.md R9): bytes and 32-bit words. -/

namespace Sys2Proof

/-- A byte, an integer 0..255 (R9). -/
abbrev Byte := BitVec 8

/-- A word, a 32-bit unsigned integer (R9): a control word register or a bus value. -/
abbrev Word := BitVec 32

end Sys2Proof
end

