-- ==== Sys2Proof/Config.lean ====
section
/-! DEFINITION. The parameters of the block (spec 00_scope.md R8): the fixed capacities, and the open ones as
opaque constants, so that nothing can be proved of their value beyond their range. -/

namespace Sys2Proof.Config

/-- `KEY_MAX` (R8): capacity in bytes of a channel's `KEY`. -/
def keyMax : Nat := 256

/-- `XTAG_MAX` (R8): capacity in bytes of a channel's `XTAG`. -/
def xtagMax : Nat := 64

/-- The bytes of address space one channel takes (R60). -/
def channelStride : Nat := 0x40000

/-- `BUF_MAX` (R8) is a multiple of 16 from 32 to 65536: the `u`-th of these 4095 values. -/
def bufMaxOf (u : Fin 4095) : Nat := 16 * (u.val + 2)

/-- Which of its legal values `BUF_MAX` has in the block that `State.reset` describes (R8: a parameter; log entry 3). -/
opaque bufUnits : Fin 4095

/-- One less than `NCH` in the block that `State.reset` describes (R8: `NCH >= 1`; log entry 3). -/
opaque extraChannels : Nat

/-- `RS_LIMIT` in the block that `State.reset` describes (R8: absent, or a natural number; log entry 3). -/
opaque rsLimit : Option Nat

/-- Which stream the random source delivers after power-on (R110; log entry 4). -/
opaque stream : Nat

/-- The random streams (R110): `rs k i` is byte `i` of stream number `k`. The bytes are free (R118; log entry 4). -/
opaque rs : Nat → Nat → Byte

end Sys2Proof.Config
end

