-- ==== Sys2Proof/Syntax.lean ====
section
/-! DEFINITION. The ten commands (spec 30_encoding.md R93), one constructor per row of spec/opcode_table.json. -/

namespace Sys2Proof

/-- A command. A format A command carries `ARG` as the unsigned integer R92 makes of it; a format N command carries
nothing: all its other operands are the channel's registers. -/
inductive Instr where
  /-- RNG_BYTES (R113): `n` random bytes to `DOUT`. -/
  | rngBytes (n : Nat)
  /-- GEN_KEY (R114): a key of `bits` bits to `DOUT`. -/
  | genKey (bits : Nat)
  /-- GEN_IV (R115). -/
  | genIv
  /-- GEN_NONCE (R116). -/
  | genNonce
  /-- MAC_COMPUTE (R150). -/
  | macCompute
  /-- MAC_VERIFY (R151). -/
  | macVerify
  /-- CBC_ENC (R200). -/
  | cbcEnc
  /-- CBC_DEC (R201). -/
  | cbcDec
  /-- GCM_ENC (R222). -/
  | gcmEnc
  /-- GCM_DEC (R223). -/
  | gcmDec
deriving DecidableEq, Repr

end Sys2Proof
end

