-- ==== Sys2Proof/WellFormed.lean ====
section
/-! DEFINITION. Which commands an encoding admits (spec 30_encoding.md R90, R92): `ARG` is a 16-bit unsigned field. -/

namespace Sys2Proof

/-- `i` has an encoding: its `ARG`, where it has one, is `0..65535` (R92). -/
def Instr.wellFormed (i : Instr) : Bool :=
  match i with
  | .rngBytes n => decide (n < 65536)
  | .genKey bits => decide (bits < 65536)
  | .genIv => true
  | .genNonce => true
  | .macCompute => true
  | .macVerify => true
  | .cbcEnc => true
  | .cbcDec => true
  | .gcmEnc => true
  | .gcmDec => true

end Sys2Proof
end

