-- ==== Sys2Proof/Decode.lean ====
section
/-! DEFINITION. The command word, its decoder (total on all 2^32 words, rejecting by name) and its encoder
(spec 30_encoding.md R90 to R97). -/

namespace Sys2Proof

/-- Field `OP` of a command word, bits 7:0 (R90). -/
def opField (w : Word) : BitVec 8 := w.extractLsb' 0 8

/-- Field `RSV` of a command word, bits 15:8 (R90). -/
def rsvField (w : Word) : BitVec 8 := w.extractLsb' 8 8

/-- Field `ARG` of a command word, bits 31:16 (R90). -/
def argField (w : Word) : BitVec 16 := w.extractLsb' 16 16

/-- Why a word is no command (R94). Every reason completes with `IllegalCommand`. -/
inductive Reject where
  /-- `OP` is none of the ten opcodes. -/
  | unknownOpcode
  /-- `RSV` is not zero. -/
  | reservedField
  /-- `ARG` is not zero on a format N command. -/
  | argNotZero
deriving DecidableEq, Repr

/-- The format N command with opcode `op` (R93). -/
def formatN (op : BitVec 8) : Option Instr :=
  if op = 0x03#8 then some .genIv
  else if op = 0x04#8 then some .genNonce
  else if op = 0x10#8 then some .macCompute
  else if op = 0x11#8 then some .macVerify
  else if op = 0x20#8 then some .cbcEnc
  else if op = 0x21#8 then some .cbcDec
  else if op = 0x30#8 then some .gcmEnc
  else if op = 0x31#8 then some .gcmDec
  else none

/-- The format A command with opcode `op` and unsigned argument `arg` (R92, R93). -/
def formatA (op : BitVec 8) (arg : Nat) : Option Instr :=
  if op = 0x01#8 then some (.rngBytes arg)
  else if op = 0x02#8 then some (.genKey arg)
  else none

/-- The command a word stands for (R93), or why it stands for none (R94). -/
def decode (w : Word) : Except Reject Instr :=
  if rsvField w ≠ 0#8 then .error .reservedField
  else
    match formatA (opField w) (argField w).toNat with
    | some i => .ok i
    | none =>
      match formatN (opField w) with
      | some i => if argField w = 0#16 then .ok i else .error .argNotZero
      | none => .error .unknownOpcode

/-- `Legal(w)`, as R97 writes it. -/
def legal (w : Word) : Bool :=
  decide (rsvField w = 0#8) &&
    ((opField w == 0x01#8 || opField w == 0x02#8) ||
      (([0x03#8, 0x04#8, 0x10#8, 0x11#8, 0x20#8, 0x21#8, 0x30#8, 0x31#8] : List (BitVec 8)).contains (opField w) &&
        argField w == 0#16))

/-- A word from its three fields (R90). -/
def commandWord (arg : Nat) (op : BitVec 8) : Word := BitVec.ofNat 16 arg ++ 0#8 ++ op

/-- The word of a command (R93); of a command that `wellFormed` refuses, the word with `ARG` cut to 16 bits. -/
def encode (i : Instr) : Word :=
  match i with
  | .rngBytes n => commandWord n 0x01#8
  | .genKey bits => commandWord bits 0x02#8
  | .genIv => commandWord 0 0x03#8
  | .genNonce => commandWord 0 0x04#8
  | .macCompute => commandWord 0 0x10#8
  | .macVerify => commandWord 0 0x11#8
  | .cbcEnc => commandWord 0 0x20#8
  | .cbcDec => commandWord 0 0x21#8
  | .gcmEnc => commandWord 0 0x30#8
  | .gcmDec => commandWord 0 0x31#8

/-- A row of the opcode table as a match and a mask (R93). -/
structure OpcodeRow where
  /-- The row's mnemonic. -/
  mnemonic : String
  /-- The bits the row fixes. -/
  mask : Word
  /-- Their values. -/
  pattern : Word
deriving DecidableEq, Repr

/-- `w` matches the row iff `w & mask = match` (R93). -/
def OpcodeRow.matchesWord (r : OpcodeRow) (w : Word) : Bool := (w &&& r.mask) == r.pattern

/-- Match and mask of the ten commands (R93). -/
def opcodeRows : List OpcodeRow :=
  [⟨"RNG_BYTES", 0x0000ffff#32, 0x00000001#32⟩,
   ⟨"GEN_KEY", 0x0000ffff#32, 0x00000002#32⟩,
   ⟨"GEN_IV", 0xffffffff#32, 0x00000003#32⟩,
   ⟨"GEN_NONCE", 0xffffffff#32, 0x00000004#32⟩,
   ⟨"MAC_COMPUTE", 0xffffffff#32, 0x00000010#32⟩,
   ⟨"MAC_VERIFY", 0xffffffff#32, 0x00000011#32⟩,
   ⟨"CBC_ENC", 0xffffffff#32, 0x00000020#32⟩,
   ⟨"CBC_DEC", 0xffffffff#32, 0x00000021#32⟩,
   ⟨"GCM_ENC", 0xffffffff#32, 0x00000030#32⟩,
   ⟨"GCM_DEC", 0xffffffff#32, 0x00000031#32⟩]

/-- The mnemonic of a command (R93). -/
def Instr.mnemonic (i : Instr) : String :=
  match i with
  | .rngBytes _ => "RNG_BYTES"
  | .genKey _ => "GEN_KEY"
  | .genIv => "GEN_IV"
  | .genNonce => "GEN_NONCE"
  | .macCompute => "MAC_COMPUTE"
  | .macVerify => "MAC_VERIFY"
  | .cbcEnc => "CBC_ENC"
  | .cbcDec => "CBC_DEC"
  | .gcmEnc => "GCM_ENC"
  | .gcmDec => "GCM_DEC"

/-- The command the decoder reads from the first `nbits` bits of `w`, every higher bit zero. A command is one 32-bit
word (R90): bits beyond the 32nd make it none. -/
def decodeTableWord (nbits w : Nat) : Option Instr :=
  if w % 2 ^ nbits < 2 ^ 32 then
    match decode (BitVec.ofNat 32 (w % 2 ^ nbits)) with
    | .ok i => some i
    | .error _ => none
  else none

end Sys2Proof
end

