-- ==== Sys2Proof/Machine/State.lean ====
section
/-! DEFINITION. The state of the block and of the agents around it (spec 10_state.md), as plain data, and its reset
(R39, 70_reset_and_hazards.md R280). -/

namespace Sys2Proof.Machine

/-- The codes of `STATUS.ERR` (60_exceptions.md R240). Codes 6 to 15 are never produced, so they have no constructor. -/
inductive ErrCode where
  /-- Code 0: the command reached the end of its pseudocode. -/
  | none
  /-- Code 1: `KEYLEN` is not 16, 24 or 32. -/
  | invalidKeyLength
  /-- Code 2: the ciphertext of CBC_DEC is no whole number of blocks, or its padding is malformed. -/
  | paddingError
  /-- Code 3: the tag of GCM_DEC is missing or does not match. -/
  | authenticationFailure
  /-- Code 4: a draw failed, now or earlier. -/
  | entropyUnavailable
  /-- Code 5: the command word is not legal, or an operand is out of range. -/
  | illegalCommand
deriving DecidableEq, Repr

/-- What the random source environment answers to a draw that `RS_LIMIT` lets through (40_random_keymaterial.md R111,
R112). The third outcome, *failed*, is decided by `RS_LIMIT` alone (R112; log entry 5). -/
inductive Answer where
  /-- The bytes are delivered. -/
  | deliver
  /-- The bytes are withheld for now: the command is held. -/
  | starved
deriving DecidableEq, Repr

/-- The random source in force (R110, R112; log entry 4): which stream it delivers, its first bytes where the one who
runs the machine supplies them (a substitutable source), and `RS_LIMIT`. -/
structure Source where
  /-- The number of the stream: byte `i` is `Config.rs stream i` from the end of `feed` on. -/
  stream : Nat
  /-- The first bytes of the stream, supplied from outside. -/
  feed : List Byte
  /-- `RS_LIMIT` (R112): absent, or the position past which every draw fails. -/
  limit : Option Nat
deriving DecidableEq, Repr

/-- One atomic step of one agent (R20; 20_memory.md R71). Addresses are offsets from `BASE` (R60). -/
inductive Event where
  /-- The host reads `n` bytes at `addr` (00_scope.md R12). -/
  | memRead (addr n : Nat)
  /-- The host writes `n` bytes at `addr` (R12); `v` holds the value's low 32 bits (an access wider than 4 bytes is refused). -/
  | memWrite (addr n : Nat) (v : Word)
  /-- Channel `c`'s engine is scheduled (R96), and the environment would answer its draw with `answer`. -/
  | engineTurn (c : Nat) (answer : Answer)
  /-- The reset input is applied, after which `source` is the random source in force (R280, R281). -/
  | reset (source : Source)
deriving DecidableEq, Repr

/-- The control words of one channel (R22, R24, R25). Its byte arrays are in `State.mem`. -/
structure Channel where
  /-- `KEYLEN`. -/
  keyLen : Word
  /-- `DINLEN`. -/
  dinLen : Word
  /-- `DOUTLEN`. -/
  doutLen : Word
  /-- `XTAGLEN`. -/
  xtagLen : Word
  /-- `CMDREG`, the hidden latch behind `CMD` (R25). -/
  cmdReg : Word
  /-- `STATUS.BUSY`. -/
  busy : Bool
  /-- `STATUS.DONE`. -/
  done : Bool
  /-- `STATUS.VOK`. -/
  vok : Bool
  /-- `STATUS.ERR`. -/
  err : ErrCode
deriving DecidableEq, Repr

/-- The bytes of the address space that differ from what an unlisted address reads as, in order of address. -/
abbrev Memory := List Host.Cell

/-- The block (fields `bufUnits` to `source`) and what the agents around it bring (the rest). -/
structure State where
  /-- `BUF_MAX` is `16 * (bufUnits + 2)` (R8): every legal value and no other. Constant (R33). -/
  bufUnits : Fin 4095
  /-- The channels, number 0 first; `NCH` is their number (R8, R21). -/
  channels : List Channel
  /-- The byte-array registers of every channel, at their addresses (R61). -/
  mem : Memory
  /-- `rs_pos` (R34 (a)). -/
  rsPos : Nat
  /-- `RNGINIT` (R34 (b)). -/
  rngInit : Bool
  /-- `FATAL`, the fatal latch (R34 (c)); bit 3 of every channel's `STATUS`. -/
  fatal : Bool
  /-- The random source in force. -/
  source : Source
  /-- The channel whose engine takes the present step (the model's own, log entry 22). -/
  active : Nat
  /-- The environment's answer to a draw of the present step (the model's own, log entry 22). -/
  answer : Answer
  /-- The steps still to be taken, the next one first (the model's own, log entry 1). -/
  agenda : List Event
  /-- The values the host's reads returned, the latest first (the model's own, log entry 8). -/
  replies : List Word
deriving DecidableEq, Repr

/-- Why the machine stops. The spec gives the block no stop (60_exceptions.md R245: every error completes its command);
the one reason here guards `exec`. -/
inductive Fault where
  /-- Raised by a command's meaning when `State.active` names no channel (`0 <= c < NCH`, R11). `step` never runs a
  meaning in such a state. Safe: the machine stops. -/
  | noSuchChannel
deriving DecidableEq, Repr

/-- Why an instruction has no meaning. -/
inductive Refusal where
  /-- Raised by `exec` for an instruction not modelled yet; no arm answers it. Safe: the machine stops. -/
  | notModelled (mnemonic : String)
deriving DecidableEq, Repr

/-- A channel after reset (R39). -/
def Channel.reset : Channel :=
  { keyLen := 0#32, dinLen := 0#32, doutLen := 0#32, xtagLen := 0#32, cmdReg := 0#32,
    busy := false, done := false, vok := false, err := .none }

/-- The block right after reset (R39, R280) with given parameters: the `u`-th `BUF_MAX`, `nch` channels and the random
source `source`. -/
def State.resetWith (u : Fin 4095) (nch : Nat) (source : Source) : State :=
  { bufUnits := u, channels := List.replicate nch Channel.reset, mem := [], rsPos := 0, rngInit := false,
    fatal := false, source := source, active := 0, answer := .deliver, agenda := [], replies := [] }

/-- The block right after reset (R39, R280), its parameters free (R8). -/
def State.reset : State :=
  State.resetWith Config.bufUnits (Config.extraChannels + 1)
    { stream := Config.stream, feed := [], limit := Config.rsLimit }

end Sys2Proof.Machine
end

