-- ==== Sys2Proof/Machine/Bytes.lean ====
section
/-! DEFINITION. Byte sequences and their byte orders (spec 00_scope.md R9, R10). -/

namespace Sys2Proof.Machine

/-- `zeros(n)` (R9). -/
def zeros (n : Nat) : List Byte := List.replicate n 0#8

/-- `rep(v, n)` (R9). -/
def rep (v : Byte) (n : Nat) : List Byte := List.replicate n v

/-- `s[a..b)` (R9). -/
def slice (s : List Byte) (a b : Nat) : List Byte := (s.drop a).take (b - a)

/-- `s ⊕ t` on byte sequences, element by element (R10); of sequences of unequal length,
to which R10 gives no meaning, over the shorter (DESIGN CHOICE, log entry 19). -/
def xorBytes (s t : List Byte) : List Byte := List.zipWith (· ^^^ ·) s t

/-- The big-endian value of a byte sequence: `be32` (R10) without a width. -/
def beNat (s : List Byte) : Nat := s.foldl (fun acc b => acc * 256 + b.toNat) 0

/-- The `k`-byte big-endian form of a natural number: `BE32`, `BE64` (R10) for `k` 4 and 8. Of a number that
`k` bytes cannot hold, to which R10 gives no form, the low `8 * k` bits (DESIGN CHOICE, log entries 25 and 26). -/
def beBytes (k n : Nat) : List Byte := (List.range k).map fun i => BitVec.ofNat 8 (n >>> (8 * (k - 1 - i)))

/-- The first `n` pieces of `k` bytes each of a byte sequence; the last may be shorter. -/
def chunks (k n : Nat) (s : List Byte) : List (List Byte) :=
  match n with
  | 0 => []
  | m + 1 => s.take k :: chunks k m (s.drop k)

/-- The 16-byte blocks of a byte sequence, the last one partial where its length is no multiple of 16. -/
def blocksOf (s : List Byte) : List (List Byte) := chunks 16 ((s.length + 15) / 16) s

/-- `rotr32(w, n)` for `0 < n < 32` (R10). -/
def rotr32 (w : Word) (n : Nat) : Word := (w >>> n) ||| (w <<< (32 - n))

end Sys2Proof.Machine
end

