-- ==== Sys2Proof/Machine/Memory.lean ====
section
/-! DEFINITION. The byte-array registers as one memory over the block's address space (spec 20_memory.md R60, R61), in
one canonical form: addresses strictly rising, no entry equal to what an unlisted address reads as (log entry 7). -/

namespace Sys2Proof.Machine

/-- What an address reads as that nothing has been stored to: the reset content of every byte array (10_state.md R39). -/
def unlistedByte : Byte := 0#8

/-- The canonical form of a memory. -/
abbrev Memory.wf (m : Memory) : Prop :=
  m.Pairwise (fun a b => a.1 < b.1) ∧ ∀ c ∈ m, c.2 ≠ unlistedByte

/-- The byte at an address. -/
def Memory.read (m : Memory) (a : Nat) : Byte :=
  match m with
  | [] => unlistedByte
  | c :: rest => if c.1 = a then c.2 else Memory.read rest a

/-- The memory with nothing stored at an address. -/
def Memory.erase (m : Memory) (a : Nat) : Memory := m.filter fun c => c.1 != a

/-- An entry put in at its place; nothing is stored at its address. -/
def Memory.insert (m : Memory) (a : Nat) (v : Byte) : Memory :=
  match m with
  | [] => [(a, v)]
  | c :: rest => if a < c.1 then (a, v) :: c :: rest else c :: Memory.insert rest a v

/-- A byte stored at an address. -/
def Memory.write (m : Memory) (a : Nat) (v : Byte) : Memory :=
  if v = unlistedByte then m.erase a else (m.erase a).insert a v

/-- The `n` bytes from address `a` on set to 0x00. -/
def Memory.clear (m : Memory) (a n : Nat) : Memory := m.filter fun c => !(decide (a ≤ c.1) && decide (c.1 < a + n))

/-- The `n` bytes from address `a` on, in order of address. -/
def Memory.readBytes (m : Memory) (a n : Nat) : List Byte :=
  match n with
  | 0 => []
  | k + 1 => m.read a :: m.readBytes (a + 1) k

/-- A byte sequence stored from address `a` on, first byte at the lowest address (R61). -/
def Memory.writeBytes (m : Memory) (a : Nat) (s : List Byte) : Memory :=
  match s with
  | [] => m
  | b :: rest => (m.write a b).writeBytes (a + 1) rest

/-- The bus value of the `n` bytes from address `a` on: little-endian lanes (R63). -/
def Memory.readLE (m : Memory) (a n : Nat) : Word :=
  match n with
  | 0 => 0#32
  | k + 1 => (m.readLE (a + 1) k <<< 8) ||| (m.read a).setWidth 32

/-- The low `n` bytes of a bus value stored from address `a` on: little-endian lanes (R63). -/
def Memory.writeLE (m : Memory) (a n : Nat) (v : Word) : Memory :=
  match n with
  | 0 => m
  | k + 1 => (m.write a (v.setWidth 8)).writeLE (a + 1) k (v >>> 8)

end Sys2Proof.Machine
end

