-- ==== Sys2Proof/Machine/RegMap.lean ====
section
/-! DEFINITION. The register map (spec 20_memory.md R60 to R63, R65). -/

namespace Sys2Proof.Machine

/-- `BUF_MAX` of this block (R8). -/
def State.bufMax (s : State) : Nat := Config.bufMaxOf s.bufUnits

/-- `NCH` of this block (R8). -/
def State.nch (s : State) : Nat := s.channels.length

/-- The control word registers (R61). -/
inductive WordReg where
  | cmd | status | keyLen | dinLen | doutLen | xtagLen | caps0 | caps1
deriving DecidableEq, Repr

/-- The byte array registers (R61). -/
inductive ArrayReg where
  | tag | xtag | ivn | key | din | dout
deriving DecidableEq, Repr

/-- The offset of a control word in its channel (R61). -/
def WordReg.offset (r : WordReg) : Nat :=
  match r with
  | .cmd => 0x00000
  | .status => 0x00004
  | .keyLen => 0x00008
  | .dinLen => 0x0000C
  | .doutLen => 0x00010
  | .xtagLen => 0x00014
  | .caps0 => 0x00018
  | .caps1 => 0x0001C

/-- The offset of a byte array's first byte in its channel (R61). -/
def ArrayReg.offset (r : ArrayReg) : Nat :=
  match r with
  | .tag => 0x00040
  | .xtag => 0x00080
  | .ivn => 0x000C0
  | .key => 0x00100
  | .din => 0x10000
  | .dout => 0x20000

/-- The size in bytes of a byte array (R22, R61). -/
def ArrayReg.size (bufMax : Nat) (r : ArrayReg) : Nat :=
  match r with
  | .tag => 32
  | .xtag => Config.xtagMax
  | .ivn => 16
  | .key => Config.keyMax
  | .din => bufMax
  | .dout => bufMax

/-- The byte arrays, in the order of the map. -/
def arrayRegs : List ArrayReg := [.tag, .xtag, .ivn, .key, .din, .dout]

/-- The control words, in the order of the map. -/
def wordRegs : List WordReg := [.cmd, .status, .keyLen, .dinLen, .doutLen, .xtagLen, .caps0, .caps1]

/-- The address of byte 0 of byte array `r` of channel `c` (R60, R61). -/
def arrayBase (c : Nat) (r : ArrayReg) : Nat := c * Config.channelStride + r.offset

/-- What a host access meets: a control word of a channel, or bytes of a byte array of a channel. -/
inductive Target where
  /-- A control word. -/
  | word (c : Nat) (r : WordReg)
  /-- Bytes of a byte array. -/
  | bytes (c : Nat) (r : ArrayReg)
deriving DecidableEq, Repr

/-- The byte array whose implemented bytes hold offsets `off` to `off + n - 1` (R61, R63). -/
def arrayAt (bufMax off n : Nat) : Option ArrayReg :=
  arrayRegs.find? fun r => decide (r.offset ≤ off) && decide (off + n ≤ r.offset + r.size bufMax)

/-- The control word at exactly offset `off` (R61, R62). -/
def wordAt (off : Nat) : Option WordReg := wordRegs.find? fun r => r.offset == off

/-- What an access of `n` bytes at `addr` meets; `none` for the accesses R66 (a), (b), (e) refuse: a reserved or
absent address, a width that is not 1, 2 or 4, a misaligned address (R65), a control word not accessed by 4 bytes at
its own offset (R62). -/
def State.target (s : State) (addr n : Nat) : Option Target :=
  let c := addr / Config.channelStride
  let off := addr % Config.channelStride
  if c < s.nch ∧ (n = 1 ∨ n = 2 ∨ n = 4) ∧ addr % n = 0 then
    match arrayAt s.bufMax off n with
    | some r => some (.bytes c r)
    | none => if n = 4 then (wordAt off).map (.word c) else none
  else none

end Sys2Proof.Machine
end

