-- ==== Sys2Proof/Machine/Flags.lean ====
section
/-! DEFINITION. `STATUS`, the block's only flag register (spec 10_state.md R24): its word, and every way its fields are
written (30_encoding.md R95, R96). -/

namespace Sys2Proof.Machine

/-- The code of an error in `STATUS.ERR` (60_exceptions.md R240). -/
def ErrCode.code (e : ErrCode) : BitVec 4 :=
  match e with
  | .none => 0#4
  | .invalidKeyLength => 1#4
  | .paddingError => 2#4
  | .authenticationFailure => 3#4
  | .entropyUnavailable => 4#4
  | .illegalCommand => 5#4

/-- The word a read of `STATUS` returns (R24): bits 31:12 and 7:4 are 0, `ERR` 11:8, `FATAL` 3, `VOK` 2, `DONE` 1,
`BUSY` 0. -/
def statusWord (fatal : Bool) (ch : Channel) : Word :=
  0#20 ++ ch.err.code ++ 0#4 ++ BitVec.ofBool fatal ++ BitVec.ofBool ch.vok ++ BitVec.ofBool ch.done ++ BitVec.ofBool ch.busy

/-- An accepted `CMD` write of `w` (R95, third arm). -/
def Channel.accept (w : Word) (ch : Channel) : Channel :=
  { ch with cmdReg := w, busy := true, done := false, vok := false, err := .none }

/-- A `CMD` write to an idle channel while the fatal latch is set (R95, second arm). -/
def Channel.refuseFatal (ch : Channel) : Channel :=
  { ch with done := true, vok := false, err := .entropyUnavailable }

/-- The end of an engine step with code `e` (R96). `VOK` keeps its value. -/
def Channel.complete (e : ErrCode) (ch : Channel) : Channel :=
  { ch with err := e, busy := false, done := true }

/-- The result of MAC_VERIFY in `VOK` (R24, 41_mac.md R151). -/
def Channel.setVok (ok : Bool) (ch : Channel) : Channel := { ch with vok := ok }

end Sys2Proof.Machine
end

