-- ==== Sys2Proof/Machine/Operands.lean ====
section
/-! DEFINITION. The operands of the commands: the byte sequences a channel's registers hold (spec 10_state.md R26 to
R32), and the envelope (R30). A command takes its other operand, `ARG`, from its word (30_encoding.md R92). -/

namespace Sys2Proof.Machine

/-- The first `n` bytes of byte array `r` of channel `c`. -/
def State.arrayBytes (s : State) (c : Nat) (r : ArrayReg) (n : Nat) : List Byte := s.mem.readBytes (arrayBase c r) n

/-- The control words of channel `c`; those of a fresh channel where there is no channel `c`. -/
def State.channel (s : State) (c : Nat) : Channel := s.channels.getD c Channel.reset

/-- `KEY[0..KEYLEN)` (R26). -/
def State.keyOperand (s : State) (c : Nat) : List Byte := s.arrayBytes c .key (s.channel c).keyLen.toNat

/-- `DIN[0..DINLEN)` (R28). -/
def State.dataOperand (s : State) (c : Nat) : List Byte := s.arrayBytes c .din (s.channel c).dinLen.toNat

/-- `XTAG[0..XTAGLEN)` (R32). -/
def State.expectedTag (s : State) (c : Nat) : List Byte := s.arrayBytes c .xtag (s.channel c).xtagLen.toNat

/-- `IVN[0..16)`, the IV of the CBC commands (R27). -/
def State.ivOperand (s : State) (c : Nat) : List Byte := s.arrayBytes c .ivn 16

/-- `IVN[0..12)`, the nonce of the GCM commands (R27). -/
def State.nonceOperand (s : State) (c : Nat) : List Byte := s.arrayBytes c .ivn 12

/-- `DOUT[0..DOUTLEN)`, the output of the last command that wrote it (R29). -/
def State.output (s : State) (c : Nat) : List Byte := s.arrayBytes c .dout (s.channel c).doutLen.toNat

/-- `TAG[0..32)` (R31). -/
def State.tagBytes (s : State) (c : Nat) : List Byte := s.arrayBytes c .tag 32

/-- A Ciphertext Envelope (00_scope.md R2, R30): a ciphertext and the IV or nonce that produced it. -/
structure Envelope where
  /-- The ciphertext; for GCM with the tag in its last 16 bytes. -/
  ciphertext : List Byte
  /-- The IV (16 bytes) or the nonce (12 bytes). -/
  ivn : List Byte
deriving DecidableEq, Repr

/-- The envelope a CBC_ENC leaves in a channel (R30). -/
def State.cbcEnvelope (s : State) (c : Nat) : Envelope := ⟨s.output c, s.ivOperand c⟩

/-- The envelope a GCM_ENC leaves in a channel (R30). -/
def State.gcmEnvelope (s : State) (c : Nat) : Envelope := ⟨s.output c, s.nonceOperand c⟩

/-- The envelope a host presents to CBC_DEC (R30). -/
def State.presentedCbc (s : State) (c : Nat) : Envelope := ⟨s.dataOperand c, s.ivOperand c⟩

/-- The envelope a host presents to GCM_DEC (R30). -/
def State.presentedGcm (s : State) (c : Nat) : Envelope := ⟨s.dataOperand c, s.nonceOperand c⟩

/-- `AesKeyOk` (42_aes_core.md R171): 128, 192 or 256 bits. -/
def aesKeyOk (len : Nat) : Bool := decide (len = 16 ∨ len = 24 ∨ len = 32)

end Sys2Proof.Machine
end

