-- ==== Sys2Proof/Machine/Ops.lean ====
section
/-! DEFINITION. The operations every command is written over: writing a channel's registers, `Draw` (spec
40_random_keymaterial.md R111, R112), raising an error (60_exceptions.md R245 to R249) and the frame of an engine step
(30_encoding.md R96). -/

namespace Sys2Proof.Machine

/-- Channel `c`'s control words changed by `f`. -/
def State.updateChannel (s : State) (c : Nat) (f : Channel → Channel) : State :=
  { s with channels := s.channels.modify c f }

/-- `R[0..len(bytes)) <- bytes` for byte array `r` of channel `c` (00_scope.md R11). -/
def State.writeArray (s : State) (c : Nat) (r : ArrayReg) (bytes : List Byte) : State :=
  { s with mem := s.mem.writeBytes (arrayBase c r) bytes }

/-- A command's output (10_state.md R29): `DOUT[0..n) <- bytes; DOUT[n..BUF_MAX) <- zeros; DOUTLEN <- n`, with `n` the
length of `bytes`. -/
def State.setOutput (s : State) (c : Nat) (bytes : List Byte) : State :=
  { s with mem := (s.mem.clear (arrayBase c .dout) s.bufMax).writeBytes (arrayBase c .dout) bytes }.updateChannel c
    fun ch => { ch with doutLen := BitVec.ofNat 32 bytes.length }

/-- Byte `i` of the stream in force, `RS(i)` (R110; log entry 4). -/
def Source.byteAt (src : Source) (i : Nat) : Byte := src.feed.getD i (Config.rs src.stream i)

/-- `RS(p), RS(p + 1), ..., RS(p + n - 1)` (R111). -/
def Source.bytes (src : Source) (p n : Nat) : List Byte :=
  match n with
  | 0 => []
  | k + 1 => src.byteAt p :: src.bytes (p + 1) k

/-- `RS_LIMIT` is present and lies before position `p` (R112). -/
def Source.exhausted (src : Source) (p : Nat) : Bool :=
  match src.limit with
  | some l => decide (l < p)
  | none => false

/-- The outcome of a draw (R111). -/
inductive DrawResult where
  /-- The bytes, and the state in which `rs_pos` has advanced and `RNGINIT` is set. -/
  | deliver (bytes : List Byte) (s : State)
  /-- The command is held: no state changes. -/
  | starved
  /-- The state in which `RNGINIT` is set; the caller raises `EntropyUnavailable`. -/
  | failed (s : State)
deriving DecidableEq, Repr

/-- `Draw(n)` (R111, R112). `Draw(0)` always delivers (R111). -/
def State.draw (s : State) (n : Nat) : DrawResult :=
  if n = 0 then .deliver [] { s with rngInit := true }
  else if s.source.exhausted (s.rsPos + n) then .failed { s with rngInit := true }
  else
    match s.answer with
    | .starved => .starved
    | .deliver => .deliver (s.source.bytes s.rsPos n) { s with rsPos := s.rsPos + n, rngInit := true }

/-- How a command's pseudocode ends (00_scope.md R13), with the state its effects so far have made. -/
inductive RuleResult where
  /-- It reached its end. -/
  | ended (s : State)
  /-- It raised an error. -/
  | raised (e : ErrCode) (s : State)
  /-- It is held at its draw (R96, R98). -/
  | held
deriving DecidableEq, Repr

/-- A command's pseudocode from its draw of `n` bytes on: `next` runs on the bytes and the state after the draw. -/
def State.withDraw (s : State) (n : Nat) (next : List Byte → State → RuleResult) : RuleResult :=
  match s.draw n with
  | .deliver bytes s' => next bytes s'
  | .starved => .held
  | .failed s' => .raised .entropyUnavailable s'

/-- The end of channel `c`'s engine step: `ERR <- e; BUSY <- 0; DONE <- 1` (R96). -/
def State.complete (s : State) (c : Nat) (e : ErrCode) : State := s.updateChannel c (Channel.complete e)

/-- What raising error `e` on channel `c` writes beyond the effects before it: the common effect (R245), the outputs
cleared for every error but `IllegalCommand` (R246, R248), and the fatal latch for a failed draw (R249). -/
def State.raise (s : State) (c : Nat) (e : ErrCode) : State :=
  match e with
  | .illegalCommand => s.complete c e
  | .entropyUnavailable => { s.setOutput c [] with fatal := true }.complete c e
  | .invalidKeyLength => (s.setOutput c []).complete c e
  | .paddingError => (s.setOutput c []).complete c e
  | .authenticationFailure => (s.setOutput c []).complete c e
  | .none => s.complete c e

/-- An engine step that runs `rule` on channel `c` of state `s` (R96): refused with code 4 and no other effect under the
fatal latch (R249), and the end of `rule` otherwise; a held command leaves the state as it was. -/
def State.runRule (s : State) (c : Nat) (rule : Nat → State → RuleResult) : State :=
  if s.fatal then s.complete c .entropyUnavailable
  else
    match rule c s with
    | .ended s' => s'.complete c .none
    | .raised e s' => s'.raise c e
    | .held => s

/-- The engine step of the active channel running `rule`: the form of every command's meaning. -/
def engineStep (rule : Nat → State → RuleResult) (s : State) : Host.Outcome State Fault Refusal :=
  match s.channels[s.active]? with
  | none => .fault .noSuchChannel
  | some _ => .next (s.runRule s.active rule)

/-- The engine step of a word that is no command (R94, R96): `IllegalCommand`, or code 4 under the fatal latch. -/
def illegalWord (s : State) : State := s.runRule s.active fun _ s' => .raised .illegalCommand s'

/-- The command word channel `c`'s engine would execute now: `none` where no engine step is enabled, because there is
no channel `c` or it is not busy (R96). -/
def State.pendingWord (s : State) (c : Nat) : Option Word :=
  match s.channels[c]? with
  | none => none
  | some ch => if ch.busy then some ch.cmdReg else none

/-- The state in which channel `c`'s engine takes its step, the environment answering `a` to its draw. -/
def State.takeTurn (s : State) (c : Nat) (a : Answer) : State := { s with active := c, answer := a }

end Sys2Proof.Machine
end

