-- ==== Sys2Proof/Machine/Sha256.lean ====
section
/-! DEFINITION. SHA-256 (spec 41_mac.md R130 to R136). -/

namespace Sys2Proof.Machine

/-- `K[0..64)` (R130), row by row. -/
def shaK : List Word :=
  [0x428a2f98#32, 0x71374491#32, 0xb5c0fbcf#32, 0xe9b5dba5#32, 0x3956c25b#32, 0x59f111f1#32, 0x923f82a4#32, 0xab1c5ed5#32] ++
  [0xd807aa98#32, 0x12835b01#32, 0x243185be#32, 0x550c7dc3#32, 0x72be5d74#32, 0x80deb1fe#32, 0x9bdc06a7#32, 0xc19bf174#32] ++
  [0xe49b69c1#32, 0xefbe4786#32, 0x0fc19dc6#32, 0x240ca1cc#32, 0x2de92c6f#32, 0x4a7484aa#32, 0x5cb0a9dc#32, 0x76f988da#32] ++
  [0x983e5152#32, 0xa831c66d#32, 0xb00327c8#32, 0xbf597fc7#32, 0xc6e00bf3#32, 0xd5a79147#32, 0x06ca6351#32, 0x14292967#32] ++
  [0x27b70a85#32, 0x2e1b2138#32, 0x4d2c6dfc#32, 0x53380d13#32, 0x650a7354#32, 0x766a0abb#32, 0x81c2c92e#32, 0x92722c85#32] ++
  [0xa2bfe8a1#32, 0xa81a664b#32, 0xc24b8b70#32, 0xc76c51a3#32, 0xd192e819#32, 0xd6990624#32, 0xf40e3585#32, 0x106aa070#32] ++
  [0x19a4c116#32, 0x1e376c08#32, 0x2748774c#32, 0x34b0bcb5#32, 0x391c0cb3#32, 0x4ed8aa4a#32, 0x5b9cca4f#32, 0x682e6ff3#32] ++
  [0x748f82ee#32, 0x78a5636f#32, 0x84c87814#32, 0x8cc70208#32, 0x90befffa#32, 0xa4506ceb#32, 0xbef9a3f7#32, 0xc67178f2#32]

/-- The chaining value `H[0..8)`, and the working variables `a` to `h` (R134). -/
structure ShaState where
  (a b c d e f g h : Word)
deriving DecidableEq, Repr

/-- `H0[0..8)` (R130). -/
def shaH0 : ShaState :=
  ⟨0x6a09e667#32, 0xbb67ae85#32, 0x3c6ef372#32, 0xa54ff53a#32, 0x510e527f#32, 0x9b05688c#32, 0x1f83d9ab#32, 0x5be0cd19#32⟩

/-- The number `z` of zero bytes in the padding of a message of `len` bytes: the least with `(len + 1 + z) mod 64 = 56`
(R131). -/
def shaZeros (len : Nat) : Nat := (119 - len % 64) % 64

/-- The padded message (R131, for messages below 2^61 bytes). Of a longer message the length field is the bit length modulo
2^64 (DESIGN CHOICE, log entry 25; no command hashes one). -/
def shaPad (m : List Byte) : List Byte :=
  m ++ [0x80#8] ++ zeros (shaZeros m.length) ++ beBytes 8 (8 * m.length)

/-- The sixteen message words of a 64-byte block (R132). -/
def shaWords (block : List Byte) : List Word := (chunks 4 16 block).map fun s => BitVec.ofNat 32 (beNat s)

/-- `s0` (R133). -/
def smallSigma0 (x : Word) : Word := rotr32 x 7 ^^^ rotr32 x 18 ^^^ (x >>> 3)

/-- `s1` (R133). -/
def smallSigma1 (x : Word) : Word := rotr32 x 17 ^^^ rotr32 x 19 ^^^ (x >>> 10)

/-- `S0` (R134). -/
def bigSigma0 (x : Word) : Word := rotr32 x 2 ^^^ rotr32 x 13 ^^^ rotr32 x 22

/-- `S1` (R134). -/
def bigSigma1 (x : Word) : Word := rotr32 x 6 ^^^ rotr32 x 11 ^^^ rotr32 x 25

/-- `Ch` (R134). -/
def shaCh (x y z : Word) : Word := (x &&& y) ^^^ (~~~x &&& z)

/-- `Maj` (R134). -/
def shaMaj (x y z : Word) : Word := (x &&& y) ^^^ (x &&& z) ^^^ (y &&& z)

/-- `k` more words of the message schedule (R133). The list holds `W` from the latest word down, so that `W[t-2]`,
`W[t-7]`, `W[t-15]`, `W[t-16]` stand at 1, 6, 14, 15. -/
def extendSchedule (k : Nat) (latest : List Word) : List Word :=
  match k with
  | 0 => latest
  | j + 1 =>
    extendSchedule j
      ((smallSigma1 (latest.getD 1 0#32) + latest.getD 6 0#32 + smallSigma0 (latest.getD 14 0#32) + latest.getD 15 0#32) :: latest)

/-- The message schedule `W[0..64)` of a block (R132, R133). -/
def shaSchedule (block : List Byte) : List Word := (extendSchedule 48 (shaWords block).reverse).reverse

/-- One iteration of the compression loop (R134), with `K[t]` and `W[t]`. -/
def shaRound (st : ShaState) (kw : Word × Word) : ShaState :=
  match st with
  | ⟨a, b, c, d, e, f, g, h⟩ =>
    let t1 := h + bigSigma1 e + shaCh e f g + kw.1 + kw.2
    let t2 := bigSigma0 a + shaMaj a b c
    ⟨t1 + t2, a, b, c, d + t1, e, f, g⟩

/-- The compression of one block into the chaining value (R134). -/
def shaCompress (st : ShaState) (block : List Byte) : ShaState :=
  let r := (shaK.zip (shaSchedule block)).foldl shaRound st
  ⟨st.a + r.a, st.b + r.b, st.c + r.c, st.d + r.d, st.e + r.e, st.f + r.f, st.g + r.g, st.h + r.h⟩

/-- `Sha256(M)` (R135). -/
def sha256 (m : List Byte) : List Byte :=
  let r := (chunks 64 ((shaPad m).length / 64) (shaPad m)).foldl shaCompress shaH0
  beBytes 4 r.a.toNat ++ beBytes 4 r.b.toNat ++ beBytes 4 r.c.toNat ++ beBytes 4 r.d.toNat ++
    beBytes 4 r.e.toNat ++ beBytes 4 r.f.toNat ++ beBytes 4 r.g.toNat ++ beBytes 4 r.h.toNat

end Sys2Proof.Machine
end

