-- ==== Sys2Proof/Machine/Hmac.lean ====
section
/-! DEFINITION. HMAC-SHA256 (spec 41_mac.md R140) and the constant-time comparison of tags (R145). -/

namespace Sys2Proof.Machine

/-- The 64-byte block `K0` of a key (R140): a key of more than 64 bytes is hashed first. -/
def hmacKeyBlock (key : List Byte) : List Byte :=
  let k := if key.length > 64 then sha256 key else key
  k ++ zeros (64 - k.length)

/-- `HmacSha256(key, data)` (R140). R140 admits any length and R131 hashes only below 2^61 bytes: beyond, what `sha256` gives
(DESIGN CHOICE, log entry 25; no command has such an operand). -/
def hmacSha256 (key data : List Byte) : List Byte :=
  let ipad := xorBytes (hmacKeyBlock key) (rep 0x36#8 64)
  let opad := xorBytes (hmacKeyBlock key) (rep 0x5C#8 64)
  sha256 (opad ++ sha256 (ipad ++ data))

/-- `CtEqual(computed, expected, n)` (R145): `n` iterations over the computed tag, the expected tag read as cut or
zero-extended to `n` bytes, and the result formed after the loop. -/
def ctEqual (computed expected : List Byte) (n : Nat) : Bool :=
  let acc := (List.range n).foldl (fun acc i => acc ||| (computed.getD i 0#8 ^^^ expected.getD i 0#8)) 0#8
  let lenbad := if expected.length = n then 0#8 else 1#8
  (acc ||| lenbad) == 0#8

end Sys2Proof.Machine
end

