-- ==== Sys2Proof/Machine/Aes.lean ====
section
/-! DEFINITION. The AES block cipher (spec 42_aes_core.md R160 to R173). A block, a state and a round key are 16-byte
sequences: byte `4c + r` is row `r` of column `c` (R161). -/

namespace Sys2Proof.Machine

/-- `Xtime(b)` (R160). -/
def xtime (b : Byte) : Byte := if b.getLsbD 7 then (b <<< 1) ^^^ 0x1B#8 else b <<< 1

/-- The last `k` iterations of `GfMul` (R160), with `r` summed so far and `b` shifted so that its lowest bit is next. -/
def gfMulFrom (k : Nat) (r a b : Byte) : Byte :=
  match k with
  | 0 => r
  | j + 1 => gfMulFrom j (if b.getLsbD 0 then r ^^^ a else r) (xtime a) (b >>> 1)

/-- `GfMul(a, b)`, the product in GF(2^8) (R160). -/
def gfMul (a b : Byte) : Byte := gfMulFrom 8 0#8 a b

/-- Entry `a` of a table of 256 bytes in rows of 16 bytes, written as the spec prints them. -/
def tableByte (rows : List Nat) (a : Byte) : Byte :=
  BitVec.ofNat 8 (rows.getD (a.toNat / 16) 0 >>> (8 * (15 - a.toNat % 16)))

/-- The rows of `SBOX` (R162). -/
def sboxRows : List Nat :=
  [0x637c777bf26b6fc53001672bfed7ab76,
   0xca82c97dfa5947f0add4a2af9ca472c0,
   0xb7fd9326363ff7cc34a5e5f171d83115,
   0x04c723c31896059a071280e2eb27b275,
   0x09832c1a1b6e5aa0523bd6b329e32f84,
   0x53d100ed20fcb15b6acbbe394a4c58cf,
   0xd0efaafb434d338545f9027f503c9fa8,
   0x51a3408f929d38f5bcb6da2110fff3d2,
   0xcd0c13ec5f974417c4a77e3d645d1973,
   0x60814fdc222a908846eeb814de5e0bdb,
   0xe0323a0a4906245cc2d3ac629195e479,
   0xe7c8376d8dd54ea96c56f4ea657aae08,
   0xba78252e1ca6b4c6e8dd741f4bbd8b8a,
   0x703eb5664803f60e613557b986c11d9e,
   0xe1f8981169d98e949b1e87e9ce5528df,
   0x8ca1890dbfe6426841992d0fb054bb16]

/-- The rows of `INV_SBOX` (R163). -/
def invSboxRows : List Nat :=
  [0x52096ad53036a538bf40a39e81f3d7fb,
   0x7ce339829b2fff87348e4344c4dee9cb,
   0x547b9432a6c2233dee4c950b42fac34e,
   0x082ea16628d924b2765ba2496d8bd125,
   0x72f8f66486689816d4a45ccc5d65b692,
   0x6c704850fdedb9da5e154657a78d9d84,
   0x90d8ab008cbcd30af7e45805b8b34506,
   0xd02c1e8fca3f0f02c1afbd0301138a6b,
   0x3a9111414f67dcea97f2cfcef0b4e673,
   0x96ac7422e7ad3585e2f937e81c75df6e,
   0x47f11a711d29c5896fb7620eaa18be1b,
   0xfc563e4bc6d279209adbc0fe78cd5af4,
   0x1fdda8338807c731b11210592780ec5f,
   0x60517fa919b54a0d2de57a9f93c99cef,
   0xa0e03b4dae2af5b0c8ebbb3c83539961,
   0x172b047eba77d626e169146355210c7d]

/-- `SBOX[a]` (R162). -/
def sbox (a : Byte) : Byte := tableByte sboxRows a

/-- `INV_SBOX[a]` (R163). -/
def invSbox (a : Byte) : Byte := tableByte invSboxRows a

/-- `RCON[1..10]` (R164), `RCON[1]` first. -/
def rcon : List Byte := [0x01#8, 0x02#8, 0x04#8, 0x08#8, 0x10#8, 0x20#8, 0x40#8, 0x80#8, 0x1b#8, 0x36#8]

/-- `RotWord` (R165). -/
def rotWord (t : List Byte) : List Byte := t.drop 1 ++ t.take 1

/-- `SubWord` (R165). -/
def subWord (t : List Byte) : List Byte := t.map sbox

/-- The word `t` that `w[i]` adds to `w[i - Nk]` (R165), from `w[i - 1]`. -/
def keyScheduleTerm (nk i : Nat) (t : List Byte) : List Byte :=
  if i % nk = 0 then xorBytes (subWord (rotWord t)) [rcon.getD (i / nk - 1) 0#8, 0#8, 0#8, 0#8]
  else if nk = 8 ∧ i % nk = 4 then subWord t
  else t

/-- `k` more words of the key expansion from word `i` on (R165). The list holds the words from the latest down. -/
def extendKey (nk k i : Nat) (latest : List (List Byte)) : List (List Byte) :=
  match k with
  | 0 => latest
  | j + 1 =>
    extendKey nk j (i + 1) (xorBytes (latest.getD (nk - 1) []) (keyScheduleTerm nk i (latest.getD 0 [])) :: latest)

/-- `KeyExpansion(key)` (R165): the `4 * (Nr + 1)` words, for `Nk = len(key) / 4` and `Nr = Nk + 6`. -/
def keyExpansion (key : List Byte) : List (List Byte) :=
  let nk := key.length / 4
  (extendKey nk (4 * (nk + 7) - nk) nk (chunks 4 nk key).reverse).reverse

/-- The round keys `RK[0..Nr]` (R165): four words each. -/
def roundKeys (key : List Byte) : List (List Byte) := chunks 16 (key.length / 4 + 7) (keyExpansion key).flatten

/-- `AddRoundKey` with round key `rk` (R166). -/
def addRoundKey (s rk : List Byte) : List Byte := xorBytes s rk

/-- `SubBytes` (R166). -/
def subBytes (s : List Byte) : List Byte := s.map sbox

/-- `InvSubBytes` (R166). -/
def invSubBytes (s : List Byte) : List Byte := s.map invSbox

/-- `ShiftRows` (R167): byte `4c + r` comes from byte `4((c + r) mod 4) + r`. -/
def shiftRows (s : List Byte) : List Byte :=
  (List.range 16).map fun i => s.getD (4 * ((i / 4 + i % 4) % 4) + i % 4) 0#8

/-- `InvShiftRows` (R167): byte `4c + r` comes from byte `4((c - r) mod 4) + r`. -/
def invShiftRows (s : List Byte) : List Byte :=
  (List.range 16).map fun i => s.getD (4 * ((i / 4 + 4 - i % 4) % 4) + i % 4) 0#8

/-- `MixColumns` on one column (R167). -/
def mixColumn (a0 a1 a2 a3 : Byte) : List Byte :=
  [gfMul a0 2#8 ^^^ gfMul a1 3#8 ^^^ a2 ^^^ a3,
   a0 ^^^ gfMul a1 2#8 ^^^ gfMul a2 3#8 ^^^ a3,
   a0 ^^^ a1 ^^^ gfMul a2 2#8 ^^^ gfMul a3 3#8,
   gfMul a0 3#8 ^^^ a1 ^^^ a2 ^^^ gfMul a3 2#8]

/-- `InvMixColumns` on one column (R167). -/
def invMixColumn (a0 a1 a2 a3 : Byte) : List Byte :=
  [gfMul a0 14#8 ^^^ gfMul a1 11#8 ^^^ gfMul a2 13#8 ^^^ gfMul a3 9#8,
   gfMul a0 9#8 ^^^ gfMul a1 14#8 ^^^ gfMul a2 11#8 ^^^ gfMul a3 13#8,
   gfMul a0 13#8 ^^^ gfMul a1 9#8 ^^^ gfMul a2 14#8 ^^^ gfMul a3 11#8,
   gfMul a0 11#8 ^^^ gfMul a1 13#8 ^^^ gfMul a2 9#8 ^^^ gfMul a3 14#8]

/-- A function of a column applied to the four columns of a state (R161). -/
def mapColumns (f : Byte → Byte → Byte → Byte → List Byte) (s : List Byte) : List Byte :=
  (List.range 4).flatMap fun c =>
    f (s.getD (4 * c) 0#8) (s.getD (4 * c + 1) 0#8) (s.getD (4 * c + 2) 0#8) (s.getD (4 * c + 3) 0#8)

/-- `MixColumns` (R167). -/
def mixColumns (s : List Byte) : List Byte := mapColumns mixColumn s

/-- `InvMixColumns` (R167). -/
def invMixColumns (s : List Byte) : List Byte := mapColumns invMixColumn s

/-- One of the rounds `1 .. Nr-1` of the cipher (R168), with round key `rk`. -/
def encryptRound (s rk : List Byte) : List Byte := addRoundKey (mixColumns (shiftRows (subBytes s))) rk

/-- One of the rounds `Nr-1 .. 1` of the inverse cipher (R170), with round key `rk`. -/
def decryptRound (s rk : List Byte) : List Byte := invMixColumns (addRoundKey (invSubBytes (invShiftRows s)) rk)

/-- `RK[r]` (R165). -/
def roundKey (rks : List (List Byte)) (r : Nat) : List Byte := rks.getD r []

/-- The round keys `RK[1..Nr)` in order. -/
def innerRoundKeys (rks : List (List Byte)) (nr : Nat) : List (List Byte) := (rks.drop 1).take (nr - 1)

/-- `AesEncryptBlock(key, in)` (R168). -/
def aesEncryptBlock (key input : List Byte) : List Byte :=
  let nr := key.length / 4 + 6
  let rks := roundKeys key
  let s := (innerRoundKeys rks nr).foldl encryptRound (addRoundKey input (roundKey rks 0))
  addRoundKey (shiftRows (subBytes s)) (roundKey rks nr)

/-- `AesDecryptBlock(key, in)` (R170). -/
def aesDecryptBlock (key input : List Byte) : List Byte :=
  let nr := key.length / 4 + 6
  let rks := roundKeys key
  let s := (innerRoundKeys rks nr).reverse.foldl decryptRound (addRoundKey input (roundKey rks nr))
  addRoundKey (invSubBytes (invShiftRows s)) (roundKey rks 0)

end Sys2Proof.Machine
end

