-- ==== Sys2Proof/Machine/Cbc.lean ====
section
/-! DEFINITION. Block padding and the CBC mode (spec 43_cbc.md R190 to R193). -/

namespace Sys2Proof.Machine

/-- `Pad(p)` (R190). -/
def cbcPad (p : List Byte) : List Byte :=
  let n := 16 - p.length % 16
  p ++ rep (BitVec.ofNat 8 n) n

/-- `Unpad(m)` (R191); `none` where the padding is malformed. -/
def cbcUnpad (m : List Byte) : Option (List Byte) :=
  let last := m.getD (m.length - 1) 0#8
  let n := last.toNat
  if n = 0 ∨ n > 16 then none
  else if (m.drop (m.length - n)).all (· == last) then some (m.take (m.length - n))
  else none

/-- The chaining loop of `CbcEncryptRaw` over the blocks of the message (R192). -/
def cbcEncryptBlocks (key prev : List Byte) (blocks : List (List Byte)) : List Byte :=
  match blocks with
  | [] => []
  | b :: rest =>
    let c := aesEncryptBlock key (xorBytes b prev)
    c ++ cbcEncryptBlocks key c rest

/-- The chaining loop of `CbcDecryptRaw` over the blocks of the ciphertext (R193). -/
def cbcDecryptBlocks (key prev : List Byte) (blocks : List (List Byte)) : List Byte :=
  match blocks with
  | [] => []
  | b :: rest => xorBytes (aesDecryptBlock key b) prev ++ cbcDecryptBlocks key b rest

/-- `CbcEncryptRaw(key, iv, m)` (R192). -/
def cbcEncryptRaw (key iv m : List Byte) : List Byte := cbcEncryptBlocks key iv (blocksOf m)

/-- `CbcDecryptRaw(key, iv, c)` (R193). -/
def cbcDecryptRaw (key iv c : List Byte) : List Byte := cbcDecryptBlocks key iv (blocksOf c)

end Sys2Proof.Machine
end

