-- ==== Sys2Proof/Machine/Gcm.lean ====
section
/-! DEFINITION. GHASH and the counter mode of GCM (spec 44_gcm.md R210 to R217). -/

namespace Sys2Proof.Machine

/-- `int(B)`, the 128-bit integer of a 16-byte block, big-endian (R210). -/
def blockInt (b : List Byte) : BitVec 128 := BitVec.ofNat 128 (beNat b)

/-- The 16-byte block of a 128-bit integer, big-endian (R210). -/
def intBlock (v : BitVec 128) : List Byte := beBytes 16 v.toNat

/-- `R = 0xE1 << 120` (R211). -/
def gcmR : BitVec 128 := 0xE1000000000000000000000000000000#128

/-- The last `k` iterations of `Gf128Mul` (R211): bit `k - 1` of `X` is looked at next. -/
def gf128MulFrom (x : BitVec 128) (k : Nat) (z v : BitVec 128) : BitVec 128 :=
  match k with
  | 0 => z
  | j + 1 =>
    gf128MulFrom x j (if x.getLsbD j then z ^^^ v else z) (if v.getLsbD 0 then (v >>> 1) ^^^ gcmR else v >>> 1)

/-- `Gf128Mul(X, Y)` (R211). -/
def gf128Mul (x y : BitVec 128) : BitVec 128 := gf128MulFrom x 128 0#128 y

/-- `Ghash(H, D)` (R212, for a `D` of whole blocks; log entry 19 for others). -/
def ghash (h d : List Byte) : List Byte :=
  intBlock ((blocksOf d).foldl (fun y b => gf128Mul (y ^^^ blockInt b) (blockInt h)) 0#128)

/-- `Inc32(B)` (R213). -/
def inc32 (b : List Byte) : List Byte := b.take 12 ++ beBytes 4 ((beNat (slice b 12 16) + 1) % 2 ^ 32)

/-- The counter loop of `Gctr` over the blocks of `X`, the last of which may be partial (R214). -/
def gctrBlocks (key cb : List Byte) (blocks : List (List Byte)) : List Byte :=
  match blocks with
  | [] => []
  | x :: rest => xorBytes x (aesEncryptBlock key cb) ++ gctrBlocks key (inc32 cb) rest

/-- `Gctr(key, ICB, X)` (R214). -/
def gctr (key icb x : List Byte) : List Byte := gctrBlocks key icb (blocksOf x)

/-- The pre-counter block `J0` of a 96-bit nonce (R216). -/
def gcmJ0 (nonce : List Byte) : List Byte := nonce ++ [0x00#8, 0x00#8, 0x00#8, 0x01#8]

/-- The hash subkey `H` (R216). -/
def gcmSubkey (key : List Byte) : List Byte := aesEncryptBlock key (zeros 16)

/-- The byte string `Ghash` hashes for a ciphertext (R216): zero-padded, then the length block. R216 admits a ciphertext of
any length and R10 gives `BE64` only below 2^64: of a ciphertext of 2^61 bytes or more the length field is the bit length
modulo 2^64 (DESIGN CHOICE, log entry 26; no command has one). -/
def gcmHashInput (c : List Byte) : List Byte :=
  c ++ zeros ((16 - c.length % 16) % 16) ++ beBytes 8 0 ++ beBytes 8 (8 * c.length)

/-- `GcmTag(key, nonce, C)` (R216; log entry 26 for a `C` of 2^61 bytes or more). -/
def gcmTag (key nonce c : List Byte) : List Byte :=
  gctr key (gcmJ0 nonce) (ghash (gcmSubkey key) (gcmHashInput c))

/-- The ciphertext part `C` of an envelope, and the plaintext of a ciphertext part: `Gctr` from `Inc32(J0)` (R217, R223). -/
def gcmCrypt (key nonce x : List Byte) : List Byte := gctr key (inc32 (gcmJ0 nonce)) x

end Sys2Proof.Machine
end

