-- ==== Sys2Proof/Machine/Random.lean ====
section
/-! DEFINITION. RandomSource and KeyMaterial Generation (spec 40_random_keymaterial.md R113 to R117): RNG_BYTES, GEN_KEY,
GEN_IV, GEN_NONCE. -/

namespace Sys2Proof.Machine

/-- `GenBytes(n)`, the common body of the four commands (R117). -/
def genBytes (n c : Nat) (s : State) : RuleResult :=
  if n > s.bufMax then .raised .illegalCommand s
  else s.withDraw n fun r s' => .ended (s'.setOutput c r)

/-- The pseudocode of GEN_KEY (R114): `bits` is a positive multiple of 8. -/
def genKeyRule (bits c : Nat) (s : State) : RuleResult :=
  if bits = 0 ∨ bits % 8 ≠ 0 then .raised .illegalCommand s
  else genBytes (bits / 8) c s

/-- RNG_BYTES (R113). -/
def execRngBytes (n : Nat) (s : State) : Host.Outcome State Fault Refusal := engineStep (genBytes n) s

/-- GEN_KEY (R114). -/
def execGenKey (bits : Nat) (s : State) : Host.Outcome State Fault Refusal := engineStep (genKeyRule bits) s

/-- GEN_IV (R115): 16 bytes, to `DOUT`. -/
def execGenIv (s : State) : Host.Outcome State Fault Refusal := engineStep (genBytes 16) s

/-- GEN_NONCE (R116): 12 bytes, to `DOUT`. -/
def execGenNonce (s : State) : Host.Outcome State Fault Refusal := engineStep (genBytes 12) s

end Sys2Proof.Machine
end

