-- ==== Sys2Proof/Machine/Mac.lean ====
section
/-! DEFINITION. The MAC Engine's commands (spec 41_mac.md R150, R151). -/

namespace Sys2Proof.Machine

/-- The tag of the channel's operands: `HmacSha256(KEY[0..KEYLEN), DIN[0..DINLEN))` (R150, R151). -/
def State.computedTag (s : State) (c : Nat) : List Byte := hmacSha256 (s.keyOperand c) (s.dataOperand c)

/-- The pseudocode of MAC_COMPUTE (R150). -/
def macComputeRule (c : Nat) (s : State) : RuleResult := .ended (s.writeArray c .tag (s.computedTag c))

/-- The pseudocode of MAC_VERIFY (R151): only `VOK` is written. -/
def macVerifyRule (c : Nat) (s : State) : RuleResult :=
  .ended (s.updateChannel c (Channel.setVok (ctEqual (s.computedTag c) (s.expectedTag c) 32)))

/-- MAC_COMPUTE (R150). -/
def execMacCompute (s : State) : Host.Outcome State Fault Refusal := engineStep macComputeRule s

/-- MAC_VERIFY (R151). -/
def execMacVerify (s : State) : Host.Outcome State Fault Refusal := engineStep macVerifyRule s

end Sys2Proof.Machine
end

