-- ==== Sys2Proof/Machine/CbcEngine.lean ====
section
/-! DEFINITION. The CBC Cipher Engine's commands (spec 43_cbc.md R200, R201). -/

namespace Sys2Proof.Machine

/-- CBC_ENC after its draw (R200): the IV written, the key length tested, the padded message encrypted. The operands
are those of state `s`, after the draw. -/
def cbcEncDrawn (c : Nat) (iv : List Byte) (s : State) : RuleResult :=
  let s' := s.writeArray c .ivn iv
  if aesKeyOk (s.channel c).keyLen.toNat then
    .ended (s'.setOutput c (cbcEncryptRaw (s.keyOperand c) iv (cbcPad (s.dataOperand c))))
  else .raised .invalidKeyLength s'

/-- The pseudocode of CBC_ENC (R200): the order of the lines is the order of the effects and of the error tests. -/
def cbcEncRule (c : Nat) (s : State) : RuleResult :=
  if 16 * ((s.channel c).dinLen.toNat / 16 + 1) > s.bufMax then .raised .illegalCommand s
  else s.withDraw 16 (cbcEncDrawn c)

/-- The pseudocode of CBC_DEC (R201). -/
def cbcDecRule (c : Nat) (s : State) : RuleResult :=
  if aesKeyOk (s.channel c).keyLen.toNat then
    if (s.channel c).dinLen.toNat = 0 ∨ (s.channel c).dinLen.toNat % 16 ≠ 0 then .raised .paddingError s
    else
      match cbcUnpad (cbcDecryptRaw (s.keyOperand c) (s.ivOperand c) (s.dataOperand c)) with
      | none => .raised .paddingError s
      | some p => .ended (s.setOutput c p)
  else .raised .invalidKeyLength s

/-- CBC_ENC (R200). -/
def execCbcEnc (s : State) : Host.Outcome State Fault Refusal := engineStep cbcEncRule s

/-- CBC_DEC (R201). -/
def execCbcDec (s : State) : Host.Outcome State Fault Refusal := engineStep cbcDecRule s

end Sys2Proof.Machine
end

