-- ==== Sys2Proof/Machine/GcmEngine.lean ====
section
/-! DEFINITION. The GCM Cipher Engine's commands (spec 44_gcm.md R222, R223). -/

namespace Sys2Proof.Machine

/-- GCM_ENC after its draw (R222): the nonce and four zero bytes written to `IVN`, the key length tested, the message
encrypted and its tag appended. The operands are those of state `s`, after the draw. -/
def gcmEncDrawn (c : Nat) (nonce : List Byte) (s : State) : RuleResult :=
  let s' := s.writeArray c .ivn (nonce ++ zeros 4)
  if aesKeyOk (s.channel c).keyLen.toNat then
    let ct := gcmCrypt (s.keyOperand c) nonce (s.dataOperand c)
    .ended (s'.setOutput c (ct ++ gcmTag (s.keyOperand c) nonce ct))
  else .raised .invalidKeyLength s'

/-- The pseudocode of GCM_ENC (R222). -/
def gcmEncRule (c : Nat) (s : State) : RuleResult :=
  if (s.channel c).dinLen.toNat + 16 > s.bufMax then .raised .illegalCommand s
  else s.withDraw 12 (gcmEncDrawn c)

/-- The pseudocode of GCM_DEC (R223): the plaintext is written only after the tag matched. -/
def gcmDecRule (c : Nat) (s : State) : RuleResult :=
  if aesKeyOk (s.channel c).keyLen.toNat then
    if (s.channel c).dinLen.toNat < 16 then .raised .authenticationFailure s
    else
      let ct := (s.dataOperand c).take ((s.channel c).dinLen.toNat - 16)
      let tag := (s.dataOperand c).drop ((s.channel c).dinLen.toNat - 16)
      if ctEqual (gcmTag (s.keyOperand c) (s.nonceOperand c) ct) tag 16 then
        .ended (s.setOutput c (gcmCrypt (s.keyOperand c) (s.nonceOperand c) ct))
      else .raised .authenticationFailure s
  else .raised .invalidKeyLength s

/-- GCM_ENC (R222). -/
def execGcmEnc (s : State) : Host.Outcome State Fault Refusal := engineStep gcmEncRule s

/-- GCM_DEC (R223). -/
def execGcmDec (s : State) : Host.Outcome State Fault Refusal := engineStep gcmDecRule s

end Sys2Proof.Machine
end

