-- ==== Sys2Proof/Machine/Dispatch.lean ====
section
/-! DEFINITION. One arm per command (spec 30_encoding.md R93). -/

namespace Sys2Proof.Machine

def exec (i : Instr) (s : State) : Host.Outcome State Fault Refusal :=
  match i with
  | .rngBytes n => Sys2Proof.Machine.execRngBytes n s
  | .genKey bits => Sys2Proof.Machine.execGenKey bits s
  | .genIv => Sys2Proof.Machine.execGenIv s
  | .genNonce => Sys2Proof.Machine.execGenNonce s
  | .macCompute => Sys2Proof.Machine.execMacCompute s
  | .macVerify => Sys2Proof.Machine.execMacVerify s
  | .cbcEnc => Sys2Proof.Machine.execCbcEnc s
  | .cbcDec => Sys2Proof.Machine.execCbcDec s
  | .gcmEnc => Sys2Proof.Machine.execGcmEnc s
  | .gcmDec => Sys2Proof.Machine.execGcmDec s

end Sys2Proof.Machine
end

