-- ==== Sys2Proof/Machine/HostPort.lean ====
section
/-! DEFINITION. The host's accesses (spec 20_memory.md R62 to R70, 30_encoding.md R95) and the reset input
(70_reset_and_hazards.md R280). A refused access changes nothing and reads as 0 (R66). -/

namespace Sys2Proof.Machine

/-- What a read of a control word returns while the channel is not busy (R67); `CMD` is write-only (R66 (c)). -/
def State.wordValue (s : State) (c : Nat) (r : WordReg) : Word :=
  match r with
  | .cmd => 0#32
  | .status => statusWord s.fatal (s.channel c)
  | .keyLen => (s.channel c).keyLen
  | .dinLen => (s.channel c).dinLen
  | .doutLen => (s.channel c).doutLen
  | .xtagLen => (s.channel c).xtagLen
  | .caps0 => BitVec.ofNat 32 s.bufMax
  | .caps1 => BitVec.ofNat 32 s.nch

/-- The control words a read of a busy channel is performed on (R70). -/
def WordReg.readableBusy (r : WordReg) : Bool :=
  match r with
  | .status => true
  | .caps0 => true
  | .caps1 => true
  | .cmd => false
  | .keyLen => false
  | .dinLen => false
  | .doutLen => false
  | .xtagLen => false

/-- The byte arrays a host may read (R22, R61): all but `KEY`. -/
def ArrayReg.readable (r : ArrayReg) : Bool :=
  match r with
  | .key => false
  | .tag => true
  | .xtag => true
  | .ivn => true
  | .din => true
  | .dout => true

/-- The byte arrays a host may write (R22, R61): the operands. -/
def ArrayReg.writable (r : ArrayReg) : Bool :=
  match r with
  | .tag => false
  | .dout => false
  | .xtag => true
  | .ivn => true
  | .key => true
  | .din => true

/-- The value of `MemRead(addr, n)` (R62 to R67, R70): 0 for a refused access. -/
def State.memRead (s : State) (addr n : Nat) : Word :=
  match s.target addr n with
  | none => 0#32
  | some (.word c r) => if (s.channel c).busy && !r.readableBusy then 0#32 else s.wordValue c r
  | some (.bytes c r) => if (s.channel c).busy || !r.readable then 0#32 else s.mem.readLE addr n

/-- A write of `w` to `CMD` of a channel that is not busy (R95). -/
def State.writeCmd (s : State) (c : Nat) (w : Word) : State :=
  if s.fatal then s.updateChannel c Channel.refuseFatal else s.updateChannel c (Channel.accept w)

/-- A write of `v` to a control word of a channel that is not busy (R68, R95; R66 (d), (g)). -/
def State.writeWord (s : State) (c : Nat) (r : WordReg) (v : Word) : State :=
  match r with
  | .cmd => s.writeCmd c v
  | .keyLen => if v.toNat ≤ Config.keyMax then s.updateChannel c fun ch => { ch with keyLen := v } else s
  | .dinLen => if v.toNat ≤ s.bufMax then s.updateChannel c fun ch => { ch with dinLen := v } else s
  | .xtagLen => if v.toNat ≤ Config.xtagMax then s.updateChannel c fun ch => { ch with xtagLen := v } else s
  | .status => s
  | .doutLen => s
  | .caps0 => s
  | .caps1 => s

/-- `MemWrite(addr, n, v)` (R62 to R66, R68, R70, R95). -/
def State.memWrite (s : State) (addr n : Nat) (v : Word) : State :=
  match s.target addr n with
  | none => s
  | some (.word c r) => if (s.channel c).busy then s else s.writeWord c r v
  | some (.bytes c r) =>
    if (s.channel c).busy || !r.writable then s else { s with mem := s.mem.writeLE addr n v }

/-- The host's read as a step: its value joins the host's record, the block is unchanged (R67). -/
def State.hostRead (s : State) (addr n : Nat) : State := { s with replies := s.memRead addr n :: s.replies }

/-- The reset input (R280, R281): the block is as after reset, with the same channels and capacities and with `source`
in force; what the agents outside have brought stays. -/
def State.applyReset (s : State) (source : Source) : State :=
  { State.resetWith s.bufUnits s.nch source with
    active := s.active, answer := s.answer, agenda := s.agenda, replies := s.replies }

end Sys2Proof.Machine
end

