-- ==== Sys2Proof/Machine/Step.lean ====
section
/-! DEFINITION. One step: the agent whose event is next in the agenda takes its atomic step (spec 10_state.md R20,
20_memory.md R71; log entry 1). -/

namespace Sys2Proof.Machine

/-- Channel `c`'s engine is scheduled, the environment answering `a` to its draw (30_encoding.md R96): nothing where no
step is enabled, and otherwise the command in `CMDREG`. -/
def State.engineTurn (s : State) (c : Nat) (a : Answer) : Host.Outcome State Fault Refusal :=
  match s.pendingWord c with
  | none => .next s
  | some w =>
    match decode w with
    | .ok i => exec i (s.takeTurn c a)
    | .error _ => .next (illegalWord (s.takeTurn c a))

/-- One atomic step of the agent whose event is next; where nothing is scheduled, nothing happens (R23, R39). -/
def step (s : State) : Host.Outcome State Fault Refusal :=
  match s.agenda with
  | [] => .next s
  | .memRead addr n :: rest => .next ({ s with agenda := rest }.hostRead addr n)
  | .memWrite addr n v :: rest => .next ({ s with agenda := rest }.memWrite addr n v)
  | .engineTurn c a :: rest => { s with agenda := rest }.engineTurn c a
  | .reset source :: rest => .next ({ s with agenda := rest }.applyReset source)

/-- `s` with the command word `w` latched on channel 0 as its accepted `CMD` write leaves it (R95), and channel 0's
engine scheduled next, its draw delivered (log entry 2). -/
def State.withFetchWord (s : State) (nbits w : Nat) : State :=
  { s.updateChannel 0 (Channel.accept (BitVec.ofNat 32 (w % 2 ^ nbits))) with
    agenda := .engineTurn 0 .deliver :: s.agenda }

end Sys2Proof.Machine
end

