-- ==== Sys2Proof/Machine/Script.lean ====
section
/-! DEFINITION. Host scripts (spec 30_encoding.md R104, R105): the lines of the notation and the events they expand to.
A script says what the host does; the turns of the engine between the polls of a `WAIT` are another agent's, so that a
line that waits names the answers the random source gives in them (log entry 2). -/

namespace Sys2Proof.Machine

/-- A line of a host script, on the channel the script has selected. -/
inductive ScriptLine where
  /-- `WRW reg, v` (R104). -/
  | wrw (r : WordReg) (v : Word)
  /-- `WRB reg+o, hex` (R104). -/
  | wrb (r : ArrayReg) (o : Nat) (bytes : List Byte)
  /-- `RDW reg` (R104). -/
  | rdw (r : WordReg)
  /-- `RDB reg+o, n` (R104). -/
  | rdb (r : ArrayReg) (o n : Nat)
  /-- `CMD MNEMONIC[, arg]` (R104). -/
  | cmd (i : Instr)
  /-- `CMDW w` (R104). -/
  | cmdw (w : Word)
  /-- `WAIT` (R104), the engine taking one turn between two polls, with these answers. -/
  | wait (answers : List Answer)
  /-- `LDKEY hex` (R105). -/
  | ldkey (bytes : List Byte)
  /-- `LDDIN hex` (R105). -/
  | lddin (bytes : List Byte)
  /-- `LDXTAG hex` (R105). -/
  | ldxtag (bytes : List Byte)
  /-- `LDIVN hex` (R105). -/
  | ldivn (bytes : List Byte)
  /-- `RUN MNEMONIC[, arg]` (R105), with the answers of its `WAIT`. -/
  | run (i : Instr) (answers : List Answer)
  /-- `GETOUT` (R105), where `RDW DOUTLEN` gives `n`. -/
  | getout (n : Nat)
deriving DecidableEq, Repr

/-- The address of a control word of channel `c` (R60, R61). -/
def wordAddr (c : Nat) (r : WordReg) : Nat := c * Config.channelStride + r.offset

/-- `WRW` (R104). -/
def writeWordEvent (c : Nat) (r : WordReg) (v : Word) : Event := .memWrite (wordAddr c r) 4 v

/-- `WRB` (R104): one 1-byte write for each byte, in order, from address `a` on. -/
def writeBytesEvents (a : Nat) (bytes : List Byte) : List Event :=
  match bytes with
  | [] => []
  | b :: rest => .memWrite a 1 (b.setWidth 32) :: writeBytesEvents (a + 1) rest

/-- `RDB` (R104): `n` 1-byte reads, in order. -/
def readBytesEvents (a n : Nat) : List Event := (List.range n).map fun k => .memRead (a + k) 1

/-- `WAIT` (R104): polls of `STATUS`, the engine of the channel taking a turn between two of them. -/
def waitEvents (c : Nat) (answers : List Answer) : List Event :=
  .memRead (wordAddr c .status) 4 :: answers.flatMap fun a => [.engineTurn c a, .memRead (wordAddr c .status) 4]

/-- A byte array and its length register written (R105). -/
def loadEvents (c : Nat) (r : ArrayReg) (len : WordReg) (bytes : List Byte) : List Event :=
  writeBytesEvents (arrayBase c r) bytes ++ [writeWordEvent c len (BitVec.ofNat 32 bytes.length)]

/-- The events a line on channel `c` expands to (R104, R105). -/
def ScriptLine.events (c : Nat) (line : ScriptLine) : List Event :=
  match line with
  | .wrw r v => [writeWordEvent c r v]
  | .wrb r o bytes => writeBytesEvents (arrayBase c r + o) bytes
  | .rdw r => [.memRead (wordAddr c r) 4]
  | .rdb r o n => readBytesEvents (arrayBase c r + o) n
  | .cmd i => [writeWordEvent c .cmd (encode i)]
  | .cmdw w => [writeWordEvent c .cmd w]
  | .wait answers => waitEvents c answers
  | .ldkey bytes => loadEvents c .key .keyLen bytes
  | .lddin bytes => loadEvents c .din .dinLen bytes
  | .ldxtag bytes => loadEvents c .xtag .xtagLen bytes
  | .ldivn bytes => writeBytesEvents (arrayBase c .ivn) bytes
  | .run i answers => writeWordEvent c .cmd (encode i) :: waitEvents c answers
  | .getout n => .memRead (wordAddr c .doutLen) 4 :: readBytesEvents (arrayBase c .dout) n

/-- The events of a script, each line with the channel its `@c` selects (R104). -/
def scriptEvents (lines : List (Nat × ScriptLine)) : List Event := lines.flatMap fun l => l.2.events l.1

/-- A state in which the agents are about to take a script's steps. -/
def State.withScript (s : State) (lines : List (Nat × ScriptLine)) : State :=
  { s with agenda := s.agenda ++ scriptEvents lines }

end Sys2Proof.Machine
end

