-- ==== Sys2Proof/Safety.lean ====
section
/-! DEFINITION. The terms claims use: the invariant of the block, when an engine step is ready and how its draw is
answered, and what a step leaves as it was. -/

namespace Sys2Proof.Machine

/-- What holds of every channel's control words, `bufMax` being `BUF_MAX`. -/
structure Channel.Inv (bufMax : Nat) (ch : Channel) : Prop where
  /-- `KEYLEN` is within its capacity (R22, R68). -/
  keyLen_le : ch.keyLen.toNat ≤ Config.keyMax
  /-- `DINLEN` is within its capacity (R22, R68). -/
  dinLen_le : ch.dinLen.toNat ≤ bufMax
  /-- `DOUTLEN` is within its capacity (R22). -/
  doutLen_le : ch.doutLen.toNat ≤ bufMax
  /-- `XTAGLEN` is within its capacity (R22, R68). -/
  xtagLen_le : ch.xtagLen.toNat ≤ Config.xtagMax
  /-- While `BUSY = 1`: `DONE = 0`, `VOK = 0`, `ERR = 0` (R70; 93_implementation_defined.md U11). -/
  busy_clear : ch.busy = true → ch.done = false ∧ ch.vok = false ∧ ch.err = .none
  /-- `VOK = 1` only after a command that completed without an error (R24, R151). -/
  vok_clean : ch.vok = true → ch.done = true ∧ ch.err = .none

/-- The invariant of the block. -/
structure State.Inv (s : State) : Prop where
  /-- `NCH >= 1` (R8). -/
  nch_pos : 0 < s.nch
  /-- Every channel's control words are as they must be. -/
  channel_inv : ∀ ch ∈ s.channels, ch.Inv s.bufMax
  /-- The memory is in its canonical form. -/
  mem_wf : s.mem.wf
  /-- Nothing is stored outside the implemented bytes of the byte arrays (R61, R66 (a)). -/
  mem_mapped : ∀ e ∈ s.mem, ∃ c r, c < s.nch ∧ arrayBase c r ≤ e.1 ∧ e.1 < arrayBase c r + r.size s.bufMax
  /-- `DOUT[DOUTLEN..BUF_MAX)` is all zero (R29). -/
  dout_tail : ∀ c k, c < s.nch → (s.channel c).doutLen.toNat ≤ k → k < s.bufMax →
    s.mem.read (arrayBase c .dout + k) = 0#8
  /-- `rs_pos` never passes `RS_LIMIT` (R112). -/
  rsPos_le : ∀ l, s.source.limit = some l → s.rsPos ≤ l
  /-- Bytes were delivered only if a draw was attempted (R34). -/
  drawn_init : 0 < s.rsPos → s.rngInit = true
  /-- The latch is set only by a draw (R34, R249). -/
  fatal_init : s.fatal = true → s.rngInit = true

/-- Channel `c` is the one whose engine steps, it exists, and the fatal latch is clear (R96). -/
def State.Ready (s : State) (c : Nat) : Prop := s.active = c ∧ c < s.nch ∧ s.fatal = false

/-- A draw of `n` bytes does not pass `RS_LIMIT` (R112). -/
def State.WithinLimit (s : State) (n : Nat) : Prop := ∀ l, s.source.limit = some l → s.rsPos + n ≤ l

/-- A draw of `n` bytes is delivered (R111). -/
def State.Delivers (s : State) (n : Nat) : Prop := n = 0 ∨ (s.answer = .deliver ∧ s.WithinLimit n)

/-- A draw of `n` bytes is starved (R111). -/
def State.Starves (s : State) (n : Nat) : Prop := n ≠ 0 ∧ s.answer = .starved ∧ s.WithinLimit n

/-- A draw of `n` bytes fails (R112). -/
def State.Fails (s : State) (n : Nat) : Prop := n ≠ 0 ∧ ∃ l, s.source.limit = some l ∧ l < s.rsPos + n

/-- `RS(rs_pos), ..., RS(rs_pos + n - 1)` (R111). -/
def State.nextRandom (s : State) (n : Nat) : List Byte := (List.range n).map fun k => s.source.byteAt (s.rsPos + k)

/-- Between `s` and `t` nothing changed but channel `c`'s control words, the memory and the hidden state. -/
structure EngineFrame (s t : State) (c : Nat) : Prop where
  bufUnits : t.bufUnits = s.bufUnits
  source : t.source = s.source
  active : t.active = s.active
  answer : t.answer = s.answer
  agenda : t.agenda = s.agenda
  replies : t.replies = s.replies
  nch : t.nch = s.nch
  others : ∀ d, d ≠ c → t.channel d = s.channel d

/-- The hidden state (R34) is as it was. -/
structure HiddenKept (s t : State) : Prop where
  rsPos : t.rsPos = s.rsPos
  rngInit : t.rngInit = s.rngInit
  fatal : t.fatal = s.fatal

/-- `n` bytes were drawn (R111). -/
structure Drew (s t : State) (n : Nat) : Prop where
  rsPos : t.rsPos = s.rsPos + n
  rngInit : t.rngInit = true
  fatal : t.fatal = s.fatal

/-- A draw failed: the latch is set, nothing was consumed (R111, R249). -/
structure DrawFailed (s t : State) : Prop where
  rsPos : t.rsPos = s.rsPos
  rngInit : t.rngInit = true
  fatal : t.fatal = true

/-- Every byte outside the `n` bytes from `lo` on is as it was. -/
def BytesKept (s t : State) (lo n : Nat) : Prop := ∀ a, a < lo ∨ lo + n ≤ a → t.mem.read a = s.mem.read a

/-- Every byte outside channel `c`'s `DOUT` and `IVN` is as it was. -/
def BytesKeptButOutIvn (s t : State) (c : Nat) : Prop :=
  ∀ a, (a < arrayBase c .dout ∨ arrayBase c .dout + s.bufMax ≤ a) →
    (a < arrayBase c .ivn ∨ arrayBase c .ivn + 16 ≤ a) → t.mem.read a = s.mem.read a

/-- Every byte is as it was. -/
def AllBytesKept (s t : State) : Prop := ∀ a, t.mem.read a = s.mem.read a

/-- Channel `c`'s output is `out`, the rest of `DOUT` is zero (R29). -/
structure OutputIs (s t : State) (c : Nat) (out : List Byte) : Prop where
  output : t.output c = out
  tail : ∀ k, out.length ≤ k → k < s.bufMax → t.mem.read (arrayBase c .dout + k) = 0#8

/-- Channel `c`'s control words after an engine step that ended with code `e` and wrote no length (R96). -/
def Channel.ended (e : ErrCode) (ch : Channel) : Channel := { ch with err := e, busy := false, done := true }

/-- Channel `c`'s control words after an engine step that ended with code `e` and wrote `n` bytes of output. -/
def Channel.endedWith (e : ErrCode) (n : Nat) (ch : Channel) : Channel :=
  { ch with err := e, busy := false, done := true, doutLen := BitVec.ofNat 32 n }

/-- A generation command drew `n` bytes and put them into `DOUT`; nothing else changed (R117, R37). -/
structure Generated (s t : State) (c n : Nat) : Prop where
  frame : EngineFrame s t c
  hidden : Drew s t n
  control : t.channel c = (s.channel c).endedWith .none n
  output : OutputIs s t c (s.nextRandom n)
  bytes : BytesKept s t (arrayBase c .dout) s.bufMax

/-- A command of channel `c` ended with code `e` and no other effect (R245, R248, R249 (c)). -/
structure EndedOnly (s t : State) (c : Nat) (e : ErrCode) : Prop where
  frame : EngineFrame s t c
  hidden : HiddenKept s t
  control : t.channel c = (s.channel c).ended e
  bytes : AllBytesKept s t

/-- A decrypt of channel `c` ended with code `e`: its output is cleared and nothing else changed (R245, R246, R247). -/
structure DecryptFailed (s t : State) (c : Nat) (e : ErrCode) : Prop where
  frame : EngineFrame s t c
  hidden : HiddenKept s t
  control : t.channel c = (s.channel c).endedWith e 0
  output : OutputIs s t c []
  bytes : BytesKept s t (arrayBase c .dout) s.bufMax

/-- A drawing command of channel `c` whose draw failed: code 4, the latch set, its output cleared, nothing else changed
(R246, R249). -/
structure EntropyFailed (s t : State) (c : Nat) : Prop where
  frame : EngineFrame s t c
  hidden : DrawFailed s t
  control : t.channel c = (s.channel c).endedWith .entropyUnavailable 0
  output : OutputIs s t c []
  bytes : BytesKept s t (arrayBase c .dout) s.bufMax

/-- A decrypt of channel `c` ended normally with the plaintext `p`; nothing but `DOUT`, `DOUTLEN` and `STATUS` changed. -/
structure Decrypted (s t : State) (c : Nat) (p : List Byte) : Prop where
  frame : EngineFrame s t c
  hidden : HiddenKept s t
  control : t.channel c = (s.channel c).endedWith .none p.length
  output : OutputIs s t c p
  bytes : BytesKept s t (arrayBase c .dout) s.bufMax

/-- An encrypt of channel `c` drew `n` bytes, left `ivn` in `IVN` and ended with code `e` and the output `out`; nothing but
`DOUT`, `DOUTLEN`, `IVN`, `STATUS` and the hidden state changed (R37). -/
structure Encrypted (s t : State) (c n : Nat) (ivn : List Byte) (e : ErrCode) (out : List Byte) : Prop where
  frame : EngineFrame s t c
  hidden : Drew s t n
  control : t.channel c = (s.channel c).endedWith e out.length
  ivn : t.ivOperand c = ivn
  output : OutputIs s t c out
  bytes : BytesKeptButOutIvn s t c

/-- On channel `c` of `s`, command `i` passes its operand checks and then draws `n` bytes (R113 to R117, R200, R222). -/
def State.DrawsBytes (s : State) (c : Nat) (i : Instr) (n : Nat) : Prop :=
  match i with
  | .rngBytes m => n = m ∧ m ≤ s.bufMax
  | .genKey bits => bits ≠ 0 ∧ bits % 8 = 0 ∧ n = bits / 8 ∧ bits / 8 ≤ s.bufMax
  | .genIv => n = 16
  | .genNonce => n = 12
  | .cbcEnc => n = 16 ∧ 16 * ((s.channel c).dinLen.toNat / 16 + 1) ≤ s.bufMax
  | .gcmEnc => n = 12 ∧ (s.channel c).dinLen.toNat + 16 ≤ s.bufMax
  | .macCompute => False
  | .macVerify => False
  | .cbcDec => False
  | .gcmDec => False

/-- The bytes of channel `c` into which command `i` puts the bytes it drew (R117, R119, R200, R222); none for a command that
does not draw. -/
def State.drawnBytes (s : State) (c : Nat) (i : Instr) : List Byte :=
  match i with
  | .rngBytes _ => s.output c
  | .genKey _ => s.output c
  | .genIv => s.output c
  | .genNonce => s.output c
  | .cbcEnc => s.ivOperand c
  | .gcmEnc => s.nonceOperand c
  | .macCompute => []
  | .macVerify => []
  | .cbcDec => []
  | .gcmDec => []

/-- On channel `c` of `s`, an operand of command `i` is out of its range (60_exceptions.md R240, code 5). -/
def State.OutOfRange (s : State) (c : Nat) (i : Instr) : Prop :=
  match i with
  | .rngBytes n => s.bufMax < n
  | .genKey bits => bits = 0 ∨ bits % 8 ≠ 0 ∨ s.bufMax < bits / 8
  | .cbcEnc => s.bufMax < 16 * ((s.channel c).dinLen.toNat / 16 + 1)
  | .gcmEnc => s.bufMax < (s.channel c).dinLen.toNat + 16
  | .genIv => False
  | .genNonce => False
  | .macCompute => False
  | .macVerify => False
  | .cbcDec => False
  | .gcmDec => False

/-- The codes a command's own checks and draw can end it with (60_exceptions.md R241). -/
def possibleCodes (i : Instr) : List ErrCode :=
  match i with
  | .rngBytes _ => [.none, .entropyUnavailable, .illegalCommand]
  | .genKey _ => [.none, .entropyUnavailable, .illegalCommand]
  | .genIv => [.none, .entropyUnavailable]
  | .genNonce => [.none, .entropyUnavailable]
  | .macCompute => [.none]
  | .macVerify => [.none]
  | .cbcEnc => [.none, .invalidKeyLength, .entropyUnavailable, .illegalCommand]
  | .cbcDec => [.none, .invalidKeyLength, .paddingError]
  | .gcmEnc => [.none, .invalidKeyLength, .entropyUnavailable, .illegalCommand]
  | .gcmDec => [.none, .invalidKeyLength, .authenticationFailure]

/-- The reserved offsets of a channel's window, as the register map of R61 lists them, `bufMax` being `BUF_MAX`. -/
def ReservedOffset (bufMax off : Nat) : Prop :=
  (0x20 ≤ off ∧ off < 0x40) ∨ (0x60 ≤ off ∧ off < 0x80) ∨ (0xD0 ≤ off ∧ off < 0x100) ∨ (0x200 ≤ off ∧ off < 0x10000) ∨
    (0x10000 + bufMax ≤ off ∧ off < 0x20000) ∨ (0x20000 + bufMax ≤ off ∧ off < 0x30000) ∨
    (0x30000 ≤ off ∧ off < 0x40000)

/-- The offsets of the write-only registers `CMD` and `KEY` (R61, R66 (c)). -/
def WriteOnlyOffset (off : Nat) : Prop := off < 0x4 ∨ (0x100 ≤ off ∧ off < 0x200)

/-- The offsets of the read-only registers `STATUS`, `DOUTLEN`, `CAPS0`, `CAPS1`, `TAG` and `DOUT` (R61, R66 (d)). -/
def ReadOnlyOffset (bufMax off : Nat) : Prop :=
  (0x4 ≤ off ∧ off < 0x8) ∨ (0x10 ≤ off ∧ off < 0x14) ∨ (0x18 ≤ off ∧ off < 0x20) ∨ (0x40 ≤ off ∧ off < 0x60) ∨
    (0x20000 ≤ off ∧ off < 0x20000 + bufMax)

/-- The channel an event concerns; none for the reset input. -/
def Event.onChannel (e : Event) : Option Nat :=
  match e with
  | .memRead addr _ => some (addr / Config.channelStride)
  | .memWrite addr _ _ => some (addr / Config.channelStride)
  | .engineTurn c _ => some c
  | .reset _ => none

/-- `s` and `u` are the same but for the other channels and for bytes of channel `c` that no command may read: `KEY`, `DIN`
and `XTAG` from their lengths on (R26, R28, R32). -/
structure AgreeOn (s u : State) (c : Nat) : Prop where
  bufUnits : u.bufUnits = s.bufUnits
  source : u.source = s.source
  rsPos : u.rsPos = s.rsPos
  rngInit : u.rngInit = s.rngInit
  fatal : u.fatal = s.fatal
  active : u.active = s.active
  answer : u.answer = s.answer
  nch : u.nch = s.nch
  control : u.channel c = s.channel c
  key : u.keyOperand c = s.keyOperand c
  data : u.dataOperand c = s.dataOperand c
  expected : u.expectedTag c = s.expectedTag c
  ivn : u.ivOperand c = s.ivOperand c
  tag : u.tagBytes c = s.tagBytes c
  dout : ∀ k, k < s.bufMax → u.mem.read (arrayBase c .dout + k) = s.mem.read (arrayBase c .dout + k)

/-- The state in which channel `c`'s engine takes the turn at the head of the agenda: the rest of the agenda is left. -/
def State.turn (s : State) (c : Nat) (a : Answer) (rest : List Event) : State :=
  { s with agenda := rest, active := c, answer := a }

/-- The state in which the event at the head of the agenda has been taken off it. -/
def State.popped (s : State) (rest : List Event) : State := { s with agenda := rest }

/-- A step that the machine does not stop at. -/
def SafeStep (s : State) : Prop := ∃ t, step s = .next t

end Sys2Proof.Machine
end

