-- ==== Sys2Proof/Certificates/Slice0/Obligations.lean ====
section
/-! DEFINITION. The statements for the provers. OBLIGATIONS.json says what each rests on. -/

open Sys2Proof Sys2Proof.Machine

/-! ### The command word (30_encoding.md) -/

/-- The decoder reads exactly the words of well-formed commands, each as the command it encodes (R90 to R94). -/
def Obligations.DecodeInvertsEncode : Prop :=
  ∀ (w : Word) (i : Instr), decode w = .ok i ↔ i.wellFormed = true ∧ encode i = w

/-- The decoder reads a word as a command of a row iff the word matches the row by match and mask (R93, R94). -/
def Obligations.DecodeFollowsMatchAndMask : Prop :=
  ∀ w : Word,
    (∀ i, decode w = .ok i → ∃ r ∈ opcodeRows, r.mnemonic = i.mnemonic ∧ w &&& r.mask = r.pattern) ∧
    (∀ r ∈ opcodeRows, w &&& r.mask = r.pattern → ∃ i, decode w = .ok i ∧ i.mnemonic = r.mnemonic)

/-- A word is a command iff `Legal(w)` as R97 spells it. -/
def Obligations.DecodableIffLegal : Prop :=
  ∀ w : Word, (∃ i, decode w = .ok i) ↔
    w.extractLsb' 8 8 = 0#8 ∧
      (w.extractLsb' 0 8 = 0x01#8 ∨ w.extractLsb' 0 8 = 0x02#8 ∨
        ((w.extractLsb' 0 8 = 0x03#8 ∨ w.extractLsb' 0 8 = 0x04#8 ∨ w.extractLsb' 0 8 = 0x10#8 ∨
            w.extractLsb' 0 8 = 0x11#8 ∨ w.extractLsb' 0 8 = 0x20#8 ∨ w.extractLsb' 0 8 = 0x21#8 ∨
            w.extractLsb' 0 8 = 0x30#8 ∨ w.extractLsb' 0 8 = 0x31#8) ∧
          w.extractLsb' 16 16 = 0#16))

/-- Words written out from R90 and R93 decode to the commands they stand for. -/
def Obligations.WrittenOutWordsDecode : Prop :=
  decode 0x00050001#32 = .ok (.rngBytes 5) ∧ decode 0x01000002#32 = .ok (.genKey 256) ∧
  decode 0x00000003#32 = .ok .genIv ∧ decode 0x00000011#32 = .ok .macVerify ∧
  decode 0x00000021#32 = .ok .cbcDec ∧ decode 0x00000030#32 = .ok .gcmEnc ∧
  decode 0x00000103#32 = .error .reservedField ∧ decode 0x00010003#32 = .error .argNotZero ∧
  decode 0x00000005#32 = .error .unknownOpcode

/-! ### Steps (30_encoding.md R95, R96; 20_memory.md R71) -/

/-- When a busy channel's engine is scheduled and `CMDREG` decodes to `i`, the step is `exec i` on the state in which that
channel is active, the environment's answer is at hand and the event is off the agenda (R96). What a scheduled turn of a
channel that is not busy or does not exist does is the model's choice (log entry 21): the event is off the agenda and nothing
else happens. R96 says only that a channel with `BUSY = 0` has no engine step. -/
def Obligations.StepRunsDecodedCommand : Prop :=
  ∀ (s : State) (c : Nat) (a : Answer) (rest : List Event), s.agenda = .engineTurn c a :: rest →
    (∀ i : Instr, c < s.nch → (s.channel c).busy = true → decode (s.channel c).cmdReg = .ok i →
      step s = exec i (s.turn c a rest)) ∧
    (s.nch ≤ c ∨ (s.channel c).busy = false → step s = .next (s.popped rest))

/-- Every step answers a next state. For an engine step that is R96 and R245, for an access that is performed R67, R68 and R71,
for reset R280. For the rest it is the model's choice: that a refused access is a next state and not a refusal (R66 allows
both, log entry 9), that an empty agenda leaves the state (log entry 1), and that a turn of an idle or absent channel only
takes the event (log entry 21). -/
def Obligations.EveryStepAnswersNext : Prop := ∀ s : State, ∃ t, step s = .next t

/-- Every step keeps the invariant of the block. -/
def Obligations.StepKeepsInvariant : Prop := ∀ s t : State, s.Inv → step s = .next t → t.Inv

/-- The invariant holds after reset. -/
def Obligations.ResetMeetsInvariant : Prop := State.reset.Inv

/-- What the reset input leaves (10_state.md R39, 70_reset_and_hazards.md R280): every control word and byte zero, the
latch, `RNGINIT` and `rs_pos` clear, whatever was in progress; the source named by the event is in force (the model's
form of R281, log entry 6). -/
def Obligations.ResetClearsEverything : Prop :=
  ∀ (s : State) (source : Source) (rest : List Event), s.agenda = .reset source :: rest →
    ∃ t, step s = .next t ∧ t.nch = s.nch ∧ t.bufMax = s.bufMax ∧
      (∀ c, c < s.nch → (t.channel c).keyLen = 0#32 ∧ (t.channel c).dinLen = 0#32 ∧ (t.channel c).doutLen = 0#32 ∧
        (t.channel c).xtagLen = 0#32 ∧ (t.channel c).cmdReg = 0#32 ∧
        t.memRead (wordAddr c .status) 4 = 0#32) ∧
      (∀ a, t.mem.read a = 0#8) ∧ t.rsPos = 0 ∧ t.rngInit = false ∧ t.fatal = false ∧ t.source = source ∧
      t.agenda = rest ∧ t.replies = s.replies

/-- `State.reset` has every register of every channel at the value of R39, and no engine step is enabled in it. -/
def Obligations.ResetStateHoldsResetValues : Prop :=
  (∀ c, c < State.reset.nch → (State.reset.channel c).keyLen = 0#32 ∧ (State.reset.channel c).dinLen = 0#32 ∧
    (State.reset.channel c).doutLen = 0#32 ∧ (State.reset.channel c).xtagLen = 0#32 ∧
    (State.reset.channel c).cmdReg = 0#32 ∧ State.reset.memRead (wordAddr c .status) 4 = 0#32 ∧
    (State.reset.memRead (wordAddr c .caps0) 4).toNat = State.reset.bufMax ∧
    (State.reset.nch < 2 ^ 32 → (State.reset.memRead (wordAddr c .caps1) 4).toNat = State.reset.nch)) ∧
  (∀ a, State.reset.mem.read a = 0#8) ∧ State.reset.rsPos = 0 ∧ State.reset.rngInit = false ∧
  State.reset.fatal = false ∧ ∀ c, State.reset.pendingWord c = none

/-- The three arms of a `CMD` write (R95). -/
def Obligations.CmdWriteHasThreeArms : Prop :=
  ∀ (s : State) (c : Nat) (w : Word) (rest : List Event),
    s.agenda = .memWrite (wordAddr c .cmd) 4 w :: rest → c < s.nch →
    ((s.channel c).busy = true → step s = .next (s.popped rest)) ∧
    ((s.channel c).busy = false → ∃ t, step s = .next t ∧ EngineFrame (s.popped rest) t c ∧ HiddenKept s t ∧
      AllBytesKept s t ∧
      (s.fatal = true → t.channel c = { s.channel c with done := true, vok := false, err := .entropyUnavailable }) ∧
      (s.fatal = false → t.channel c =
        { s.channel c with cmdReg := w, busy := true, done := false, vok := false, err := .none }))

/-- While a channel is busy, only its engine's turn and reset change its control words or its bytes (R70, R78, R98). -/
def Obligations.BusyChannelIsUntouched : Prop :=
  ∀ (s t : State) (c : Nat) (e : Event) (rest : List Event), s.Inv → c < s.nch → (s.channel c).busy = true →
    s.agenda = e :: rest → (∀ a, e ≠ .engineTurn c a) → (∀ source, e ≠ .reset source) → step s = .next t →
    t.channel c = s.channel c ∧
      ∀ off, off < Config.channelStride →
        t.mem.read (c * Config.channelStride + off) = s.mem.read (c * Config.channelStride + off)

/-! ### Host accesses (20_memory.md) -/

/-- A misaligned access, or one of a width other than 1, 2 or 4, changes nothing and reads as 0 (R65). -/
def Obligations.MisalignedAccessRefused : Prop :=
  ∀ (s : State) (addr n : Nat) (v : Word) (rest : List Event),
    ((n ≠ 1 ∧ n ≠ 2 ∧ n ≠ 4) ∨ (n = 2 ∧ addr % 2 ≠ 0) ∨ (n = 4 ∧ addr % 4 ≠ 0)) →
    (s.agenda = .memWrite addr n v :: rest → step s = .next (s.popped rest)) ∧
    (s.agenda = .memRead addr n :: rest → step s = .next { s.popped rest with replies := 0#32 :: s.replies })

/-- The accesses that are refused whatever the channel holds (R66 (a), (b) for control words, (c), (d), (e)): an absent
channel, a part of a control word, and an access that touches a reserved offset change nothing and read as 0; `CMD` and
`KEY` read as 0; a write to `STATUS`, `DOUTLEN`, `CAPS0`, `CAPS1`, `TAG` or `DOUT` changes nothing. -/
def Obligations.RefusedAccessHasNoEffect : Prop :=
  ∀ (s : State) (addr n : Nat) (v : Word),
    ((s.nch * Config.channelStride ≤ addr ∨ (n ≠ 4 ∧ addr % Config.channelStride < 0x20) ∨
        ∃ k, k < n ∧ ReservedOffset s.bufMax ((addr + k) % Config.channelStride)) →
      s.memWrite addr n v = s ∧ s.memRead addr n = 0#32) ∧
    (WriteOnlyOffset (addr % Config.channelStride) → s.memRead addr n = 0#32) ∧
    (ReadOnlyOffset s.bufMax (addr % Config.channelStride) → s.memWrite addr n v = s)

/-- A read changes nothing of the block: only the host's record grows (R67, R71). -/
def Obligations.ReadHasNoSideEffect : Prop :=
  ∀ (s : State) (addr n : Nat) (rest : List Event), s.agenda = .memRead addr n :: rest →
    step s = .next { s.popped rest with replies := s.memRead addr n :: s.replies }

/-- Access to a busy channel: every write is lost, every read but of `STATUS`, `CAPS0`, `CAPS1` gives 0 (R70). -/
def Obligations.BusyChannelRefusesAccess : Prop :=
  ∀ (s : State) (addr n : Nat) (v : Word), addr / Config.channelStride < s.nch →
    (s.channel (addr / Config.channelStride)).busy = true →
    s.memWrite addr n v = s ∧
    (¬ (n = 4 ∧ (addr % Config.channelStride = 0x4 ∨ addr % Config.channelStride = 0x18 ∨
      addr % Config.channelStride = 0x1C)) → s.memRead addr n = 0#32)

/-- The bus value of a read of a byte array: little-endian lanes (R63). -/
def Obligations.ByteArrayReadIsLittleEndian : Prop :=
  ∀ (s : State) (c : Nat) (r : ArrayReg) (k n : Nat), c < s.nch → (s.channel c).busy = false → r ≠ .key →
    (n = 1 ∨ n = 2 ∨ n = 4) → k % n = 0 → k + n ≤ r.size s.bufMax →
    (s.memRead (arrayBase c r + k) n).toNat =
      ((List.range n).map fun j => (s.mem.read (arrayBase c r + k + j)).toNat * 2 ^ (8 * j)).sum

/-- A write to `KEY`, `IVN`, `XTAG` or `DIN` of an idle channel stores its bytes in little-endian lanes, and what it stores to
the last three, the next read of the same bytes returns; no other byte and no control word changes (R63, R68). -/
def Obligations.WriteThenReadReturnsValue : Prop :=
  ∀ (s : State) (c : Nat) (r : ArrayReg) (k n : Nat) (v : Word) (rest : List Event), c < s.nch →
    (s.channel c).busy = false → (n = 1 ∨ n = 2 ∨ n = 4) → k % n = 0 → k + n ≤ r.size s.bufMax →
    ((r = .key ∨ r = .ivn ∨ r = .xtag ∨ r = .din) → s.agenda = .memWrite (arrayBase c r + k) n v :: rest →
      ∃ t, step s = .next t ∧
        (∀ j, j < n → t.mem.read (arrayBase c r + k + j) = (v >>> (8 * j)).setWidth 8) ∧
        t.agenda = rest ∧ t.replies = s.replies ∧ t.channels = s.channels ∧ HiddenKept s t ∧
        BytesKept s t (arrayBase c r + k) n) ∧
    ((r = .ivn ∨ r = .xtag ∨ r = .din) →
      s.agenda = .memWrite (arrayBase c r + k) n v :: .memRead (arrayBase c r + k) n :: rest →
      ∃ t u, step s = .next t ∧ step t = .next u ∧
        u.replies = BitVec.ofNat 32 (v.toNat % 2 ^ (8 * n)) :: s.replies ∧ u.agenda = rest ∧
        u.channels = s.channels ∧ HiddenKept s u ∧ BytesKept s u (arrayBase c r + k) n)

/-- `KEY` is write-only (R22, R66 (c)): what a host reads does not depend on any byte of any `KEY`. -/
def Obligations.HostNeverReadsKeys : Prop :=
  ∀ (s : State) (m : Memory) (addr n : Nat),
    (∀ a, (∀ c, ¬ (arrayBase c .key ≤ a ∧ a < arrayBase c .key + Config.keyMax)) → m.read a = s.mem.read a) →
    State.memRead { s with mem := m } addr n = s.memRead addr n

/-- A read of a length register of an idle channel returns its value (R67), and a write takes effect iff the value is within
the capacity (R68). -/
def Obligations.LengthRegistersReadAndWrite : Prop :=
  ∀ (s : State) (c : Nat) (v : Word), c < s.nch → (s.channel c).busy = false →
    (s.memRead (wordAddr c .keyLen) 4 = (s.channel c).keyLen ∧ s.memRead (wordAddr c .dinLen) 4 = (s.channel c).dinLen ∧
      s.memRead (wordAddr c .doutLen) 4 = (s.channel c).doutLen ∧
      s.memRead (wordAddr c .xtagLen) 4 = (s.channel c).xtagLen) ∧
    ((v.toNat ≤ 256 → s.memWrite (wordAddr c .keyLen) 4 v = s.updateChannel c fun ch => { ch with keyLen := v }) ∧
      (256 < v.toNat → s.memWrite (wordAddr c .keyLen) 4 v = s)) ∧
    ((v.toNat ≤ s.bufMax → s.memWrite (wordAddr c .dinLen) 4 v = s.updateChannel c fun ch => { ch with dinLen := v }) ∧
      (s.bufMax < v.toNat → s.memWrite (wordAddr c .dinLen) 4 v = s)) ∧
    ((v.toNat ≤ 64 → s.memWrite (wordAddr c .xtagLen) 4 v = s.updateChannel c fun ch => { ch with xtagLen := v }) ∧
      (64 < v.toNat → s.memWrite (wordAddr c .xtagLen) 4 v = s))

/-- The fields of `STATUS` as a read returns them, busy or not, and its reserved bits (R24); the six codes of `ERR` (R240). -/
def Obligations.StatusReadHasFields : Prop :=
  (∀ (s : State) (c : Nat), c < s.nch →
    (s.memRead (wordAddr c .status) 4).getLsbD 0 = (s.channel c).busy ∧
    (s.memRead (wordAddr c .status) 4).getLsbD 1 = (s.channel c).done ∧
    (s.memRead (wordAddr c .status) 4).getLsbD 2 = (s.channel c).vok ∧
    (s.memRead (wordAddr c .status) 4).getLsbD 3 = s.fatal ∧
    (s.memRead (wordAddr c .status) 4).extractLsb' 4 4 = 0#4 ∧
    (s.memRead (wordAddr c .status) 4).extractLsb' 8 4 = (s.channel c).err.code ∧
    (s.memRead (wordAddr c .status) 4).extractLsb' 12 20 = 0#20) ∧
  ErrCode.none.code = 0#4 ∧ ErrCode.invalidKeyLength.code = 1#4 ∧ ErrCode.paddingError.code = 2#4 ∧
  ErrCode.authenticationFailure.code = 3#4 ∧ ErrCode.entropyUnavailable.code = 4#4 ∧ ErrCode.illegalCommand.code = 5#4

/-- `CAPS0` reads as `BUF_MAX` and `CAPS1` as `NCH` (an `NCH` that a word can hold; log entry 11 for others), busy or not; no
write and no step changes them (R33). -/
def Obligations.CapsAreConstant : Prop :=
  (∀ (s : State) (c : Nat), c < s.nch →
    (s.memRead (wordAddr c .caps0) 4).toNat = s.bufMax ∧
    (s.nch < 2 ^ 32 → (s.memRead (wordAddr c .caps1) 4).toNat = s.nch) ∧
    ∀ v : Word, s.memWrite (wordAddr c .caps0) 4 v = s ∧ s.memWrite (wordAddr c .caps1) 4 v = s) ∧
  (∀ s t : State, step s = .next t → t.bufMax = s.bufMax ∧ t.nch = s.nch)

/-! ### The random source (40_random_keymaterial.md) -/

/-- RNG_BYTES puts the next `n` bytes of the stream into `DOUT` (R113, R117). -/
def Obligations.RngBytesDeliversNextBytes : Prop :=
  ∀ (s : State) (c n : Nat), s.Ready c → n ≤ s.bufMax → s.Delivers n →
    ∃ t, exec (.rngBytes n) s = .next t ∧ Generated s t c n

/-- GEN_KEY puts the next `bits / 8` bytes of the stream into `DOUT` (R114, R117). -/
def Obligations.GenKeyDeliversKey : Prop :=
  ∀ (s : State) (c bits : Nat), s.Ready c → bits ≠ 0 → bits % 8 = 0 → bits / 8 ≤ s.bufMax → s.Delivers (bits / 8) →
    ∃ t, exec (.genKey bits) s = .next t ∧ Generated s t c (bits / 8)

/-- GEN_IV puts 16 and GEN_NONCE 12 bytes of the stream into `DOUT` (R115, R116). -/
def Obligations.GenIvAndNonceDeliver : Prop :=
  ∀ (s : State) (c : Nat), s.Ready c →
    (s.Delivers 16 → ∃ t, exec .genIv s = .next t ∧ Generated s t c 16) ∧
    (s.Delivers 12 → ∃ t, exec .genNonce s = .next t ∧ Generated s t c 12)

/-- Any two busy channels whose commands draw, stepped one after the other with both draws delivered, get consecutive,
disjoint slices of the stream, each in the register its command puts drawn bytes into (R111, R119). -/
def Obligations.ConcurrentDrawsAreDisjoint : Prop :=
  ∀ (s : State) (c d n m : Nat) (i j : Instr) (rest : List Event), c ≠ d → c < s.nch → d < s.nch → s.fatal = false →
    (s.channel c).busy = true → decode (s.channel c).cmdReg = .ok i → s.DrawsBytes c i n →
    (s.channel d).busy = true → decode (s.channel d).cmdReg = .ok j → s.DrawsBytes d j m → s.WithinLimit (n + m) →
    s.agenda = .engineTurn c .deliver :: .engineTurn d .deliver :: rest →
    ∃ t u, step s = .next t ∧ step t = .next u ∧ u.rsPos = s.rsPos + n + m ∧ u.agenda = rest ∧
      u.drawnBytes c i = (List.range n).map (fun k => s.source.byteAt (s.rsPos + k)) ∧
      u.drawnBytes d j = (List.range m).map (fun k => s.source.byteAt (s.rsPos + n + k))

/-- A starved draw holds the command: no state changes (R98, R111). -/
def Obligations.StarvedDrawHoldsCommand : Prop :=
  ∀ (s : State) (c n : Nat) (i : Instr), s.Ready c → s.DrawsBytes c i n → s.Starves n → exec i s = .next s

/-- A failed draw sets the latch, consumes nothing, clears the output and ends the command with code 4 (R112, R246, R249). -/
def Obligations.FailedDrawSetsFatalLatch : Prop :=
  ∀ (s : State) (c n : Nat) (i : Instr), s.Ready c → s.DrawsBytes c i n → s.Fails n →
    ∃ t, exec i s = .next t ∧ EntropyFailed s t c

/-- Between resets the hidden state changes only by a draw of a scheduled command (R34, R111). -/
def Obligations.HiddenStateChangesOnlyByDraw : Prop :=
  ∀ s t : State, step s = .next t → (∀ source rest, s.agenda ≠ .reset source :: rest) →
    HiddenKept s t ∨ ∃ c a rest i n, s.agenda = .engineTurn c a :: rest ∧ (s.channel c).busy = true ∧
      decode (s.channel c).cmdReg = .ok i ∧ s.DrawsBytes c i n ∧ (Drew s t n ∨ DrawFailed s t)

/-! ### Errors (60_exceptions.md) -/

/-- The latch is left only by reset, and reset leaves it (R251). -/
def Obligations.FatalLatchLeftOnlyByReset : Prop :=
  ∀ s t : State, step s = .next t → s.fatal = true →
    (t.fatal = false ↔ ∃ source rest, s.agenda = .reset source :: rest)

/-- Under the fatal latch every command ends with code 4 and no other effect (R249 (c)). -/
def Obligations.FatalLatchRefusesEveryCommand : Prop :=
  ∀ (s : State) (c : Nat) (i : Instr), s.active = c → c < s.nch → s.fatal = true →
    ∃ t, exec i s = .next t ∧ EndedOnly s t c .entropyUnavailable

/-- An operand out of range ends the command with code 5 before any draw (R113, R114, R200, R222, R252). -/
def Obligations.OperandOutOfRangeIsIllegal : Prop :=
  ∀ (s : State) (c : Nat) (i : Instr), s.Ready c → s.OutOfRange c i →
    ∃ t, exec i s = .next t ∧ EndedOnly s t c .illegalCommand

/-- A word that is no command completes with code 5 (R94, R96), and with code 4 where the fatal latch is set, the latch being
tested first (R249 (c), R252); either way with no other effect. -/
def Obligations.IllegalWordCompletes : Prop :=
  ∀ (s : State) (c : Nat) (a : Answer) (rest : List Event) (e : Reject),
    s.agenda = .engineTurn c a :: rest → c < s.nch → (s.channel c).busy = true →
    decode (s.channel c).cmdReg = .error e →
    ∃ t, step s = .next t ∧
      (s.fatal = false → EndedOnly (s.turn c a rest) t c .illegalCommand) ∧
      (s.fatal = true → EndedOnly (s.turn c a rest) t c .entropyUnavailable)

/-- However an engine step comes to end with code 5, it has no effect but on `STATUS` (R248). -/
def Obligations.IllegalCommandChangesOnlyStatus : Prop :=
  ∀ (s t : State) (c : Nat) (a : Answer) (rest : List Event),
    s.agenda = .engineTurn c a :: rest → c < s.nch → (s.channel c).busy = true →
    (s.channel c).err ≠ .illegalCommand → step s = .next t → (t.channel c).err = .illegalCommand →
    EndedOnly (s.turn c a rest) t c .illegalCommand

/-- The codes a command can end with (R241). -/
def Obligations.CommandEndsWithPossibleCode : Prop :=
  ∀ (s t : State) (c : Nat) (i : Instr), s.Ready c → exec i s = .next t →
    t = s ∨ ((t.channel c).busy = false ∧ (t.channel c).done = true ∧ (t.channel c).err ∈ possibleCodes i)

/-- A wrong key length (R171, R247, R252): a decrypt ends with code 1 whatever its input; an encrypt has drawn, and its IV
or nonce stands in `IVN`. -/
def Obligations.WrongKeyLengthEndsWithCodeOne : Prop :=
  ∀ (s : State) (c : Nat), s.Ready c →
    ((s.channel c).keyLen.toNat ≠ 16 ∧ (s.channel c).keyLen.toNat ≠ 24 ∧ (s.channel c).keyLen.toNat ≠ 32) →
    (∃ t, exec .cbcDec s = .next t ∧ DecryptFailed s t c .invalidKeyLength) ∧
    (∃ t, exec .gcmDec s = .next t ∧ DecryptFailed s t c .invalidKeyLength) ∧
    (16 * ((s.channel c).dinLen.toNat / 16 + 1) ≤ s.bufMax → s.Delivers 16 →
      ∃ t, exec .cbcEnc s = .next t ∧ Encrypted s t c 16 (s.nextRandom 16) .invalidKeyLength []) ∧
    ((s.channel c).dinLen.toNat + 16 ≤ s.bufMax → s.Delivers 12 →
      ∃ t, exec .gcmEnc s = .next t ∧ Encrypted s t c 12 (s.nextRandom 12 ++ zeros 4) .invalidKeyLength [])

/-! ### Who writes what (10_state.md) -/

/-- The engine never writes an operand register of any channel (R38). -/
def Obligations.EngineNeverWritesOperands : Prop :=
  ∀ (s t : State) (i : Instr), s.Inv → exec i s = .next t →
    ∀ d, (t.channel d).keyLen = (s.channel d).keyLen ∧ (t.channel d).dinLen = (s.channel d).dinLen ∧
      (t.channel d).xtagLen = (s.channel d).xtagLen ∧
      ∀ r k, (r = .key ∨ r = .din ∨ r = .xtag) → k < r.size s.bufMax →
        t.mem.read (arrayBase d r + k) = s.mem.read (arrayBase d r + k)

/-- A step that concerns one channel leaves every register of every other channel as it was (R21). -/
def Obligations.ChannelsAreIsolated : Prop :=
  ∀ (s t : State) (c d : Nat) (e : Event) (rest : List Event), s.Inv → s.agenda = e :: rest →
    e.onChannel = some c → step s = .next t → d ≠ c →
    t.channel d = s.channel d ∧
      ∀ off, off < Config.channelStride →
        t.mem.read (d * Config.channelStride + off) = s.mem.read (d * Config.channelStride + off)

/-- What a command does to its channel depends on nothing but its operands, the channel's registers and the random
source: not on other channels, and not on bytes of `KEY`, `DIN`, `XTAG` from their lengths on (R26, R28, R32, R37). -/
def Obligations.CommandsIgnoreUnusedBytes : Prop :=
  ∀ (s t u : State) (c : Nat) (i : Instr), s.Inv → u.Inv → AgreeOn s u c → s.active = c → exec i s = .next t →
    ∃ v, exec i u = .next v ∧ AgreeOn t v c

/-- After an engine step `VOK = 1` only if the command was MAC_VERIFY (R24). -/
def Obligations.OnlyMacVerifySetsVok : Prop :=
  ∀ (s t : State) (c : Nat) (a : Answer) (rest : List Event), s.Inv → s.agenda = .engineTurn c a :: rest →
    (s.channel c).busy = true → step s = .next t → (t.channel c).vok = true →
    decode (s.channel c).cmdReg = .ok .macVerify

/-! ### The MAC Engine (41_mac.md) -/

/-- The padded message (R131): the least number of zeros that leaves room for the length, and whole blocks, as many as
R141 (c) counts. R131 gives the padding for messages below 2^61 bytes; that a longer one's length field is the bit length
modulo 2^64 is the model's choice (log entry 25). -/
def Obligations.ShaPaddingFillsBlocks : Prop :=
  ∀ m : List Byte, ∃ z, shaPad m = m ++ [0x80#8] ++ zeros z ++ beBytes 8 (8 * m.length) ∧
    (m.length + 1 + z) % 64 = 56 ∧ (∀ y, y < z → (m.length + 1 + y) % 64 ≠ 56) ∧
    (shaPad m).length = 64 * ((m.length + 9 + 63) / 64)

/-- Keys that HMAC cannot tell apart (R141 (a)). For a key or data of so many bytes that 2^61 or more are hashed, which R131
does not define, this is the model's choice (log entry 25). -/
def Obligations.HmacKeyNormalisation : Prop :=
  (∀ (key data : List Byte) (k : Nat), key.length + k ≤ 64 →
    hmacSha256 (key ++ zeros k) data = hmacSha256 key data) ∧
  (∀ key data : List Byte, 64 < key.length → hmacSha256 key data = hmacSha256 (sha256 key) data)

/-- The constant-time comparison decides equality (R145). -/
def Obligations.CtEqualDecidesEquality : Prop :=
  ∀ (computed expected : List Byte) (n : Nat), computed.length = n →
    (ctEqual computed expected n = true ↔ expected.length = n ∧ ∀ i, i < n → computed.getD i 0#8 = expected.getD i 0#8)

/-- MAC_COMPUTE writes the HMAC of its operands to `TAG` and nothing else (R150). -/
def Obligations.MacComputeWritesTag : Prop :=
  ∀ (s : State) (c : Nat), s.Ready c →
    ∃ t, exec .macCompute s = .next t ∧ EngineFrame s t c ∧ HiddenKept s t ∧
      t.channel c = (s.channel c).ended .none ∧ t.tagBytes c = hmacSha256 (s.keyOperand c) (s.dataOperand c) ∧
      BytesKept s t (arrayBase c .tag) 32

/-- MAC_VERIFY writes to `VOK` whether the expected tag is the HMAC of its operands, and nothing else (R151). -/
def Obligations.MacVerifyWritesVok : Prop :=
  ∀ (s : State) (c : Nat), s.Ready c →
    ∃ t, exec .macVerify s = .next t ∧ EngineFrame s t c ∧ HiddenKept s t ∧ AllBytesKept s t ∧
      t.channel c = { (s.channel c).ended .none with vok := (t.channel c).vok } ∧
      ((t.channel c).vok = true ↔ s.expectedTag c = hmacSha256 (s.keyOperand c) (s.dataOperand c))

/-- MAC_COMPUTE, then MAC_VERIFY on the same key and data: the tag computed is accepted, and every other expected tag is
not (R152). -/
def Obligations.VerifyAcceptsExactlyComputedTag : Prop :=
  ∀ (s : State) (c : Nat), s.Ready c →
    ∃ t, exec .macCompute s = .next t ∧
      ∀ (u : State) (d : Nat), u.Ready d → u.keyOperand d = s.keyOperand c → u.dataOperand d = s.dataOperand c →
        ∃ v, exec .macVerify u = .next v ∧ (v.channel d).err = .none ∧
          ((v.channel d).vok = true ↔ u.expectedTag d = t.tagBytes c)

/-! ### AES (42_aes_core.md) -/

/-- `SBOX` is what its definition says, and `INV_SBOX` its inverse (R162, R163). -/
def Obligations.SboxTablesAgreeWithDefinition : Prop :=
  ∀ a : Byte, invSbox (sbox a) = a ∧ sbox (invSbox a) = a ∧
    ∃ b : Byte, (a = 0#8 → b = 0#8) ∧ (a ≠ 0#8 → gfMul a b = 1#8) ∧
      sbox a = b ^^^ b.rotateLeft 1 ^^^ b.rotateLeft 2 ^^^ b.rotateLeft 3 ^^^ b.rotateLeft 4 ^^^ 0x63#8

/-- Under every key of a legal length, `AesDecryptBlock` and `AesEncryptBlock` are inverse permutations of the 16-byte
blocks (R172). -/
def Obligations.AesBlockCipherIsInvertible : Prop :=
  ∀ key b : List Byte, (key.length = 16 ∨ key.length = 24 ∨ key.length = 32) → b.length = 16 →
    (aesEncryptBlock key b).length = 16 ∧ (aesDecryptBlock key b).length = 16 ∧
    aesDecryptBlock key (aesEncryptBlock key b) = b ∧ aesEncryptBlock key (aesDecryptBlock key b) = b

/-! ### CBC (43_cbc.md) -/

/-- Padding and its removal (R190, R191). -/
def Obligations.UnpadUndoesPad : Prop :=
  (∀ p : List Byte, cbcUnpad (cbcPad p) = some p) ∧
  (∀ m p : List Byte, 0 < m.length → m.length % 16 = 0 →
    (cbcUnpad m = some p ↔ ∃ n, 1 ≤ n ∧ n ≤ 16 ∧ m = p ++ List.replicate n (BitVec.ofNat 8 n)))

/-- CBC decryption undoes CBC encryption on whole blocks (R192, R193). -/
def Obligations.CbcDecryptUndoesEncrypt : Prop :=
  ∀ key iv m : List Byte, (key.length = 16 ∨ key.length = 24 ∨ key.length = 32) → iv.length = 16 →
    m.length % 16 = 0 →
    (cbcEncryptRaw key iv m).length = m.length ∧ cbcDecryptRaw key iv (cbcEncryptRaw key iv m) = m

/-- CBC_ENC where it completes normally (R200). -/
def Obligations.CbcEncWritesEnvelope : Prop :=
  ∀ (s : State) (c : Nat), s.Ready c → 16 * ((s.channel c).dinLen.toNat / 16 + 1) ≤ s.bufMax →
    s.Delivers 16 →
    ((s.channel c).keyLen.toNat = 16 ∨ (s.channel c).keyLen.toNat = 24 ∨ (s.channel c).keyLen.toNat = 32) →
    ∃ t, exec .cbcEnc s = .next t ∧
      Encrypted s t c 16 (s.nextRandom 16) .none
        (cbcEncryptRaw (s.keyOperand c) (s.nextRandom 16) (cbcPad (s.dataOperand c)))

/-- CBC_DEC where it completes normally, and where it ends with code 2 (R201). -/
def Obligations.CbcDecWritesPlaintext : Prop :=
  ∀ (s : State) (c : Nat), s.Inv → s.Ready c →
    ((s.channel c).keyLen.toNat = 16 ∨ (s.channel c).keyLen.toNat = 24 ∨ (s.channel c).keyLen.toNat = 32) →
    (∀ p, (s.channel c).dinLen.toNat ≠ 0 → (s.channel c).dinLen.toNat % 16 = 0 →
      cbcUnpad (cbcDecryptRaw (s.keyOperand c) (s.ivOperand c) (s.dataOperand c)) = some p →
      ∃ t, exec .cbcDec s = .next t ∧ Decrypted s t c p) ∧
    ((s.channel c).dinLen.toNat = 0 ∨ (s.channel c).dinLen.toNat % 16 ≠ 0 ∨
      cbcUnpad (cbcDecryptRaw (s.keyOperand c) (s.ivOperand c) (s.dataOperand c)) = none →
      ∃ t, exec .cbcDec s = .next t ∧ DecryptFailed s t c .paddingError)

/-- CBC_ENC, then CBC_DEC of its envelope under the same key, gives the message back (R204). -/
def Obligations.CbcRoundTrip : Prop :=
  ∀ (s : State) (c : Nat), s.Ready c → 16 * ((s.channel c).dinLen.toNat / 16 + 1) ≤ s.bufMax →
    ((s.channel c).keyLen.toNat = 16 ∨ (s.channel c).keyLen.toNat = 24 ∨ (s.channel c).keyLen.toNat = 32) →
    s.Delivers 16 →
    ∃ t, exec .cbcEnc s = .next t ∧
      ∀ (u : State) (d : Nat), u.Ready d → u.keyOperand d = s.keyOperand c → u.presentedCbc d = t.cbcEnvelope c →
        ∃ v, exec .cbcDec u = .next v ∧ (v.channel d).err = .none ∧ v.output d = s.dataOperand c

/-! ### GCM (44_gcm.md) -/

/-- The field multiplication distributes, commutes and has the identity `2^127` (R211). -/
def Obligations.Gf128MulIsBilinear : Prop :=
  ∀ x y z : BitVec 128,
    gf128Mul (x ^^^ y) z = gf128Mul x z ^^^ gf128Mul y z ∧ gf128Mul x (y ^^^ z) = gf128Mul x y ^^^ gf128Mul x z ∧
    gf128Mul x y = gf128Mul y x ∧ gf128Mul (1#128 <<< 127) y = y

/-- The counter mode is its own inverse and keeps the length (R214). -/
def Obligations.GctrIsInvolution : Prop :=
  ∀ key icb x : List Byte, (key.length = 16 ∨ key.length = 24 ∨ key.length = 32) → icb.length = 16 →
    (gctr key icb x).length = x.length ∧ gctr key icb (gctr key icb x) = x

/-- GCM_ENC where it completes normally (R222). -/
def Obligations.GcmEncWritesEnvelope : Prop :=
  ∀ (s : State) (c : Nat), s.Ready c → (s.channel c).dinLen.toNat + 16 ≤ s.bufMax → s.Delivers 12 →
    ((s.channel c).keyLen.toNat = 16 ∨ (s.channel c).keyLen.toNat = 24 ∨ (s.channel c).keyLen.toNat = 32) →
    ∃ t, exec .gcmEnc s = .next t ∧
      Encrypted s t c 12 (s.nextRandom 12 ++ zeros 4) .none
        (gcmCrypt (s.keyOperand c) (s.nextRandom 12) (s.dataOperand c) ++
          gcmTag (s.keyOperand c) (s.nextRandom 12)
            (gcmCrypt (s.keyOperand c) (s.nextRandom 12) (s.dataOperand c)))

/-- GCM_DEC where the tag matches (R223). -/
def Obligations.GcmDecWritesPlaintext : Prop :=
  ∀ (s : State) (c : Nat) (ct : List Byte), s.Inv → s.Ready c →
    ((s.channel c).keyLen.toNat = 16 ∨ (s.channel c).keyLen.toNat = 24 ∨ (s.channel c).keyLen.toNat = 32) →
    s.dataOperand c = ct ++ gcmTag (s.keyOperand c) (s.nonceOperand c) ct →
    ∃ t, exec .gcmDec s = .next t ∧ Decrypted s t c (gcmCrypt (s.keyOperand c) (s.nonceOperand c) ct)

/-- GCM_DEC of an input too short for a tag, and of one whose tag is any other than the ciphertext's: code 3, and no byte of
plaintext (R223, R225 (a)). -/
def Obligations.GcmDecRejectsWrongTag : Prop :=
  ∀ (s : State) (c : Nat), s.Ready c →
    ((s.channel c).keyLen.toNat = 16 ∨ (s.channel c).keyLen.toNat = 24 ∨ (s.channel c).keyLen.toNat = 32) →
    ((s.channel c).dinLen.toNat < 16 → ∃ t, exec .gcmDec s = .next t ∧ DecryptFailed s t c .authenticationFailure) ∧
    (∀ ct tag, s.dataOperand c = ct ++ tag → tag.length = 16 →
      tag ≠ gcmTag (s.keyOperand c) (s.nonceOperand c) ct →
      ∃ t, exec .gcmDec s = .next t ∧ DecryptFailed s t c .authenticationFailure)

/-- After a GCM_DEC engine step not refused by the latch, either the tag matched and `DOUT` is the plaintext, or there is an
error and `DOUT` is empty and zero (R224). -/
def Obligations.GcmDecIsAtomic : Prop :=
  ∀ (s t : State) (c : Nat), s.Inv → s.Ready c → exec .gcmDec s = .next t →
    ((t.channel c).err = .none ∧ ∃ ct, s.dataOperand c = ct ++ gcmTag (s.keyOperand c) (s.nonceOperand c) ct ∧
      t.output c = gcmCrypt (s.keyOperand c) (s.nonceOperand c) ct) ∨
    ((t.channel c).err ≠ .none ∧ (t.channel c).doutLen = 0#32 ∧
      ∀ k, k < s.bufMax → t.mem.read (arrayBase c .dout + k) = 0#8)

/-- GCM_ENC, then GCM_DEC of its envelope under the same key, gives the message back (R226). -/
def Obligations.GcmRoundTrip : Prop :=
  ∀ (s : State) (c : Nat), s.Ready c → (s.channel c).dinLen.toNat + 16 ≤ s.bufMax →
    ((s.channel c).keyLen.toNat = 16 ∨ (s.channel c).keyLen.toNat = 24 ∨ (s.channel c).keyLen.toNat = 32) →
    s.Delivers 12 →
    ∃ t, exec .gcmEnc s = .next t ∧
      ∀ (u : State) (d : Nat), u.Ready d → u.keyOperand d = s.keyOperand c → u.presentedGcm d = t.gcmEnvelope c →
        ∃ v, exec .gcmDec u = .next v ∧ (v.channel d).err = .none ∧ v.output d = s.dataOperand c
end

