-- ==== Sys2Proof/Laws/Memory.lean ====
section
/-! SUPPORT. The laws of the memory: what a read gives after each operation, and that every operation keeps the
canonical form. -/

namespace Sys2Proof.Machine

@[simp] theorem Memory.read_nil (a : Nat) : Memory.read [] a = unlistedByte := rfl

theorem Memory.read_filter_of_keep (m : Memory) (p : Nat → Bool) (a : Nat) :
    Memory.read (m.filter fun c => p c.1) a = if p a then m.read a else unlistedByte := by
  induction m with
  | nil => cases p a <;> rfl
  | cons c rest ih =>
    by_cases hc : p c.1
    · simp only [List.filter_cons, hc, if_true, Memory.read]
      by_cases ha : c.1 = a
      · subst ha; simp [hc]
      · simp only [ha, if_false]; exact ih
    · simp only [List.filter_cons, hc, Memory.read]
      by_cases ha : c.1 = a
      · subst ha; simpa [hc] using ih
      · simpa [ha] using ih

theorem Memory.read_erase (m : Memory) (a b : Nat) :
    (m.erase a).read b = if b = a then unlistedByte else m.read b := by
  unfold Memory.erase
  rw [Memory.read_filter_of_keep m (fun x => x != a) b]
  by_cases h : b = a <;> simp [h]

theorem Memory.read_clear (m : Memory) (a n b : Nat) :
    (m.clear a n).read b = if a ≤ b ∧ b < a + n then unlistedByte else m.read b := by
  unfold Memory.clear
  rw [Memory.read_filter_of_keep m (fun x => !(decide (a ≤ x) && decide (x < a + n))) b]
  by_cases h1 : a ≤ b <;> by_cases h2 : b < a + n <;> simp [h1, h2]

theorem Memory.read_insert (m : Memory) (a b : Nat) (v : Byte) (h : ∀ c ∈ m, c.1 ≠ a) :
    (m.insert a v).read b = if b = a then v else m.read b := by
  induction m with
  | nil =>
    by_cases hb : a = b
    · simp [Memory.insert, Memory.read, hb]
    · simp [Memory.insert, Memory.read, hb, Ne.symm hb]
  | cons c rest ih =>
    have hca : c.1 ≠ a := h c List.mem_cons_self
    have ih := ih (fun d hd => h d (List.mem_cons_of_mem _ hd))
    unfold Memory.insert
    split
    · by_cases hb : a = b
      · simp [Memory.read, hb]
      · simp [Memory.read, hb, Ne.symm hb]
    · rw [Memory.read]
      by_cases hcb : c.1 = b
      · have : b ≠ a := fun e => hca (hcb.trans e)
        simp [hcb, this, Memory.read]
      · simp only [hcb, if_false]
        rw [ih]
        simp [Memory.read, hcb]

theorem Memory.not_mem_erase (m : Memory) (a : Nat) : ∀ c ∈ m.erase a, c.1 ≠ a := by
  intro c hc
  simpa using (List.mem_filter.mp hc).2

/-- What a byte write does: the byte is there, every other address reads as before. -/
theorem Memory.read_write (m : Memory) (a b : Nat) (v : Byte) :
    (m.write a v).read b = if b = a then v else m.read b := by
  unfold Memory.write
  split
  · next h => subst h; rw [Memory.read_erase]
  · rw [Memory.read_insert]
    · rw [Memory.read_erase]; by_cases h : b = a <;> simp [h]
    · exact Memory.not_mem_erase m a

@[simp] theorem Memory.read_write_self (m : Memory) (a : Nat) (v : Byte) : (m.write a v).read a = v := by
  simp [Memory.read_write]

theorem Memory.read_write_ne (m : Memory) (a b : Nat) (v : Byte) (h : b ≠ a) : (m.write a v).read b = m.read b := by
  simp [Memory.read_write, h]

/-- What storing a byte sequence does, at every address. -/
theorem Memory.read_writeBytes (m : Memory) (a : Nat) (s : List Byte) (b : Nat) :
    (m.writeBytes a s).read b = if a ≤ b ∧ b < a + s.length then s.getD (b - a) 0#8 else m.read b := by
  induction s generalizing m a with
  | nil => simp [Memory.writeBytes]
  | cons v rest ih =>
    rw [Memory.writeBytes, ih, Memory.read_write]
    by_cases h1 : a + 1 ≤ b ∧ b < a + 1 + rest.length
    · have h2 : a ≤ b ∧ b < a + (v :: rest).length := by simp only [List.length_cons]; omega
      have h3 : b - a = (b - (a + 1)) + 1 := by omega
      rw [if_pos h1, if_pos h2, h3, List.getD_cons_succ]
    · rw [if_neg h1]
      by_cases hb : b = a
      · subst hb; simp
      · have h2 : ¬ (a ≤ b ∧ b < a + (v :: rest).length) := by simp only [List.length_cons]; omega
        rw [if_neg hb, if_neg h2]

theorem Memory.read_writeBytes_outside (m : Memory) (a : Nat) (s : List Byte) (b : Nat)
    (h : b < a ∨ a + s.length ≤ b) : (m.writeBytes a s).read b = m.read b := by
  rw [Memory.read_writeBytes, if_neg (by omega)]

@[simp] theorem Memory.length_readBytes (m : Memory) (a n : Nat) : (m.readBytes a n).length = n := by
  induction n generalizing a with
  | zero => rfl
  | succ k ih => simp [Memory.readBytes, ih]

/-- A slice of memory reads the same wherever the bytes are the same. -/
theorem Memory.readBytes_congr (m m' : Memory) (a n : Nat)
    (h : ∀ b, a ≤ b → b < a + n → m'.read b = m.read b) : m'.readBytes a n = m.readBytes a n := by
  induction n generalizing a with
  | zero => rfl
  | succ k ih =>
    rw [Memory.readBytes, Memory.readBytes, h a (Nat.le_refl a) (by omega),
      ih (a + 1) fun b h1 h2 => h b (by omega) (by omega)]

/-- A byte sequence just stored reads back. -/
theorem Memory.readBytes_writeBytes (m : Memory) (a : Nat) (s : List Byte) :
    (m.writeBytes a s).readBytes a s.length = s := by
  induction s generalizing m a with
  | nil => rfl
  | cons v rest ih =>
    rw [List.length_cons, Memory.readBytes, Memory.writeBytes, ih,
      Memory.read_writeBytes_outside _ _ _ _ (Or.inl (by omega)), Memory.read_write_self]

theorem Memory.readBytes_getD (m : Memory) (a n k : Nat) (h : k < n) :
    (m.readBytes a n).getD k 0#8 = m.read (a + k) := by
  induction n generalizing a k with
  | zero => omega
  | succ j ih =>
    cases k with
    | zero => rfl
    | succ i => rw [Memory.readBytes, List.getD_cons_succ, ih (a + 1) i (by omega)]; congr 1; omega

/-- What a bus write does outside its bytes. -/
theorem Memory.read_writeLE_outside (m : Memory) (a n : Nat) (v : Word) (b : Nat) (h : b < a ∨ a + n ≤ b) :
    (m.writeLE a n v).read b = m.read b := by
  induction n generalizing m a v with
  | zero => rfl
  | succ k ih =>
    rw [Memory.writeLE, ih _ _ _ (by omega), Memory.read_write_ne _ _ _ _ (by omega)]

/-- What a bus write does to its bytes: little-endian lanes (R63). -/
theorem Memory.read_writeLE_inside (m : Memory) (a n : Nat) (v : Word) (k : Nat) (h : k < n) :
    (m.writeLE a n v).read (a + k) = (v >>> (8 * k)).setWidth 8 := by
  induction n generalizing m a v k with
  | zero => omega
  | succ j ih =>
    rw [Memory.writeLE]
    cases k with
    | zero =>
      rw [Memory.read_writeLE_outside _ _ _ _ _ (Or.inl (by omega))]
      simp
    | succ i =>
      have e : a + (i + 1) = a + 1 + i := by omega
      rw [e, ih _ _ _ i (by omega), ← BitVec.shiftRight_add, Nat.mul_add, Nat.add_comm (8 * i) (8 * 1)]

/-- One more lane of a bus read: the byte at the lowest address is the least significant (R63). -/
theorem word_lane (x : Word) (b : Byte) (hx : x.toNat < 2 ^ 24) :
    ((x <<< 8) ||| b.setWidth 32).toNat = b.toNat + 256 * x.toNat := by
  have hb : b.toNat < 2 ^ 8 := b.isLt
  have e1 : (x <<< 8).toNat = x.toNat <<< 8 := by
    rw [BitVec.toNat_shiftLeft, Nat.mod_eq_of_lt]
    rw [Nat.shiftLeft_eq]; omega
  have e2 : (b.setWidth 32).toNat = b.toNat := by
    rw [BitVec.toNat_setWidth, Nat.mod_eq_of_lt]; omega
  rw [BitVec.toNat_or, e1, e2, ← Nat.shiftLeft_add_eq_or_of_lt hb, Nat.shiftLeft_eq]
  omega

theorem Memory.toNat_readLE_lt (m : Memory) (a n : Nat) (h : n ≤ 4) : (m.readLE a n).toNat < 2 ^ (8 * n) := by
  induction n generalizing a with
  | zero => simp [Memory.readLE]
  | succ k ih =>
    have hk := ih (a + 1) (by omega)
    have hp : 2 ^ (8 * k) ≤ 2 ^ 24 := Nat.pow_le_pow_right (by omega) (by omega)
    have hb : (m.read a).toNat < 2 ^ 8 := (m.read a).isLt
    have he : 2 ^ (8 * (k + 1)) = 256 * 2 ^ (8 * k) := by rw [Nat.mul_succ, Nat.pow_add]; omega
    rw [Memory.readLE, word_lane _ _ (by omega), he]
    omega

/-- A bus read of one more byte, lane by lane (R63). -/
theorem Memory.toNat_readLE_succ (m : Memory) (a k : Nat) (h : k ≤ 3) :
    (m.readLE a (k + 1)).toNat = (m.read a).toNat + 256 * (m.readLE (a + 1) k).toNat := by
  have hk := Memory.toNat_readLE_lt m (a + 1) k (by omega)
  have hp : 2 ^ (8 * k) ≤ 2 ^ 24 := Nat.pow_le_pow_right (by omega) (by omega)
  rw [Memory.readLE, word_lane _ _ (by omega)]

/-! ### The canonical form -/

theorem Memory.wf_nil : Memory.wf [] := ⟨List.Pairwise.nil, fun _ h => absurd h (List.not_mem_nil)⟩

theorem Memory.wf_filter (m : Memory) (p : Host.Cell → Bool) (h : m.wf) : Memory.wf (m.filter p) :=
  ⟨h.1.filter p, fun c hc => h.2 c (List.mem_filter.mp hc).1⟩

theorem Memory.wf_erase (m : Memory) (a : Nat) (h : m.wf) : (m.erase a).wf := Memory.wf_filter m _ h

theorem Memory.wf_clear (m : Memory) (a n : Nat) (h : m.wf) : (m.clear a n).wf := Memory.wf_filter m _ h

theorem Memory.mem_insert (m : Memory) (a : Nat) (v : Byte) (c : Host.Cell) :
    c ∈ m.insert a v ↔ c = (a, v) ∨ c ∈ m := by
  induction m with
  | nil => simp [Memory.insert]
  | cons d rest ih =>
    unfold Memory.insert
    split
    · simp
    · simp only [List.mem_cons, ih]
      constructor
      · rintro (h | h | h) <;> simp [h]
      · rintro (h | h | h) <;> simp [h]

theorem Memory.wf_insert (m : Memory) (a : Nat) (v : Byte) (h : m.wf) (hv : v ≠ unlistedByte)
    (ha : ∀ c ∈ m, c.1 ≠ a) : (m.insert a v).wf := by
  constructor
  · induction m with
    | nil => exact List.pairwise_singleton _ _
    | cons d rest ih =>
      have hp := List.pairwise_cons.mp h.1
      have hd : d.1 ≠ a := ha d List.mem_cons_self
      unfold Memory.insert
      split
      · next hlt =>
        refine List.pairwise_cons.mpr ⟨fun e he => ?_, h.1⟩
        rcases List.mem_cons.mp he with rfl | he
        · exact hlt
        · exact Nat.lt_trans hlt (hp.1 e he)
      · next hge =>
        refine List.pairwise_cons.mpr ⟨fun e he => ?_, ?_⟩
        · rcases (Memory.mem_insert rest a v e).mp he with rfl | he
          · show d.1 < a; omega
          · exact hp.1 e he
        · exact ih ⟨hp.2, fun c hc => h.2 c (List.mem_cons_of_mem _ hc)⟩
            (fun c hc => ha c (List.mem_cons_of_mem _ hc))
  · intro c hc
    rcases (Memory.mem_insert m a v c).mp hc with rfl | hc
    · exact hv
    · exact h.2 c hc

theorem Memory.wf_write (m : Memory) (a : Nat) (v : Byte) (h : m.wf) : (m.write a v).wf := by
  unfold Memory.write
  split
  · exact Memory.wf_erase m a h
  · next hv => exact Memory.wf_insert _ a v (Memory.wf_erase m a h) hv (Memory.not_mem_erase m a)

theorem Memory.wf_writeBytes (m : Memory) (a : Nat) (s : List Byte) (h : m.wf) : (m.writeBytes a s).wf := by
  induction s generalizing m a with
  | nil => exact h
  | cons v rest ih => exact ih _ _ (Memory.wf_write m a v h)

theorem Memory.wf_writeLE (m : Memory) (a n : Nat) (v : Word) (h : m.wf) : (m.writeLE a n v).wf := by
  induction n generalizing m a v with
  | zero => exact h
  | succ k ih => exact ih _ _ _ (Memory.wf_write m a _ h)

/-! ### Where the entries are -/

theorem Memory.mem_write (m : Memory) (a : Nat) (v : Byte) (c : Host.Cell) (hc : c ∈ m.write a v) :
    c.1 = a ∨ c ∈ m := by
  unfold Memory.write at hc
  split at hc
  · exact Or.inr (List.mem_filter.mp hc).1
  · rcases (Memory.mem_insert _ _ _ _).mp hc with rfl | hc
    · exact Or.inl rfl
    · exact Or.inr (List.mem_filter.mp hc).1

theorem Memory.mem_writeBytes (m : Memory) (a : Nat) (s : List Byte) (c : Host.Cell) (hc : c ∈ m.writeBytes a s) :
    (a ≤ c.1 ∧ c.1 < a + s.length) ∨ c ∈ m := by
  induction s generalizing m a with
  | nil => exact Or.inr hc
  | cons v rest ih =>
    rcases ih _ _ hc with h | h
    · left; simp only [List.length_cons]; omega
    · rcases Memory.mem_write _ _ _ _ h with h | h
      · left; simp only [List.length_cons]; omega
      · exact Or.inr h

theorem Memory.mem_writeLE (m : Memory) (a n : Nat) (v : Word) (c : Host.Cell) (hc : c ∈ m.writeLE a n v) :
    (a ≤ c.1 ∧ c.1 < a + n) ∨ c ∈ m := by
  induction n generalizing m a v with
  | zero => exact Or.inr hc
  | succ k ih =>
    rcases ih _ _ _ hc with h | h
    · left; omega
    · rcases Memory.mem_write _ _ _ _ h with h | h
      · left; omega
      · exact Or.inr h

end Sys2Proof.Machine
end

