-- ==== Sys2Proof/Laws/State.lean ====
section
/-! SUPPORT. One lemma per field per update of the state, each true by definition, and the control words of a channel
after an update. -/

namespace Sys2Proof.Machine

/-! ### `updateChannel` -/

@[simp] theorem State.updateChannel_bufUnits (s : State) (c : Nat) (f : Channel → Channel) : (s.updateChannel c f).bufUnits = s.bufUnits := rfl
@[simp] theorem State.updateChannel_mem (s : State) (c : Nat) (f : Channel → Channel) : (s.updateChannel c f).mem = s.mem := rfl
@[simp] theorem State.updateChannel_rsPos (s : State) (c : Nat) (f : Channel → Channel) : (s.updateChannel c f).rsPos = s.rsPos := rfl
@[simp] theorem State.updateChannel_rngInit (s : State) (c : Nat) (f : Channel → Channel) : (s.updateChannel c f).rngInit = s.rngInit := rfl
@[simp] theorem State.updateChannel_fatal (s : State) (c : Nat) (f : Channel → Channel) : (s.updateChannel c f).fatal = s.fatal := rfl
@[simp] theorem State.updateChannel_source (s : State) (c : Nat) (f : Channel → Channel) : (s.updateChannel c f).source = s.source := rfl
@[simp] theorem State.updateChannel_active (s : State) (c : Nat) (f : Channel → Channel) : (s.updateChannel c f).active = s.active := rfl
@[simp] theorem State.updateChannel_answer (s : State) (c : Nat) (f : Channel → Channel) : (s.updateChannel c f).answer = s.answer := rfl
@[simp] theorem State.updateChannel_agenda (s : State) (c : Nat) (f : Channel → Channel) : (s.updateChannel c f).agenda = s.agenda := rfl
@[simp] theorem State.updateChannel_replies (s : State) (c : Nat) (f : Channel → Channel) : (s.updateChannel c f).replies = s.replies := rfl

/-! ### `writeArray` -/

@[simp] theorem State.writeArray_bufUnits (s : State) (c : Nat) (r : ArrayReg) (bytes : List Byte) : (s.writeArray c r bytes).bufUnits = s.bufUnits := rfl
@[simp] theorem State.writeArray_channels (s : State) (c : Nat) (r : ArrayReg) (bytes : List Byte) : (s.writeArray c r bytes).channels = s.channels := rfl
@[simp] theorem State.writeArray_rsPos (s : State) (c : Nat) (r : ArrayReg) (bytes : List Byte) : (s.writeArray c r bytes).rsPos = s.rsPos := rfl
@[simp] theorem State.writeArray_rngInit (s : State) (c : Nat) (r : ArrayReg) (bytes : List Byte) : (s.writeArray c r bytes).rngInit = s.rngInit := rfl
@[simp] theorem State.writeArray_fatal (s : State) (c : Nat) (r : ArrayReg) (bytes : List Byte) : (s.writeArray c r bytes).fatal = s.fatal := rfl
@[simp] theorem State.writeArray_source (s : State) (c : Nat) (r : ArrayReg) (bytes : List Byte) : (s.writeArray c r bytes).source = s.source := rfl
@[simp] theorem State.writeArray_active (s : State) (c : Nat) (r : ArrayReg) (bytes : List Byte) : (s.writeArray c r bytes).active = s.active := rfl
@[simp] theorem State.writeArray_answer (s : State) (c : Nat) (r : ArrayReg) (bytes : List Byte) : (s.writeArray c r bytes).answer = s.answer := rfl
@[simp] theorem State.writeArray_agenda (s : State) (c : Nat) (r : ArrayReg) (bytes : List Byte) : (s.writeArray c r bytes).agenda = s.agenda := rfl
@[simp] theorem State.writeArray_replies (s : State) (c : Nat) (r : ArrayReg) (bytes : List Byte) : (s.writeArray c r bytes).replies = s.replies := rfl

/-! ### `setOutput` -/

@[simp] theorem State.setOutput_bufUnits (s : State) (c : Nat) (bytes : List Byte) : (s.setOutput c bytes).bufUnits = s.bufUnits := rfl
@[simp] theorem State.setOutput_rsPos (s : State) (c : Nat) (bytes : List Byte) : (s.setOutput c bytes).rsPos = s.rsPos := rfl
@[simp] theorem State.setOutput_rngInit (s : State) (c : Nat) (bytes : List Byte) : (s.setOutput c bytes).rngInit = s.rngInit := rfl
@[simp] theorem State.setOutput_fatal (s : State) (c : Nat) (bytes : List Byte) : (s.setOutput c bytes).fatal = s.fatal := rfl
@[simp] theorem State.setOutput_source (s : State) (c : Nat) (bytes : List Byte) : (s.setOutput c bytes).source = s.source := rfl
@[simp] theorem State.setOutput_active (s : State) (c : Nat) (bytes : List Byte) : (s.setOutput c bytes).active = s.active := rfl
@[simp] theorem State.setOutput_answer (s : State) (c : Nat) (bytes : List Byte) : (s.setOutput c bytes).answer = s.answer := rfl
@[simp] theorem State.setOutput_agenda (s : State) (c : Nat) (bytes : List Byte) : (s.setOutput c bytes).agenda = s.agenda := rfl
@[simp] theorem State.setOutput_replies (s : State) (c : Nat) (bytes : List Byte) : (s.setOutput c bytes).replies = s.replies := rfl

/-! ### `complete` -/

@[simp] theorem State.complete_bufUnits (s : State) (c : Nat) (e : ErrCode) : (s.complete c e).bufUnits = s.bufUnits := rfl
@[simp] theorem State.complete_mem (s : State) (c : Nat) (e : ErrCode) : (s.complete c e).mem = s.mem := rfl
@[simp] theorem State.complete_rsPos (s : State) (c : Nat) (e : ErrCode) : (s.complete c e).rsPos = s.rsPos := rfl
@[simp] theorem State.complete_rngInit (s : State) (c : Nat) (e : ErrCode) : (s.complete c e).rngInit = s.rngInit := rfl
@[simp] theorem State.complete_fatal (s : State) (c : Nat) (e : ErrCode) : (s.complete c e).fatal = s.fatal := rfl
@[simp] theorem State.complete_source (s : State) (c : Nat) (e : ErrCode) : (s.complete c e).source = s.source := rfl
@[simp] theorem State.complete_active (s : State) (c : Nat) (e : ErrCode) : (s.complete c e).active = s.active := rfl
@[simp] theorem State.complete_answer (s : State) (c : Nat) (e : ErrCode) : (s.complete c e).answer = s.answer := rfl
@[simp] theorem State.complete_agenda (s : State) (c : Nat) (e : ErrCode) : (s.complete c e).agenda = s.agenda := rfl
@[simp] theorem State.complete_replies (s : State) (c : Nat) (e : ErrCode) : (s.complete c e).replies = s.replies := rfl

/-! ### `takeTurn` -/

@[simp] theorem State.takeTurn_bufUnits (s : State) (c : Nat) (a : Answer) : (s.takeTurn c a).bufUnits = s.bufUnits := rfl
@[simp] theorem State.takeTurn_channels (s : State) (c : Nat) (a : Answer) : (s.takeTurn c a).channels = s.channels := rfl
@[simp] theorem State.takeTurn_mem (s : State) (c : Nat) (a : Answer) : (s.takeTurn c a).mem = s.mem := rfl
@[simp] theorem State.takeTurn_rsPos (s : State) (c : Nat) (a : Answer) : (s.takeTurn c a).rsPos = s.rsPos := rfl
@[simp] theorem State.takeTurn_rngInit (s : State) (c : Nat) (a : Answer) : (s.takeTurn c a).rngInit = s.rngInit := rfl
@[simp] theorem State.takeTurn_fatal (s : State) (c : Nat) (a : Answer) : (s.takeTurn c a).fatal = s.fatal := rfl
@[simp] theorem State.takeTurn_source (s : State) (c : Nat) (a : Answer) : (s.takeTurn c a).source = s.source := rfl
@[simp] theorem State.takeTurn_agenda (s : State) (c : Nat) (a : Answer) : (s.takeTurn c a).agenda = s.agenda := rfl
@[simp] theorem State.takeTurn_replies (s : State) (c : Nat) (a : Answer) : (s.takeTurn c a).replies = s.replies := rfl

/-! ### `hostRead` -/

@[simp] theorem State.hostRead_bufUnits (s : State) (addr n : Nat) : (s.hostRead addr n).bufUnits = s.bufUnits := rfl
@[simp] theorem State.hostRead_channels (s : State) (addr n : Nat) : (s.hostRead addr n).channels = s.channels := rfl
@[simp] theorem State.hostRead_mem (s : State) (addr n : Nat) : (s.hostRead addr n).mem = s.mem := rfl
@[simp] theorem State.hostRead_rsPos (s : State) (addr n : Nat) : (s.hostRead addr n).rsPos = s.rsPos := rfl
@[simp] theorem State.hostRead_rngInit (s : State) (addr n : Nat) : (s.hostRead addr n).rngInit = s.rngInit := rfl
@[simp] theorem State.hostRead_fatal (s : State) (addr n : Nat) : (s.hostRead addr n).fatal = s.fatal := rfl
@[simp] theorem State.hostRead_source (s : State) (addr n : Nat) : (s.hostRead addr n).source = s.source := rfl
@[simp] theorem State.hostRead_active (s : State) (addr n : Nat) : (s.hostRead addr n).active = s.active := rfl
@[simp] theorem State.hostRead_answer (s : State) (addr n : Nat) : (s.hostRead addr n).answer = s.answer := rfl
@[simp] theorem State.hostRead_agenda (s : State) (addr n : Nat) : (s.hostRead addr n).agenda = s.agenda := rfl

/-! ### `withFetchWord` -/

@[simp] theorem State.withFetchWord_bufUnits (s : State) (nbits w : Nat) : (s.withFetchWord nbits w).bufUnits = s.bufUnits := rfl
@[simp] theorem State.withFetchWord_mem (s : State) (nbits w : Nat) : (s.withFetchWord nbits w).mem = s.mem := rfl
@[simp] theorem State.withFetchWord_rsPos (s : State) (nbits w : Nat) : (s.withFetchWord nbits w).rsPos = s.rsPos := rfl
@[simp] theorem State.withFetchWord_rngInit (s : State) (nbits w : Nat) : (s.withFetchWord nbits w).rngInit = s.rngInit := rfl
@[simp] theorem State.withFetchWord_fatal (s : State) (nbits w : Nat) : (s.withFetchWord nbits w).fatal = s.fatal := rfl
@[simp] theorem State.withFetchWord_source (s : State) (nbits w : Nat) : (s.withFetchWord nbits w).source = s.source := rfl
@[simp] theorem State.withFetchWord_active (s : State) (nbits w : Nat) : (s.withFetchWord nbits w).active = s.active := rfl
@[simp] theorem State.withFetchWord_answer (s : State) (nbits w : Nat) : (s.withFetchWord nbits w).answer = s.answer := rfl
@[simp] theorem State.withFetchWord_replies (s : State) (nbits w : Nat) : (s.withFetchWord nbits w).replies = s.replies := rfl

/-! ### `withScript` -/

@[simp] theorem State.withScript_bufUnits (s : State) (lines : List (Nat × ScriptLine)) : (s.withScript lines).bufUnits = s.bufUnits := rfl
@[simp] theorem State.withScript_channels (s : State) (lines : List (Nat × ScriptLine)) : (s.withScript lines).channels = s.channels := rfl
@[simp] theorem State.withScript_mem (s : State) (lines : List (Nat × ScriptLine)) : (s.withScript lines).mem = s.mem := rfl
@[simp] theorem State.withScript_rsPos (s : State) (lines : List (Nat × ScriptLine)) : (s.withScript lines).rsPos = s.rsPos := rfl
@[simp] theorem State.withScript_rngInit (s : State) (lines : List (Nat × ScriptLine)) : (s.withScript lines).rngInit = s.rngInit := rfl
@[simp] theorem State.withScript_fatal (s : State) (lines : List (Nat × ScriptLine)) : (s.withScript lines).fatal = s.fatal := rfl
@[simp] theorem State.withScript_source (s : State) (lines : List (Nat × ScriptLine)) : (s.withScript lines).source = s.source := rfl
@[simp] theorem State.withScript_active (s : State) (lines : List (Nat × ScriptLine)) : (s.withScript lines).active = s.active := rfl
@[simp] theorem State.withScript_answer (s : State) (lines : List (Nat × ScriptLine)) : (s.withScript lines).answer = s.answer := rfl
@[simp] theorem State.withScript_replies (s : State) (lines : List (Nat × ScriptLine)) : (s.withScript lines).replies = s.replies := rfl

@[simp] theorem State.raise_bufUnits (s : State) (c : Nat) (e : ErrCode) : (s.raise c e).bufUnits = s.bufUnits := by cases e <;> rfl
@[simp] theorem State.raise_source (s : State) (c : Nat) (e : ErrCode) : (s.raise c e).source = s.source := by cases e <;> rfl
@[simp] theorem State.raise_active (s : State) (c : Nat) (e : ErrCode) : (s.raise c e).active = s.active := by cases e <;> rfl
@[simp] theorem State.raise_answer (s : State) (c : Nat) (e : ErrCode) : (s.raise c e).answer = s.answer := by cases e <;> rfl
@[simp] theorem State.raise_agenda (s : State) (c : Nat) (e : ErrCode) : (s.raise c e).agenda = s.agenda := by cases e <;> rfl
@[simp] theorem State.raise_replies (s : State) (c : Nat) (e : ErrCode) : (s.raise c e).replies = s.replies := by cases e <;> rfl

@[simp] theorem State.raise_rsPos (s : State) (c : Nat) (e : ErrCode) : (s.raise c e).rsPos = s.rsPos := by cases e <;> rfl
@[simp] theorem State.raise_rngInit (s : State) (c : Nat) (e : ErrCode) : (s.raise c e).rngInit = s.rngInit := by cases e <;> rfl

@[simp] theorem State.updateChannel_channels (s : State) (c : Nat) (f : Channel → Channel) :
    (s.updateChannel c f).channels = s.channels.modify c f := rfl
@[simp] theorem State.writeArray_mem (s : State) (c : Nat) (r : ArrayReg) (bytes : List Byte) :
    (s.writeArray c r bytes).mem = s.mem.writeBytes (arrayBase c r) bytes := rfl
@[simp] theorem State.setOutput_mem (s : State) (c : Nat) (bytes : List Byte) :
    (s.setOutput c bytes).mem = (s.mem.clear (arrayBase c .dout) s.bufMax).writeBytes (arrayBase c .dout) bytes := rfl
@[simp] theorem State.setOutput_channels (s : State) (c : Nat) (bytes : List Byte) :
    (s.setOutput c bytes).channels =
      s.channels.modify c fun ch => { ch with doutLen := BitVec.ofNat 32 bytes.length } := rfl
@[simp] theorem State.complete_channels (s : State) (c : Nat) (e : ErrCode) :
    (s.complete c e).channels = s.channels.modify c (Channel.complete e) := rfl
@[simp] theorem State.takeTurn_active (s : State) (c : Nat) (a : Answer) : (s.takeTurn c a).active = c := rfl
@[simp] theorem State.takeTurn_answer (s : State) (c : Nat) (a : Answer) : (s.takeTurn c a).answer = a := rfl

/-! ### Capacities and the number of channels -/

theorem State.bufMax_of_bufUnits (s t : State) (h : t.bufUnits = s.bufUnits) : t.bufMax = s.bufMax := by
  unfold State.bufMax; rw [h]

/-- `BUF_MAX` is a multiple of 16 from 32 to 65536 (R8). -/
theorem State.bufMax_range (s : State) : s.bufMax % 16 = 0 ∧ 32 ≤ s.bufMax ∧ s.bufMax ≤ 65536 := by
  have h := s.bufUnits.isLt
  unfold State.bufMax Config.bufMaxOf
  omega

@[simp] theorem State.updateChannel_bufMax (s : State) (c : Nat) (f : Channel → Channel) :
    (s.updateChannel c f).bufMax = s.bufMax := rfl
@[simp] theorem State.writeArray_bufMax (s : State) (c : Nat) (r : ArrayReg) (bytes : List Byte) :
    (s.writeArray c r bytes).bufMax = s.bufMax := rfl
@[simp] theorem State.setOutput_bufMax (s : State) (c : Nat) (bytes : List Byte) :
    (s.setOutput c bytes).bufMax = s.bufMax := rfl
@[simp] theorem State.complete_bufMax (s : State) (c : Nat) (e : ErrCode) : (s.complete c e).bufMax = s.bufMax := rfl

@[simp] theorem State.updateChannel_nch (s : State) (c : Nat) (f : Channel → Channel) :
    (s.updateChannel c f).nch = s.nch := by simp [State.nch]
@[simp] theorem State.writeArray_nch (s : State) (c : Nat) (r : ArrayReg) (bytes : List Byte) :
    (s.writeArray c r bytes).nch = s.nch := rfl
@[simp] theorem State.setOutput_nch (s : State) (c : Nat) (bytes : List Byte) :
    (s.setOutput c bytes).nch = s.nch := by simp [State.nch]
@[simp] theorem State.complete_nch (s : State) (c : Nat) (e : ErrCode) : (s.complete c e).nch = s.nch := by
  simp [State.nch]

/-! ### The control words of a channel -/

theorem State.getElem?_channels (s : State) (c : Nat) (h : c < s.nch) : s.channels[c]? = some (s.channel c) := by
  unfold State.nch at h
  rw [List.getElem?_eq_getElem h]
  simp [State.channel, List.getD_eq_getElem?_getD, List.getElem?_eq_getElem h]

/-- What an update of channel `c`'s control words does to channel `d`'s. -/
theorem State.channel_updateChannel (s : State) (c d : Nat) (f : Channel → Channel) (h : c < s.nch) :
    (s.updateChannel c f).channel d = if d = c then f (s.channel d) else s.channel d := by
  unfold State.channel
  rw [State.updateChannel_channels, List.getD_eq_getElem?_getD, List.getD_eq_getElem?_getD, List.getElem?_modify]
  by_cases hd : d = c
  · subst hd
    unfold State.nch at h
    simp [List.getElem?_eq_getElem h]
  · rw [if_neg hd]
    cases s.channels[d]? <;> simp [Ne.symm hd]

theorem State.channel_updateChannel_self (s : State) (c : Nat) (f : Channel → Channel) (h : c < s.nch) :
    (s.updateChannel c f).channel c = f (s.channel c) := by
  rw [State.channel_updateChannel s c c f h, if_pos rfl]

theorem State.channel_updateChannel_ne (s : State) (c d : Nat) (f : Channel → Channel) (h : d ≠ c) :
    (s.updateChannel c f).channel d = s.channel d := by
  unfold State.channel
  rw [State.updateChannel_channels, List.getD_eq_getElem?_getD, List.getD_eq_getElem?_getD, List.getElem?_modify]
  cases s.channels[d]? <;> simp [Ne.symm h]

@[simp] theorem State.writeArray_channel (s : State) (c d : Nat) (r : ArrayReg) (bytes : List Byte) :
    (s.writeArray c r bytes).channel d = s.channel d := rfl

theorem State.setOutput_channel (s : State) (c d : Nat) (bytes : List Byte) (h : c < s.nch) :
    (s.setOutput c bytes).channel d =
      if d = c then { s.channel d with doutLen := BitVec.ofNat 32 bytes.length } else s.channel d := by
  have := State.channel_updateChannel { s with mem := (s.setOutput c bytes).mem } c d
    (fun ch => { ch with doutLen := BitVec.ofNat 32 bytes.length }) h
  exact this

theorem State.complete_channel (s : State) (c d : Nat) (e : ErrCode) (h : c < s.nch) :
    (s.complete c e).channel d = if d = c then (s.channel d).complete e else s.channel d :=
  State.channel_updateChannel s c d (Channel.complete e) h

end Sys2Proof.Machine
end

