-- ==== Sys2Proof/Laws/Ops.lean ====
section
/-! SUPPORT. For each shared operation, one lemma that says once everything it can do. -/

namespace Sys2Proof.Machine

/-! ### The random source -/

@[simp] theorem Source.length_bytes (src : Source) (p n : Nat) : (src.bytes p n).length = n := by
  induction n generalizing p with
  | zero => rfl
  | succ k ih => simp [Source.bytes, ih]

theorem Source.bytes_eq_map (src : Source) (p n : Nat) :
    src.bytes p n = (List.range n).map fun k => src.byteAt (p + k) := by
  induction n generalizing p with
  | zero => rfl
  | succ k ih =>
    rw [Source.bytes, ih, List.range_succ_eq_map, List.map_cons, List.map_map]
    simp only [Nat.add_zero, List.cons.injEq, true_and]
    exact List.map_congr_left fun x _ => by simp only [Function.comp, Nat.succ_eq_add_one]; congr 1; omega

/-- `RS(rs_pos), ...` as the meanings read them is the slice the statements name. -/
theorem State.bytes_eq_nextRandom (s : State) (n : Nat) : s.source.bytes s.rsPos n = s.nextRandom n :=
  Source.bytes_eq_map s.source s.rsPos n

@[simp] theorem State.length_nextRandom (s : State) (n : Nat) : (s.nextRandom n).length = n := by
  simp [State.nextRandom]

theorem Source.exhausted_eq_false_iff (src : Source) (p : Nat) :
    src.exhausted p = false ↔ ∀ l, src.limit = some l → p ≤ l := by
  unfold Source.exhausted
  cases h : src.limit with
  | none => simp
  | some l => simp

theorem Source.exhausted_eq_true_iff (src : Source) (p : Nat) :
    src.exhausted p = true ↔ ∃ l, src.limit = some l ∧ l < p := by
  unfold Source.exhausted
  cases h : src.limit with
  | none => simp
  | some l => simp

/-- Everything a draw can do (R111, R112). -/
theorem State.draw_cases (s : State) (n : Nat) :
    (s.Delivers n ∧ s.draw n = .deliver (s.nextRandom n) { s with rsPos := s.rsPos + n, rngInit := true }) ∨
    (s.Starves n ∧ s.draw n = .starved) ∨
    (s.Fails n ∧ s.draw n = .failed { s with rngInit := true }) := by
  by_cases hn : n = 0
  · left
    subst hn
    exact ⟨Or.inl rfl, by simp [State.draw, State.nextRandom]⟩
  · by_cases hx : s.source.exhausted (s.rsPos + n) = true
    · right; right
      exact ⟨⟨hn, (Source.exhausted_eq_true_iff _ _).mp hx⟩, by simp [State.draw, hn, hx]⟩
    · have hx' : s.source.exhausted (s.rsPos + n) = false := by simpa using hx
      have hw : s.WithinLimit n := (Source.exhausted_eq_false_iff _ _).mp hx'
      cases ha : s.answer with
      | deliver =>
        left
        exact ⟨Or.inr ⟨ha, hw⟩, by simp [State.draw, hn, hx', ha, State.bytes_eq_nextRandom]⟩
      | starved =>
        right; left
        exact ⟨⟨hn, ha, hw⟩, by simp [State.draw, hn, hx', ha]⟩

theorem State.draw_of_delivers (s : State) (n : Nat) (h : s.Delivers n) :
    s.draw n = .deliver (s.nextRandom n) { s with rsPos := s.rsPos + n, rngInit := true } := by
  rcases State.draw_cases s n with ⟨_, h'⟩ | ⟨⟨hn, ha, _⟩, _⟩ | ⟨⟨hn, l, hl, hlt⟩, _⟩
  · exact h'
  · rcases h with h | ⟨h, _⟩
    · exact absurd h hn
    · rw [ha] at h; cases h
  · rcases h with h | ⟨_, h⟩
    · exact absurd h hn
    · exact absurd (h l hl) (by omega)

theorem State.draw_of_starves (s : State) (n : Nat) (h : s.Starves n) : s.draw n = .starved := by
  obtain ⟨hn, ha, hw⟩ := h
  have hx := (Source.exhausted_eq_false_iff s.source (s.rsPos + n)).mpr hw
  simp [State.draw, hn, hx, ha]

theorem State.draw_of_fails (s : State) (n : Nat) (h : s.Fails n) : s.draw n = .failed { s with rngInit := true } := by
  obtain ⟨hn, hl⟩ := h
  have hx := (Source.exhausted_eq_true_iff s.source (s.rsPos + n)).mpr hl
  simp [State.draw, hn, hx]

/-! ### The engine step -/

/-- An engine step answers a next state exactly where the active channel exists, and which. -/
theorem engineStep_eq (rule : Nat → State → RuleResult) (s : State) (h : s.active < s.nch) :
    engineStep rule s = .next (s.runRule s.active rule) := by
  unfold engineStep
  rw [State.getElem?_channels s s.active h]

theorem engineStep_next (rule : Nat → State → RuleResult) (s t : State) (h : engineStep rule s = .next t) :
    s.active < s.nch ∧ t = s.runRule s.active rule := by
  unfold engineStep at h
  split at h
  · cases h
  · next ch hch =>
    refine ⟨(List.getElem?_eq_some_iff.mp hch).1, ?_⟩
    injection h with h
    exact h.symm

/-- Everything an engine step's frame can do (R96). -/
theorem State.runRule_cases (s : State) (c : Nat) (rule : Nat → State → RuleResult) :
    (s.fatal = true ∧ s.runRule c rule = s.complete c .entropyUnavailable) ∨
    (s.fatal = false ∧ ∃ s', rule c s = .ended s' ∧ s.runRule c rule = s'.complete c .none) ∨
    (s.fatal = false ∧ ∃ e s', rule c s = .raised e s' ∧ s.runRule c rule = s'.raise c e) ∨
    (s.fatal = false ∧ rule c s = .held ∧ s.runRule c rule = s) := by
  unfold State.runRule
  cases hf : s.fatal with
  | true => left; simp
  | false =>
    right
    cases hr : rule c s with
    | ended s' => left; simp
    | raised e s' => right; left; exact ⟨rfl, e, s', rfl, by simp⟩
    | held => right; right; simp

/-- What a raise makes of the state, by its code (R245 to R249). -/
theorem State.raise_eq (s : State) (c : Nat) (e : ErrCode) :
    s.raise c e =
      if e = .illegalCommand ∨ e = .none then s.complete c e
      else if e = .entropyUnavailable then { s.setOutput c [] with fatal := true }.complete c e
      else (s.setOutput c []).complete c e := by
  cases e <;> rfl

/-! ### The output -/

/-- What writing an output does to memory, at every address (R29). -/
theorem State.read_setOutput (s : State) (c : Nat) (bytes : List Byte) (h : bytes.length ≤ s.bufMax) (a : Nat) :
    (s.setOutput c bytes).mem.read a =
      if arrayBase c .dout ≤ a ∧ a < arrayBase c .dout + s.bufMax then bytes.getD (a - arrayBase c .dout) 0#8
      else s.mem.read a := by
  rw [State.setOutput_mem, Memory.read_writeBytes, Memory.read_clear]
  by_cases h1 : arrayBase c .dout ≤ a ∧ a < arrayBase c .dout + bytes.length
  · rw [if_pos h1, if_pos (by omega)]
  · rw [if_neg h1]
    by_cases h2 : arrayBase c .dout ≤ a ∧ a < arrayBase c .dout + s.bufMax
    · rw [if_pos h2, if_pos h2]
      have : bytes.length ≤ a - arrayBase c .dout := by omega
      rw [List.getD_eq_default _ _ this]
      rfl
    · rw [if_neg h2, if_neg h2]

/-- The output just written reads back. -/
theorem State.output_setOutput (s : State) (c : Nat) (bytes : List Byte) (hc : c < s.nch)
    (h : bytes.length < 2 ^ 32) : (s.setOutput c bytes).output c = bytes := by
  unfold State.output State.arrayBytes
  rw [State.setOutput_channel s c c bytes hc, if_pos rfl, State.setOutput_mem]
  have : (BitVec.ofNat 32 bytes.length).toNat = bytes.length := by
    rw [BitVec.toNat_ofNat]; exact Nat.mod_eq_of_lt h
  simp only [this]
  exact Memory.readBytes_writeBytes _ _ _

end Sys2Proof.Machine
end

