-- ==== Sys2Proof/Laws/Crypto.lean ====
section
/-! SUPPORT. The lengths of what the algorithms give, and the shape of their loops. -/

namespace Sys2Proof.Machine

@[simp] theorem length_zeros (n : Nat) : (zeros n).length = n := List.length_replicate
@[simp] theorem length_rep (v : Byte) (n : Nat) : (rep v n).length = n := List.length_replicate
@[simp] theorem length_xorBytes (s t : List Byte) : (xorBytes s t).length = min s.length t.length := by
  simp [xorBytes]
@[simp] theorem length_beBytes (k n : Nat) : (beBytes k n).length = k := by simp [beBytes]
@[simp] theorem length_chunks (k n : Nat) (s : List Byte) : (chunks k n s).length = n := by
  induction n generalizing s with
  | zero => rfl
  | succ m ih => simp [chunks, ih]

/-- The pieces of a byte sequence make it up again. -/
theorem flatten_chunks (k n : Nat) (s : List Byte) (h : s.length ≤ k * n) : (chunks k n s).flatten = s := by
  induction n generalizing s with
  | zero => simp at h; simp [chunks, h]
  | succ m ih =>
    rw [chunks, List.flatten_cons, ih (s.drop k), List.take_append_drop]
    rw [List.length_drop]
    rw [Nat.mul_succ] at h
    omega

theorem flatten_blocksOf (s : List Byte) : (blocksOf s).flatten = s :=
  flatten_chunks 16 _ s (by omega)

@[simp] theorem length_sha256 (m : List Byte) : (sha256 m).length = 32 := by simp [sha256]
@[simp] theorem length_hmacSha256 (key data : List Byte) : (hmacSha256 key data).length = 32 := by simp [hmacSha256]
@[simp] theorem length_shiftRows (s : List Byte) : (shiftRows s).length = 16 := by simp [shiftRows]
@[simp] theorem length_invShiftRows (s : List Byte) : (invShiftRows s).length = 16 := by simp [invShiftRows]
@[simp] theorem length_subBytes (s : List Byte) : (subBytes s).length = s.length := by simp [subBytes]
@[simp] theorem length_invSubBytes (s : List Byte) : (invSubBytes s).length = s.length := by simp [invSubBytes]
@[simp] theorem length_mixColumns (s : List Byte) : (mixColumns s).length = 16 := by
  simp [mixColumns, mapColumns, mixColumn, List.range, List.range.loop]
@[simp] theorem length_invMixColumns (s : List Byte) : (invMixColumns s).length = 16 := by
  simp [invMixColumns, mapColumns, invMixColumn, List.range, List.range.loop]
@[simp] theorem length_intBlock (v : BitVec 128) : (intBlock v).length = 16 := by simp [intBlock]
@[simp] theorem length_ghash (h d : List Byte) : (ghash h d).length = 16 := by simp [ghash]

@[simp] theorem length_cbcPad (p : List Byte) : (cbcPad p).length = 16 * (p.length / 16 + 1) := by
  simp only [cbcPad, List.length_append, length_rep]
  omega

/-- No cipher output is longer than a block. -/
theorem length_aesEncryptBlock_le (key input : List Byte) : (aesEncryptBlock key input).length ≤ 16 := by
  simp [aesEncryptBlock, addRoundKey]

/-- The counter mode never lengthens its input. -/
theorem length_gctrBlocks_le (key cb : List Byte) (blocks : List (List Byte)) :
    (gctrBlocks key cb blocks).length ≤ blocks.flatten.length := by
  induction blocks generalizing cb with
  | nil => simp [gctrBlocks]
  | cons x rest ih =>
    have := ih (inc32 cb)
    simp only [gctrBlocks, List.length_append, length_xorBytes, List.flatten_cons]
    omega

theorem length_gctr_le (key icb x : List Byte) : (gctr key icb x).length ≤ x.length := by
  have := length_gctrBlocks_le key icb (blocksOf x)
  rw [flatten_blocksOf] at this
  exact this

@[simp] theorem State.length_arrayBytes (s : State) (c : Nat) (r : ArrayReg) (n : Nat) :
    (s.arrayBytes c r n).length = n := by simp [State.arrayBytes]
@[simp] theorem State.length_keyOperand (s : State) (c : Nat) :
    (s.keyOperand c).length = (s.channel c).keyLen.toNat := by simp [State.keyOperand]
@[simp] theorem State.length_dataOperand (s : State) (c : Nat) :
    (s.dataOperand c).length = (s.channel c).dinLen.toNat := by simp [State.dataOperand]
@[simp] theorem State.length_expectedTag (s : State) (c : Nat) :
    (s.expectedTag c).length = (s.channel c).xtagLen.toNat := by simp [State.expectedTag]
@[simp] theorem State.length_output (s : State) (c : Nat) :
    (s.output c).length = (s.channel c).doutLen.toNat := by simp [State.output]

end Sys2Proof.Machine
end

