-- ==== Sys2Proof/Laws/Engine.lean ====
section
/-! SUPPORT. Everything a command's rule can do, and everything a step can do. -/

namespace Sys2Proof.Machine

/-- The state after `n` bytes were drawn (R111). -/
theorem State.withDraw_cases (s : State) (n : Nat) (next : List Byte → State → RuleResult) :
    (s.Delivers n ∧ s.withDraw n next = next (s.nextRandom n) { s with rsPos := s.rsPos + n, rngInit := true }) ∨
    (s.Starves n ∧ s.withDraw n next = .held) ∨
    (s.Fails n ∧ s.withDraw n next = .raised .entropyUnavailable { s with rngInit := true }) := by
  rcases State.draw_cases s n with ⟨h, e⟩ | ⟨h, e⟩ | ⟨h, e⟩
  · exact Or.inl ⟨h, by simp only [State.withDraw, e]⟩
  · exact Or.inr (Or.inl ⟨h, by simp only [State.withDraw, e]⟩)
  · exact Or.inr (Or.inr ⟨h, by simp only [State.withDraw, e]⟩)

theorem State.withDraw_of_delivers (s : State) (n : Nat) (next : List Byte → State → RuleResult) (h : s.Delivers n) :
    s.withDraw n next = next (s.nextRandom n) { s with rsPos := s.rsPos + n, rngInit := true } := by
  simp only [State.withDraw, State.draw_of_delivers s n h]

theorem State.withDraw_of_starves (s : State) (n : Nat) (next : List Byte → State → RuleResult) (h : s.Starves n) :
    s.withDraw n next = .held := by
  simp only [State.withDraw, State.draw_of_starves s n h]

theorem State.withDraw_of_fails (s : State) (n : Nat) (next : List Byte → State → RuleResult) (h : s.Fails n) :
    s.withDraw n next = .raised .entropyUnavailable { s with rngInit := true } := by
  simp only [State.withDraw, State.draw_of_fails s n h]

/-- What an engine step makes of the end of its rule, where the latch is clear (R96). -/
theorem State.runRule_eq (s : State) (c : Nat) (rule : Nat → State → RuleResult) (hf : s.fatal = false) :
    s.runRule c rule =
      match rule c s with
      | .ended s' => s'.complete c .none
      | .raised e s' => s'.raise c e
      | .held => s := by
  simp only [State.runRule, hf]; rfl

/-- The rule of each command. -/
def ruleOf (i : Instr) : Nat → State → RuleResult :=
  match i with
  | .rngBytes n => genBytes n
  | .genKey bits => genKeyRule bits
  | .genIv => genBytes 16
  | .genNonce => genBytes 12
  | .macCompute => macComputeRule
  | .macVerify => macVerifyRule
  | .cbcEnc => cbcEncRule
  | .cbcDec => cbcDecRule
  | .gcmEnc => gcmEncRule
  | .gcmDec => gcmDecRule

theorem exec_eq_engineStep (i : Instr) (s : State) : exec i s = engineStep (ruleOf i) s := by cases i <;> rfl

theorem exec_eq_next (i : Instr) (s : State) (h : s.active < s.nch) :
    exec i s = .next (s.runRule s.active (ruleOf i)) := by
  rw [exec_eq_engineStep, engineStep_eq _ _ h]

theorem exec_next (i : Instr) (s t : State) (h : exec i s = .next t) :
    s.active < s.nch ∧ t = s.runRule s.active (ruleOf i) := by
  rw [exec_eq_engineStep] at h
  exact engineStep_next _ _ _ h

/-! ### Steps -/

theorem State.pendingWord_eq (s : State) (c : Nat) :
    s.pendingWord c = if c < s.nch ∧ (s.channel c).busy = true then some (s.channel c).cmdReg else none := by
  unfold State.pendingWord
  by_cases h : c < s.nch
  · rw [State.getElem?_channels s c h]; simp [h]
  · have : s.channels[c]? = none := by
      rw [List.getElem?_eq_none_iff]; unfold State.nch at h; omega
    rw [this]; simp [h]

/-- Everything an engine's turn can do (R96): nothing, or the decoded command, or the end of a word that is none. -/
theorem State.engineTurn_cases (s : State) (c : Nat) (a : Answer) :
    ((s.nch ≤ c ∨ (s.channel c).busy = false) ∧ s.engineTurn c a = .next s) ∨
    (c < s.nch ∧ (s.channel c).busy = true ∧ ∃ i, decode (s.channel c).cmdReg = .ok i ∧
      s.engineTurn c a = exec i (s.takeTurn c a)) ∨
    (c < s.nch ∧ (s.channel c).busy = true ∧ ∃ e, decode (s.channel c).cmdReg = .error e ∧
      s.engineTurn c a = .next (illegalWord (s.takeTurn c a))) := by
  unfold State.engineTurn
  rw [State.pendingWord_eq]
  by_cases h : c < s.nch ∧ (s.channel c).busy = true
  · rw [if_pos h]
    cases hd : decode (s.channel c).cmdReg with
    | ok i => exact Or.inr (Or.inl ⟨h.1, h.2, i, rfl, by simp only [hd]⟩)
    | error e => exact Or.inr (Or.inr ⟨h.1, h.2, e, rfl, by simp only [hd]⟩)
  · rw [if_neg h]
    refine Or.inl ⟨?_, rfl⟩
    by_cases hc : c < s.nch
    · right; cases hb : (s.channel c).busy with
      | false => rfl
      | true => exact absurd ⟨hc, hb⟩ h
    · left; omega

/-- Everything a step can do, by the agent whose event is next. -/
theorem step_eq (s : State) :
    step s =
      match s.agenda with
      | [] => .next s
      | .memRead addr n :: rest => .next ((s.popped rest).hostRead addr n)
      | .memWrite addr n v :: rest => .next ((s.popped rest).memWrite addr n v)
      | .engineTurn c a :: rest => (s.popped rest).engineTurn c a
      | .reset source :: rest => .next ((s.popped rest).applyReset source) := by
  unfold step State.popped; rfl

@[simp] theorem State.popped_bufUnits (s : State) (rest : List Event) : (s.popped rest).bufUnits = s.bufUnits := rfl
@[simp] theorem State.popped_channels (s : State) (rest : List Event) : (s.popped rest).channels = s.channels := rfl
@[simp] theorem State.popped_mem (s : State) (rest : List Event) : (s.popped rest).mem = s.mem := rfl
@[simp] theorem State.popped_rsPos (s : State) (rest : List Event) : (s.popped rest).rsPos = s.rsPos := rfl
@[simp] theorem State.popped_rngInit (s : State) (rest : List Event) : (s.popped rest).rngInit = s.rngInit := rfl
@[simp] theorem State.popped_fatal (s : State) (rest : List Event) : (s.popped rest).fatal = s.fatal := rfl
@[simp] theorem State.popped_source (s : State) (rest : List Event) : (s.popped rest).source = s.source := rfl
@[simp] theorem State.popped_active (s : State) (rest : List Event) : (s.popped rest).active = s.active := rfl
@[simp] theorem State.popped_answer (s : State) (rest : List Event) : (s.popped rest).answer = s.answer := rfl
@[simp] theorem State.popped_agenda (s : State) (rest : List Event) : (s.popped rest).agenda = rest := rfl
@[simp] theorem State.popped_replies (s : State) (rest : List Event) : (s.popped rest).replies = s.replies := rfl
@[simp] theorem State.popped_nch (s : State) (rest : List Event) : (s.popped rest).nch = s.nch := rfl
@[simp] theorem State.popped_bufMax (s : State) (rest : List Event) : (s.popped rest).bufMax = s.bufMax := rfl
@[simp] theorem State.popped_channel (s : State) (rest : List Event) (c : Nat) :
    (s.popped rest).channel c = s.channel c := rfl
@[simp] theorem State.takeTurn_popped (s : State) (rest : List Event) (c : Nat) (a : Answer) :
    (s.popped rest).takeTurn c a = s.turn c a rest := rfl

/-- After the reset input every channel is as after reset (R280). -/
theorem State.channel_applyReset (s : State) (source : Source) (c : Nat) :
    (s.applyReset source).channel c = Channel.reset := by
  simp only [State.channel, State.applyReset, State.resetWith, List.getD_eq_getElem?_getD, List.getElem?_replicate]
  split <;> rfl

@[simp] theorem State.nch_applyReset (s : State) (source : Source) : (s.applyReset source).nch = s.nch := by
  simp [State.nch, State.applyReset, State.resetWith]

end Sys2Proof.Machine
end

