-- ==== Sys2Proof/Laws/Host.lean ====
section
/-! SUPPORT. What a host access meets, and everything it can do. -/

namespace Sys2Proof.Machine

/-! ### The register map -/

theorem channelStride_eq : Config.channelStride = 262144 := rfl

theorem ArrayReg.size_le (bufMax : Nat) (h : bufMax ≤ 65536) (r : ArrayReg) : r.offset + r.size bufMax ≤ 0x30000 := by
  cases r <;> simp only [ArrayReg.offset, ArrayReg.size, Config.xtagMax, Config.keyMax] <;> omega

/-- A byte array lies inside its channel's window (R60, R61). -/
theorem ArrayReg.within_channel (s : State) (r : ArrayReg) (k : Nat) (h : k < r.size s.bufMax) :
    0x40 ≤ r.offset + k ∧ r.offset + k < Config.channelStride := by
  have h1 := ArrayReg.size_le s.bufMax s.bufMax_range.2.2 r
  have h2 : 0x40 ≤ r.offset := by cases r <;> simp [ArrayReg.offset]
  rw [channelStride_eq]
  omega

/-- Different byte arrays have no byte in common (R61). -/
theorem arrays_disjoint (s : State) (c d : Nat) (r q : ArrayReg) (j k : Nat) (hj : j < r.size s.bufMax)
    (hk : k < q.size s.bufMax) (h : arrayBase c r + j = arrayBase d q + k) : c = d ∧ r = q ∧ j = k := by
  have h1 := ArrayReg.within_channel s r j hj
  have h2 := ArrayReg.within_channel s q k hk
  have hb := s.bufMax_range.2.2
  unfold arrayBase at h
  rw [channelStride_eq] at h h1 h2
  have hcd : c = d := by omega
  subst hcd
  have hrq : r = q := by
    revert hj hk h
    cases r <;> cases q <;> simp only [ArrayReg.offset, ArrayReg.size, Config.xtagMax, Config.keyMax] <;> intros <;>
      first | trivial | (exfalso; omega)
  subst hrq
  refine ⟨rfl, rfl, ?_⟩
  omega

/-- No byte of a control word is at a reserved offset (R61). -/
theorem WordReg.not_reserved (bufMax : Nat) (r : WordReg) (k : Nat) (hk : k < 4) :
    ¬ ReservedOffset bufMax (r.offset + k) := by
  cases r <;> simp only [WordReg.offset, ReservedOffset] <;> omega

/-- No implemented byte of a byte array is at a reserved offset (R61). -/
theorem ArrayReg.not_reserved (bufMax : Nat) (h : bufMax ≤ 65536) (r : ArrayReg) (k : Nat) (hk : k < r.size bufMax) :
    ¬ ReservedOffset bufMax (r.offset + k) := by
  revert hk
  cases r <;> simp only [ArrayReg.offset, ArrayReg.size, ReservedOffset, Config.xtagMax, Config.keyMax] <;> omega

theorem arrayAt_sound (bufMax off n : Nat) (r : ArrayReg) (h : arrayAt bufMax off n = some r) :
    r.offset ≤ off ∧ off + n ≤ r.offset + r.size bufMax := by
  have := List.find?_some h
  simpa using this

theorem arrayAt_complete (bufMax off n : Nat) (r : ArrayReg) (hb : bufMax ≤ 65536) (hn : 0 < n) (h1 : r.offset ≤ off)
    (h2 : off + n ≤ r.offset + r.size bufMax) : arrayAt bufMax off n = some r := by
  have hall : ∀ q : ArrayReg, q.offset ≤ off → off + n ≤ q.offset + q.size bufMax → q = r := by
    intro q
    revert h1 h2
    cases r <;> cases q <;> simp only [ArrayReg.offset, ArrayReg.size, Config.xtagMax, Config.keyMax] <;> intros <;>
      first | trivial | (exfalso; omega)
  cases ha : arrayAt bufMax off n with
  | some q => have := arrayAt_sound _ _ _ _ ha; rw [hall q this.1 this.2]
  | none =>
    have hm : r ∈ arrayRegs := by cases r <;> simp [arrayRegs]
    have := List.find?_eq_none.mp ha r hm
    simp [h1, h2] at this

theorem wordAt_sound (off : Nat) (r : WordReg) (h : wordAt off = some r) : r.offset = off := by
  have := List.find?_some h
  simpa using this

theorem wordAt_offset (r : WordReg) : wordAt r.offset = some r := by cases r <;> rfl

theorem WordReg.offset_lt (r : WordReg) : r.offset < 0x20 ∧ r.offset % 4 = 0 := by cases r <;> simp [WordReg.offset]

/-- An access of 4 bytes at a control word's offset meets that control word (R62). -/
theorem State.target_word (s : State) (c : Nat) (r : WordReg) (h : c < s.nch) :
    s.target (wordAddr c r) 4 = some (.word c r) := by
  have hr := WordReg.offset_lt r
  have h1 : wordAddr c r / Config.channelStride = c := by rw [wordAddr, channelStride_eq]; omega
  have h2 : wordAddr c r % Config.channelStride = r.offset := by rw [wordAddr, channelStride_eq]; omega
  have h3 : wordAddr c r % 4 = 0 := by rw [wordAddr, channelStride_eq]; omega
  have h4 : arrayAt s.bufMax r.offset 4 = none := by
    cases ha : arrayAt s.bufMax r.offset 4 with
    | none => rfl
    | some q =>
      have := (arrayAt_sound _ _ _ _ ha).1
      have hq : 0x40 ≤ q.offset := by cases q <;> simp [ArrayReg.offset]
      omega
  simp only [State.target, h1, h2, h3, h, h4, wordAt_offset]
  simp

/-- An aligned access inside a byte array meets that byte array (R63). -/
theorem State.target_bytes (s : State) (c : Nat) (r : ArrayReg) (k n : Nat) (h : c < s.nch)
    (hn : n = 1 ∨ n = 2 ∨ n = 4) (hk : k % n = 0) (hle : k + n ≤ r.size s.bufMax) :
    s.target (arrayBase c r + k) n = some (.bytes c r) := by
  have hw := ArrayReg.within_channel s r k (by omega)
  have h1 : (arrayBase c r + k) / Config.channelStride = c := by
    rw [channelStride_eq] at hw ⊢; rw [arrayBase, channelStride_eq]; omega
  have h2 : (arrayBase c r + k) % Config.channelStride = r.offset + k := by
    rw [channelStride_eq] at hw ⊢; rw [arrayBase, channelStride_eq]; omega
  have ho : r.offset % 64 = 0 := by cases r <;> rfl
  have h3 : (arrayBase c r + k) % n = 0 := by
    rw [arrayBase, channelStride_eq]
    rcases hn with rfl | rfl | rfl <;> omega
  have h4 := arrayAt_complete s.bufMax (r.offset + k) n r s.bufMax_range.2.2 (by omega) (by omega) (by omega)
  simp only [State.target, h1, h2, h3, h, h4, hn]
  simp

/-- Everything an access can meet (R62, R63, R65, R66). -/
theorem State.target_cases (s : State) (addr n : Nat) :
    s.target addr n = none ∨
    (∃ r, s.target addr n = some (.word (addr / Config.channelStride) r) ∧ addr / Config.channelStride < s.nch ∧
      n = 4 ∧ addr = wordAddr (addr / Config.channelStride) r) ∨
    (∃ r k, s.target addr n = some (.bytes (addr / Config.channelStride) r) ∧ addr / Config.channelStride < s.nch ∧
      (n = 1 ∨ n = 2 ∨ n = 4) ∧ k % n = 0 ∧ addr = arrayBase (addr / Config.channelStride) r + k ∧
      k + n ≤ r.size s.bufMax) := by
  by_cases h : addr / Config.channelStride < s.nch ∧ (n = 1 ∨ n = 2 ∨ n = 4) ∧ addr % n = 0
  · have hdm := Nat.div_add_mod addr Config.channelStride
    cases ha : arrayAt s.bufMax (addr % Config.channelStride) n with
    | some r =>
      right; right
      have hs := arrayAt_sound _ _ _ _ ha
      refine ⟨r, addr % Config.channelStride - r.offset, ?_, h.1, h.2.1, ?_, ?_, ?_⟩
      · simp only [State.target, ha]; rw [if_pos h]
      · have ho : r.offset % 64 = 0 := by cases r <;> rfl
        rw [channelStride_eq] at hdm hs ⊢
        rcases h.2.1 with rfl | rfl | rfl <;> omega
      · rw [arrayBase, channelStride_eq]; rw [channelStride_eq] at hdm hs; omega
      · omega
    | none =>
      by_cases hn : n = 4
      · cases hw : wordAt (addr % Config.channelStride) with
        | none => left; subst hn; simp only [State.target, ha, hw]; simp
        | some r =>
          right; left
          refine ⟨r, ?_, h.1, hn, ?_⟩
          · simp only [State.target, ha, hw]; rw [if_pos h, if_pos hn]; rfl
          · have := wordAt_sound _ _ hw
            rw [wordAddr, channelStride_eq]; rw [channelStride_eq] at hdm this; omega
      · left; simp only [State.target, ha, hn]; simp
  · left; simp only [State.target]; rw [if_neg h]

/-! ### Everything a host access does -/

theorem State.memRead_of_none (s : State) (addr n : Nat) (h : s.target addr n = none) : s.memRead addr n = 0#32 := by
  unfold State.memRead; rw [h]

theorem State.memRead_of_word (s : State) (addr n c : Nat) (r : WordReg) (h : s.target addr n = some (.word c r)) :
    s.memRead addr n = if (s.channel c).busy && !r.readableBusy then 0#32 else s.wordValue c r := by
  unfold State.memRead; rw [h]

theorem State.memRead_of_bytes (s : State) (addr n c : Nat) (r : ArrayReg) (h : s.target addr n = some (.bytes c r)) :
    s.memRead addr n = if (s.channel c).busy || !r.readable then 0#32 else s.mem.readLE addr n := by
  unfold State.memRead; rw [h]

theorem State.memWrite_of_none (s : State) (addr n : Nat) (v : Word) (h : s.target addr n = none) :
    s.memWrite addr n v = s := by
  unfold State.memWrite; rw [h]

theorem State.memWrite_of_word (s : State) (addr n c : Nat) (r : WordReg) (v : Word)
    (h : s.target addr n = some (.word c r)) :
    s.memWrite addr n v = if (s.channel c).busy then s else s.writeWord c r v := by
  unfold State.memWrite; rw [h]

theorem State.memWrite_of_bytes (s : State) (addr n c : Nat) (r : ArrayReg) (v : Word)
    (h : s.target addr n = some (.bytes c r)) :
    s.memWrite addr n v =
      if (s.channel c).busy || !r.writable then s else { s with mem := s.mem.writeLE addr n v } := by
  unfold State.memWrite; rw [h]

/-- Everything a host write can do (R66, R68, R70, R95): nothing, a control word write, or a write of bytes of an operand
array. -/
theorem State.memWrite_cases (s : State) (addr n : Nat) (v : Word) :
    s.memWrite addr n v = s ∨
    (∃ c r, c = addr / Config.channelStride ∧ c < s.nch ∧ (s.channel c).busy = false ∧
      s.memWrite addr n v = s.writeWord c r v) ∨
    (∃ c r k, c = addr / Config.channelStride ∧ c < s.nch ∧ (s.channel c).busy = false ∧ r.writable = true ∧
      addr = arrayBase c r + k ∧ k + n ≤ r.size s.bufMax ∧
      s.memWrite addr n v = { s with mem := s.mem.writeLE addr n v }) := by
  rcases State.target_cases s addr n with h | ⟨r, h, hc, hn, ha⟩ | ⟨r, k, h, hc, hn, hk, ha, hle⟩
  · exact Or.inl (State.memWrite_of_none s addr n v h)
  · have hm := State.memWrite_of_word s addr n _ r v h
    cases hb : (s.channel (addr / Config.channelStride)).busy with
    | true => left; rw [hm, hb]; rfl
    | false => right; left; exact ⟨_, r, rfl, hc, hb, by rw [hm, hb]; rfl⟩
  · have hm := State.memWrite_of_bytes s addr n _ r v h
    cases hb : (s.channel (addr / Config.channelStride)).busy with
    | true => left; rw [hm, hb]; rfl
    | false =>
      cases hw : r.writable with
      | false => left; rw [hm, hb, hw]; rfl
      | true => right; right; exact ⟨_, r, k, rfl, hc, hb, hw, ha, hle, by rw [hm, hb, hw]; rfl⟩

/-- Everything a control word write can do: nothing, or a change of that channel's control words (R68, R95). -/
theorem State.writeWord_cases (s : State) (c : Nat) (r : WordReg) (v : Word) :
    s.writeWord c r v = s ∨
    (r = .cmd ∧ s.fatal = true ∧ s.writeWord c r v = s.updateChannel c Channel.refuseFatal) ∨
    (r = .cmd ∧ s.fatal = false ∧ s.writeWord c r v = s.updateChannel c (Channel.accept v)) ∨
    (r = .keyLen ∧ v.toNat ≤ Config.keyMax ∧
      s.writeWord c r v = s.updateChannel c fun ch => { ch with keyLen := v }) ∨
    (r = .dinLen ∧ v.toNat ≤ s.bufMax ∧
      s.writeWord c r v = s.updateChannel c fun ch => { ch with dinLen := v }) ∨
    (r = .xtagLen ∧ v.toNat ≤ Config.xtagMax ∧
      s.writeWord c r v = s.updateChannel c fun ch => { ch with xtagLen := v }) := by
  cases r with
  | cmd => cases hf : s.fatal <;> simp [State.writeWord, State.writeCmd, hf]
  | keyLen => by_cases h : v.toNat ≤ Config.keyMax <;> simp [State.writeWord, h]
  | dinLen => by_cases h : v.toNat ≤ s.bufMax <;> simp [State.writeWord, h]
  | xtagLen => by_cases h : v.toNat ≤ Config.xtagMax <;> simp [State.writeWord, h]
  | status => simp [State.writeWord]
  | doutLen => simp [State.writeWord]
  | caps0 => simp [State.writeWord]
  | caps1 => simp [State.writeWord]

end Sys2Proof.Machine
end

