-- ==== Sys2Proof/Laws/PerInstr.lean ====
section
/-! SUPPORT. Families of facts about every command as syntax, one lemma per constructor. -/

namespace Sys2Proof.Laws

/-- The encoding of a command is a legal word (spec 30_encoding.md R97), its `RSV` zero (R90). -/
def EncodeLegal.Statement (i : Instr) : Prop :=
  i.wellFormed = true → legal (encode i) = true ∧ rsvField (encode i) = 0#8

theorem rsvField_commandWord (arg : Nat) (op : BitVec 8) : rsvField (commandWord arg op) = 0#8 := by
  apply BitVec.eq_of_getLsbD_eq
  intro i hi
  simp only [rsvField, commandWord, BitVec.getLsbD_extractLsb', BitVec.getLsbD_append, BitVec.getLsbD_zero]
  have h1 : ¬ 8 + i < 8 := by omega
  have h2 : 8 + i < 8 + 8 := by omega
  simp [hi]

theorem opField_commandWord (arg : Nat) (op : BitVec 8) : opField (commandWord arg op) = op := by
  apply BitVec.eq_of_getLsbD_eq
  intro i hi
  simp only [opField, commandWord, BitVec.getLsbD_extractLsb', BitVec.getLsbD_append]
  simp [hi]

theorem EncodeLegal.rngBytes (n : Nat) : EncodeLegal.Statement (.rngBytes n) := fun _ =>
  ⟨by simp [legal, encode, rsvField_commandWord, opField_commandWord], rsvField_commandWord n _⟩
theorem EncodeLegal.genKey (bits : Nat) : EncodeLegal.Statement (.genKey bits) := fun _ =>
  ⟨by simp [legal, encode, rsvField_commandWord, opField_commandWord], rsvField_commandWord bits _⟩
theorem EncodeLegal.genIv : EncodeLegal.Statement .genIv := fun _ => ⟨by decide, by decide⟩
theorem EncodeLegal.genNonce : EncodeLegal.Statement .genNonce := fun _ => ⟨by decide, by decide⟩
theorem EncodeLegal.macCompute : EncodeLegal.Statement .macCompute := fun _ => ⟨by decide, by decide⟩
theorem EncodeLegal.macVerify : EncodeLegal.Statement .macVerify := fun _ => ⟨by decide, by decide⟩
theorem EncodeLegal.cbcEnc : EncodeLegal.Statement .cbcEnc := fun _ => ⟨by decide, by decide⟩
theorem EncodeLegal.cbcDec : EncodeLegal.Statement .cbcDec := fun _ => ⟨by decide, by decide⟩
theorem EncodeLegal.gcmEnc : EncodeLegal.Statement .gcmEnc := fun _ => ⟨by decide, by decide⟩
theorem EncodeLegal.gcmDec : EncodeLegal.Statement .gcmDec := fun _ => ⟨by decide, by decide⟩

end Sys2Proof.Laws
end

