-- ==== Sys2Proof/Tests/Slice0.lean ====
section
/-! SUPPORT. Tests on fixed values, each expected value taken from the spec (95_test_vectors.md where the comment gives a
V, P or S number, a rule's example otherwise), and for each statement with hypotheses a state that meets them. -/

namespace Sys2Proof.Tests

/-! The theorems below are checked one after another: each needs the kernel, and all at once would need a thread each. -/
set_option Elab.async false

open Sys2Proof Sys2Proof.Machine

/-! ### Small states -/

/-- The stream of the spec's vectors as far as the tests draw: byte `i` is `i`. -/
def counting : Source := { stream := 0, feed := (List.range 48).map (BitVec.ofNat 8), limit := none }

/-- Two idle channels, `BUF_MAX` 32. -/
def idle : State := State.resetWith 0 2 counting

/-- One idle channel, `BUF_MAX` 4096, as the vectors use it. -/
def idle4096 : State := State.resetWith 254 1 counting

/-- A state with byte array `r` of channel 0 holding `bytes` and, by `f`, its length register written. -/
def holding (s : State) (r : ArrayReg) (bytes : List Byte) (f : Channel → Channel) : State :=
  (s.writeArray 0 r bytes).updateChannel 0 f

/-- A key loaded into channel 0. -/
def withKey (s : State) (bytes : List Byte) : State :=
  holding s .key bytes fun ch => { ch with keyLen := BitVec.ofNat 32 bytes.length }

/-- An input message loaded into channel 0. -/
def withDin (s : State) (bytes : List Byte) : State :=
  holding s .din bytes fun ch => { ch with dinLen := BitVec.ofNat 32 bytes.length }

/-- An expected tag loaded into channel 0. -/
def withXtag (s : State) (bytes : List Byte) : State :=
  holding s .xtag bytes fun ch => { ch with xtagLen := BitVec.ofNat 32 bytes.length }

/-- Command word `w` accepted on channel `c`. -/
def busyOn (s : State) (c : Nat) (w : Word) : State := s.updateChannel c (Channel.accept w)

/-- A state in which `e` is the next event. -/
def facing (s : State) (e : Event) : State := { s with agenda := [e] }

/-- The state an outcome gives, and `idle` where it gives none. -/
def nextOf (o : Host.Outcome State Fault Refusal) : State :=
  match o with
  | .next t => t
  | _ => idle

/-- `STATUS` of channel 0 as the host reads it. -/
def status (s : State) : Word := s.memRead 0x4 4

/-! ### Well-formedness, and words written out bit by bit from the fields of R90: ARG, RSV, OP -/

theorem test_wellFormed_rngBytes : (Instr.rngBytes 65535).wellFormed = true ∧ (Instr.rngBytes 65536).wellFormed = false := by
  decide
theorem test_wellFormed_genKey : (Instr.genKey 65535).wellFormed = true ∧ (Instr.genKey 65536).wellFormed = false := by
  decide

theorem test_decode_rngBytes : decode 0b00000000000001010000000000000001#32 = .ok (.rngBytes 5) := by decide
theorem test_decode_genKey : decode 0b00000001000000000000000000000010#32 = .ok (.genKey 256) := by decide
theorem test_decode_genIv : decode 0b00000000000000000000000000000011#32 = .ok .genIv := by decide
theorem test_decode_genNonce : decode 0b00000000000000000000000000000100#32 = .ok .genNonce := by decide
theorem test_decode_macCompute : decode 0b00000000000000000000000000010000#32 = .ok .macCompute := by decide
theorem test_decode_macVerify : decode 0b00000000000000000000000000010001#32 = .ok .macVerify := by decide
theorem test_decode_cbcEnc : decode 0b00000000000000000000000000100000#32 = .ok .cbcEnc := by decide
theorem test_decode_cbcDec : decode 0b00000000000000000000000000100001#32 = .ok .cbcDec := by decide
theorem test_decode_gcmEnc : decode 0b00000000000000000000000000110000#32 = .ok .gcmEnc := by decide
theorem test_decode_gcmDec : decode 0b00000000000000000000000000110001#32 = .ok .gcmDec := by decide
/-- V3.43 to V3.46. -/
theorem test_decode_illegal :
    decode 0x00000012#32 = .error .unknownOpcode ∧ decode 0x00008001#32 = .error .reservedField ∧
    decode 0xFFFF0031#32 = .error .argNotZero ∧ decode 0xFFFF0001#32 = .ok (.rngBytes 65535) := by decide
/-- R113, R114: the words of `RNG_BYTES, 5` and `GEN_KEY, 256`. -/
theorem test_encode : encode (.rngBytes 5) = 0x00050001#32 ∧ encode (.genKey 256) = 0x01000002#32 ∧
    encode .gcmDec = 0x00000031#32 := by decide
theorem test_decodeTableWord : decodeTableWord 32 0x000C0002 = some (.genKey 12) ∧
    decodeTableWord 32 0x00000103 = none := by decide
/-- The first instruction after reset, on the reset state itself. -/
theorem test_withFetchWord : (State.reset.withFetchWord 32 0x10).pendingWord 0 = some 0x10#32 := rfl

/-! ### The algorithms, on the examples of their rules -/

/-- R135: `Sha256(abc)`. -/
theorem test_sha256 : sha256 [0x61#8, 0x62#8, 0x63#8] =
    beBytes 32 0xba7816bf8f01cfea414140de5dae2223b00361a396177a9cb410ff61f20015ad := by decide +kernel
/-- R167: the columns of the example. -/
theorem test_mixColumn : mixColumn 0xdb#8 0x13#8 0x53#8 0x45#8 = [0x8e#8, 0x4d#8, 0xa1#8, 0xbc#8] := by decide +kernel
/-- R165: `w[43]` of the 16-byte example key. -/
theorem test_keyExpansion :
    (keyExpansion (beBytes 16 0x2b7e151628aed2a6abf7158809cf4f3c)).getD 43 [] = beBytes 4 0xb6630ca6 := by decide +kernel
/-- R168: a 32-byte key. -/
theorem test_aesEncryptBlock :
    aesEncryptBlock (beBytes 32 0x000102030405060708090a0b0c0d0e0f101112131415161718191a1b1c1d1e1f)
      (beBytes 16 0x00112233445566778899aabbccddeeff) = beBytes 16 0x8ea2b7ca516745bfeafc49904b496089 := by decide +kernel
/-- R170. -/
theorem test_aesDecryptBlock :
    aesDecryptBlock (beBytes 16 0x000102030405060708090a0b0c0d0e0f) (beBytes 16 0x69c4e0d86a7b0430d8cdb78070b4c55a) =
      beBytes 16 0x00112233445566778899aabbccddeeff := by decide +kernel
/-- R191: one-byte padding, and a padding byte of 17. -/
theorem test_cbcUnpad : cbcUnpad (zeros 15 ++ [0x01#8]) = some (zeros 15) ∧ cbcUnpad (zeros 15 ++ [0x11#8]) = none := by
  decide
/-- R192: the two blocks of the example. -/
theorem test_cbcEncryptRaw :
    cbcEncryptRaw (beBytes 16 0x2b7e151628aed2a6abf7158809cf4f3c) (beBytes 16 0x000102030405060708090a0b0c0d0e0f)
      (beBytes 32 0x6bc1bee22e409f96e93d7e117393172aae2d8a571e03ac9c9eb76fac45af8e51) =
      beBytes 32 0x7649abac8119b246cee98e9b12e9197d5086cb9b507219ee95db113a917678b2 := by decide +kernel
/-- R211. -/
theorem test_gf128Mul : gf128Mul 1#128 1#128 = 0xE6080000000000000000000000000003#128 ∧
    gf128Mul 1#128 (1#128 <<< 126) = 0xE1000000000000000000000000000000#128 := by decide +kernel
/-- R217, example (2). -/
theorem test_gcmTag :
    gcmTag (zeros 16) (zeros 12) (beBytes 16 0x0388dace60b6a392f328c2b971b2fe78) =
      beBytes 16 0xab6e47d42cec13bdf53a67b21257bddf := by decide +kernel
/-- R145: an expected tag that is too short never matches. -/
theorem test_ctEqual : ctEqual (zeros 32) (zeros 32) 32 = true ∧ ctEqual (zeros 32) (zeros 31) 32 = false := by decide

/-! ### The commands, on the examples of their rules -/

/-- R113. -/
theorem test_rngBytes :
    let t := nextOf (exec (.rngBytes 5) idle)
    t.output 0 = beBytes 5 0x0001020304 ∧ t.rsPos = 5 ∧ status t = 0x2#32 := by decide +kernel
/-- R114. -/
theorem test_genKey :
    let t := nextOf (exec (.genKey 256) idle)
    t.output 0 = beBytes 32 0x000102030405060708090a0b0c0d0e0f101112131415161718191a1b1c1d1e1f ∧ t.rsPos = 32 := by
  decide +kernel
/-- R114: `GEN_KEY, 12`. -/
theorem test_genKey_illegal :
    let t := nextOf (exec (.genKey 12) idle)
    status t = 0x502#32 ∧ t.rsPos = 0 := by decide +kernel
/-- R115, with `rs_pos` 32. -/
theorem test_genIv : (nextOf (exec .genIv { idle with rsPos := 32 })).output 0 =
    beBytes 16 0x202122232425262728292a2b2c2d2e2f := by decide +kernel
/-- R116, with `rs_pos` 32. -/
theorem test_genNonce : (nextOf (exec .genNonce { idle with rsPos := 32 })).output 0 =
    beBytes 12 0x202122232425262728292a2b := by decide +kernel
/-- P3 line 13: the failed draw. -/
theorem test_draw_fails :
    status (nextOf (exec .genIv { idle with source := { counting with limit := some 15 } })) = 0x40a#32 := by decide +kernel
/-- R150: the key "Jefe". -/
theorem test_macCompute :
    (nextOf (exec .macCompute (withKey (withDin idle
      (beBytes 28 0x7768617420646f2079612077616e7420666f72206e6f7468696e673f)) (beBytes 4 0x4a656665)))).tagBytes 0 =
      beBytes 32 0x5bdcc146bf60754e6a042426089575c75a003f089d2739839dec58b964ec3843 := by decide +kernel
/-- R150, R151: the tag of the empty message under the empty key. -/
theorem test_macVerify :
    status (nextOf (exec .macVerify (withXtag idle
      (beBytes 32 0xb613679a0814d9ec772f95d778c35fc5ff1697c493715653c6c712144292c5ad)))) = 0x6#32 := by decide +kernel
/-- R151: 31 bytes of it. -/
theorem test_macVerify_short :
    status (nextOf (exec .macVerify (withXtag idle
      (beBytes 31 0xb613679a0814d9ec772f95d778c35fc5ff1697c493715653c6c712144292c5)))) = 0x2#32 := by decide +kernel

/-- The channel of R201's example. -/
def cbcExample : State :=
  (withDin (withKey idle (zeros 32)) (beBytes 32 0xcd8f364116be8bfa93523b7924f046c05bbf44d53db6dae4dfaccddfbf184273)).writeArray
    0 .ivn (beBytes 16 0x000102030405060708090a0b0c0d0e0f)

/-- P1 step 4, R201: the envelope of "This is the CBC test" under a zero key and the IV 00 to 0f. -/
theorem test_cbcEnc :
    let t := nextOf (exec .cbcEnc (withDin (withKey idle (zeros 32)) (beBytes 20 0x5468697320697320746865204342432074657374)))
    t.cbcEnvelope 0 = ⟨beBytes 32 0xcd8f364116be8bfa93523b7924f046c05bbf44d53db6dae4dfaccddfbf184273,
      beBytes 16 0x000102030405060708090a0b0c0d0e0f⟩ ∧ status t = 0x2#32 := by decide +kernel
/-- R201. -/
theorem test_cbcDec : (nextOf (exec .cbcDec cbcExample)).output 0 = beBytes 20 0x5468697320697320746865204342432074657374 := by
  decide +kernel
/-- P5 step 2: a flipped bit of the last padding byte. -/
theorem test_cbcDec_padding :
    status (nextOf (exec .cbcDec (cbcExample.writeArray 0 .din
      (beBytes 16 0xcd8f364116be8bfa93523b7924f046c1)))) = 0x202#32 := by decide +kernel

/-- The key 00 to 1f of R222's example. -/
def gcmKey : List Byte := (List.range 32).map (BitVec.ofNat 8)

/-- The envelope ciphertext of R222's example. -/
def gcmCiphertext : List Byte :=
  beBytes 36 0x136abf68e58cb13bf929f2abf6aa354df7b3f44042ceffb676f681ece5c1c461cf8f68a7

/-- R222. -/
theorem test_gcmEnc :
    let t := nextOf (exec .gcmEnc (withDin (withKey idle4096 gcmKey) (beBytes 20 0x54686973206973207468652047434d2074657374)))
    t.output 0 = gcmCiphertext ∧ t.ivOperand 0 = beBytes 16 0x000102030405060708090a0b00000000 := by decide +kernel

/-- The channel of R223's example. -/
def gcmExample : State :=
  (withDin (withKey idle4096 gcmKey) gcmCiphertext).writeArray 0 .ivn (beBytes 12 0x000102030405060708090a0b)

/-- R223. -/
theorem test_gcmDec :
    (nextOf (exec .gcmDec gcmExample)).output 0 = beBytes 20 0x54686973206973207468652047434d2074657374 := by decide +kernel
/-- R223: `DIN[0]` changed from 13 to 12. -/
theorem test_gcmDec_tampered :
    let t := nextOf (exec .gcmDec (gcmExample.writeArray 0 .din [0x12#8]))
    status t = 0x302#32 ∧ t.output 0 = [] := by decide +kernel

/-! ### The host port -/

/-- V3.1, V3.2, V3.3. -/
theorem test_littleEndian :
    let s := idle.writeArray 0 .ivn [0x00#8, 0x11#8, 0x22#8, 0x33#8]
    s.memRead 0xC0 4 = 0x33221100#32 ∧ s.memRead 0xC2 2 = 0x3322#32 ∧ s.memRead 0xC1 2 = 0#32 := by decide +kernel
/-- V3.4. -/
theorem test_write4 : (idle.memWrite 0xC4 4 0xAABBCCDD#32).ivOperand 0 =
    zeros 4 ++ [0xdd#8, 0xcc#8, 0xbb#8, 0xaa#8] ++ zeros 8 := by decide +kernel
/-- V3.8: `KEY` is stored and reads as 0. -/
theorem test_key_writeOnly :
    let s := idle.memWrite 0x100 1 0x5A#32
    s.memRead 0x100 1 = 0#32 ∧ s.mem.read 0x100 = 0x5A#8 := by decide +kernel
/-- V3.11, V3.16: read-only registers and the absent channel. -/
theorem test_refused_writes :
    idle4096.memWrite 0x04 4 0xFFFFFFFF#32 = idle4096 ∧ idle4096.memWrite 0x40000 4 3#32 = idle4096 := by decide +kernel
/-- V3.13, V3.14: the last implemented byte of `DIN` and the first reserved one. -/
theorem test_din_edge :
    (idle4096.memWrite 0x10FFF 1 0x77#32).memRead 0x10FFC 4 = 0x77000000#32 ∧
    idle4096.memWrite 0x11000 1 0x77#32 = idle4096 := by decide +kernel
/-- V3.30 to V3.34: while a draw is starved. -/
theorem test_busy :
    let s := nextOf (step (facing (busyOn idle4096 0 0x3#32) (.engineTurn 0 .starved)))
    status s = 0x1#32 ∧ s.memRead 0x10 4 = 0#32 ∧ s.memWrite 0x0 4 0x4#32 = s ∧ s.memRead 0x18 4 = 0x1000#32 := by
  decide +kernel
/-- P4, second row: channel 1 first. -/
theorem test_p4 :
    let s := { busyOn (busyOn idle 0 0x3#32) 1 0x4#32 with agenda := [.engineTurn 1 .deliver, .engineTurn 0 .deliver] }
    let t := nextOf (step (nextOf (step s)))
    t.output 0 = beBytes 16 0x0c0d0e0f101112131415161718191a1b ∧ t.output 1 = beBytes 12 0x000102030405060708090a0b ∧
    t.rsPos = 28 := by decide +kernel
/-- R249 (b): a `CMD` write under the latch. -/
theorem test_cmd_fatal : status ({ idle with fatal := true }.memWrite 0x0 4 0x10#32) = 0x40a#32 := by decide +kernel

/-! ### A check of the invariant that evaluates -/

/-- The byte arrays a host may write. -/
def operandRegs : List ArrayReg := [.xtag, .ivn, .key, .din]

/-- `Channel.Inv`, as a Bool. -/
def channelOk (bufMax : Nat) (ch : Channel) : Bool :=
  decide (ch.keyLen.toNat ≤ Config.keyMax ∧ ch.dinLen.toNat ≤ bufMax ∧ ch.doutLen.toNat ≤ bufMax ∧
    ch.xtagLen.toNat ≤ Config.xtagMax ∧ (ch.busy = true → ch.done = false ∧ ch.vok = false ∧ ch.err = .none) ∧
    (ch.vok = true → ch.done = true ∧ ch.err = .none))

/-- The invariant of a state in which nothing is drawn and the operand arrays of channel 0 hold all there is, as a Bool. -/
def invOk (s : State) : Bool :=
  decide (0 < s.nch) && s.channels.all (channelOk s.bufMax) && decide s.mem.wf &&
    (s.mem.all fun e => operandRegs.any fun r =>
      decide (arrayBase 0 r ≤ e.1) && decide (e.1 < arrayBase 0 r + r.size s.bufMax)) &&
    decide (s.rsPos = 0) && !s.fatal

def isNext : Host.Outcome State Fault Refusal → Bool
  | .next _ => true
  | _ => false

theorem eq_next_of_isNext (o : Host.Outcome State Fault Refusal) (h : isNext o = true) : o = .next (nextOf o) := by
  cases o with
  | next t => rfl
  | fault f => cases h
  | refused r => cases h

theorem read_of_unlisted (m : Memory) (a : Nat) (h : ∀ e ∈ m, e.1 ≠ a) : m.read a = unlistedByte := by
  induction m with
  | nil => rfl
  | cons c rest ih =>
    rw [Memory.read, if_neg (h c List.mem_cons_self)]
    exact ih fun e he => h e (List.mem_cons_of_mem _ he)

theorem inv_of_invOk (s : State) (h : invOk s = true) : s.Inv := by
  simp only [invOk, Bool.and_eq_true, decide_eq_true_eq, List.all_eq_true, List.any_eq_true, Bool.not_eq_true'] at h
  obtain ⟨⟨⟨⟨⟨h1, h2⟩, h3⟩, h4⟩, h5⟩, h6⟩ := h
  refine ⟨h1, fun ch hch => ?_, h3, fun e he => ?_, fun c k hc hk hk' => ?_, fun l _ => by omega, fun h => by omega,
    fun h => by rw [h6] at h; cases h⟩
  · have := h2 ch hch
    simp only [channelOk, decide_eq_true_eq] at this
    obtain ⟨a, b, c, d, e, f⟩ := this
    exact ⟨a, b, c, d, e, f⟩
  · obtain ⟨r, -, hlo, hhi⟩ := h4 e he
    exact ⟨0, r, h1, hlo, hhi⟩
  · refine read_of_unlisted _ _ fun e he heq => ?_
    obtain ⟨r, hr, hlo, hhi⟩ := h4 e he
    have hd := arrays_disjoint s 0 c r .dout (e.1 - arrayBase 0 r) k (by omega) hk' (by omega)
    rw [hd.2.1] at hr
    simp [operandRegs] at hr

/-! ### For each statement with hypotheses, a state and operands that meet them all -/

/-- `rs_pos` 0 and no `RS_LIMIT`: every draw the environment delivers is delivered. -/
theorem delivers_idle (n : Nat) : idle.Delivers n := Or.inr ⟨rfl, fun _ h => by cases h⟩

theorem meets_DecodeFollowsMatchAndMask :
    decode 0xFFFF0002#32 = .ok (.genKey 65535) ∧
    ∃ r ∈ opcodeRows, r.mnemonic = "GEN_KEY" ∧ 0xFFFF0002#32 &&& r.mask = r.pattern :=
  ⟨by decide, ⟨"GEN_KEY", 0x0000ffff#32, 0x00000002#32⟩, by decide, rfl, by decide⟩

theorem meets_StepRunsDecodedCommand :
    let s := facing (busyOn idle 1 0x10#32) (.engineTurn 1 .starved)
    s.agenda = .engineTurn 1 .starved :: [] ∧ 1 < s.nch ∧ (s.channel 1).busy = true ∧
    decode (s.channel 1).cmdReg = .ok .macCompute := by decide

theorem meets_StepRunsDecodedCommand_idle :
    (facing idle (.engineTurn 1 .deliver)).agenda = .engineTurn 1 .deliver :: [] ∧
    ((facing idle (.engineTurn 1 .deliver)).channel 1).busy = false ∧
    (facing idle (.engineTurn 2 .deliver)).nch ≤ 2 := by decide

theorem meets_StepKeepsInvariant :
    (facing idle (.memWrite 0x0 4 0x10#32)).Inv ∧
    step (facing idle (.memWrite 0x0 4 0x10#32)) = .next (nextOf (step (facing idle (.memWrite 0x0 4 0x10#32)))) :=
  ⟨inv_of_invOk _ (by decide), eq_next_of_isNext _ (by decide +kernel)⟩

theorem meets_ResetClearsEverything :
    let s := facing (busyOn { idle with rsPos := 5, rngInit := true, fatal := true } 0 0x10#32) (.reset counting)
    s.agenda = .reset counting :: [] ∧ 1 < s.nch := by decide

theorem meets_ResetStateHoldsResetValues : 0 < State.reset.nch := by
  show 0 < (List.replicate _ _).length
  simp

theorem meets_CmdWriteHasThreeArms :
    let s := facing idle (.memWrite (wordAddr 1 .cmd) 4 0x103#32)
    let b := busyOn s 1 0x10#32
    s.agenda = .memWrite (wordAddr 1 .cmd) 4 0x103#32 :: [] ∧ 1 < s.nch ∧ (s.channel 1).busy = false ∧ s.fatal = false ∧
    b.agenda = s.agenda ∧ 1 < b.nch ∧ (b.channel 1).busy = true := by decide

theorem meets_CmdWriteHasThreeArms_fatal :
    let s := facing { idle with fatal := true } (.memWrite (wordAddr 1 .cmd) 4 0x103#32)
    s.agenda = .memWrite (wordAddr 1 .cmd) 4 0x103#32 :: [] ∧ 1 < s.nch ∧ (s.channel 1).busy = false ∧
    s.fatal = true := by decide

theorem meets_BusyChannelIsUntouched :
    let s := facing (busyOn idle 0 0x10#32) (.memWrite 0x10000 1 0xFF#32)
    s.Inv ∧ 0 < s.nch ∧ (s.channel 0).busy = true ∧ s.agenda = .memWrite 0x10000 1 0xFF#32 :: [] ∧
    (∀ a, Event.memWrite 0x10000 1 0xFF#32 ≠ .engineTurn 0 a) ∧
    (∀ source, Event.memWrite 0x10000 1 0xFF#32 ≠ .reset source) ∧ step s = .next (nextOf (step s)) :=
  ⟨inv_of_invOk _ (by decide), by decide, by decide, by decide, nofun, nofun,
    eq_next_of_isNext _ (by decide +kernel)⟩

theorem meets_MisalignedAccessRefused :
    ((3 : Nat) ≠ 1 ∧ (3 : Nat) ≠ 2 ∧ (3 : Nat) ≠ 4) ∧ 0xC1 % 2 ≠ 0 ∧ 0xC2 % 4 ≠ 0 ∧
    (facing idle (.memWrite 0xC1 2 0x1#32)).agenda = .memWrite 0xC1 2 0x1#32 :: [] ∧
    (facing idle (.memRead 0xC2 4)).agenda = .memRead 0xC2 4 :: [] := by decide

theorem meets_RefusedAccessHasNoEffect :
    idle.nch * Config.channelStride ≤ 0x80000 ∧ (2 ≠ 4 ∧ 0x1E % Config.channelStride < 0x20) ∧
    (∀ off ∈ [0x20, 0x3F, 0x60, 0x7F, 0xD0, 0xFF, 0x200, 0xFFFF, 0x10020, 0x1FFFF, 0x20020, 0x2FFFF, 0x30000, 0x3FFFF],
      ReservedOffset idle.bufMax ((0x40000 + off + 0) % Config.channelStride)) ∧
    (∀ off ∈ [0x0, 0x100, 0x1FF], WriteOnlyOffset ((0x40000 + off) % Config.channelStride)) ∧
    (∀ off ∈ [0x4, 0x10, 0x18, 0x1C, 0x40, 0x5F, 0x20000, 0x2001F],
      ReadOnlyOffset idle.bufMax ((0x40000 + off) % Config.channelStride)) :=
  ⟨by decide, by decide, by unfold ReservedOffset; decide, by unfold WriteOnlyOffset; decide,
    by unfold ReadOnlyOffset; decide⟩

/-- An access that only partly lies in a reserved range (R66 (a)): the last byte of `TAG`, the first reserved one. -/
theorem meets_RefusedAccessHasNoEffect_partly :
    1 < 2 ∧ ReservedOffset idle.bufMax ((0x5F + 1) % Config.channelStride) :=
  ⟨by decide, by unfold ReservedOffset; decide⟩

theorem meets_ReadHasNoSideEffect : (facing idle (.memRead 0x4 4)).agenda = .memRead 0x4 4 :: [] := by decide

theorem meets_BusyChannelRefusesAccess :
    let s := busyOn idle 1 0x10#32
    0x40008 / Config.channelStride < s.nch ∧ (s.channel (0x40008 / Config.channelStride)).busy = true ∧
    ¬ (4 = 4 ∧ (0x40008 % Config.channelStride = 0x4 ∨ 0x40008 % Config.channelStride = 0x18 ∨
      0x40008 % Config.channelStride = 0x1C)) := by decide

theorem meets_ByteArrayReadIsLittleEndian :
    1 < idle.nch ∧ (idle.channel 1).busy = false ∧ ArrayReg.dout ≠ .key ∧ (4 = 1 ∨ 4 = 2 ∨ 4 = 4) ∧ 28 % 4 = 0 ∧
    28 + 4 ≤ ArrayReg.dout.size idle.bufMax := by decide

theorem meets_WriteThenReadReturnsValue :
    let s := { idle with
      agenda := [.memWrite (arrayBase 0 .xtag + 60) 4 0x01020304#32, .memRead (arrayBase 0 .xtag + 60) 4] }
    0 < s.nch ∧ (s.channel 0).busy = false ∧ (4 = 1 ∨ 4 = 2 ∨ 4 = 4) ∧ 60 % 4 = 0 ∧
    60 + 4 ≤ ArrayReg.xtag.size s.bufMax ∧
    s.agenda = .memWrite (arrayBase 0 .xtag + 60) 4 0x01020304#32 :: .memRead (arrayBase 0 .xtag + 60) 4 :: [] := by decide

/-- The last half-word of `KEY`. -/
theorem meets_WriteThenReadReturnsValue_key :
    let s := facing idle (.memWrite (arrayBase 1 .key + 254) 2 0xABCD#32)
    1 < s.nch ∧ (s.channel 1).busy = false ∧ 254 % 2 = 0 ∧ 254 + 2 ≤ ArrayReg.key.size s.bufMax ∧
    s.agenda = .memWrite (arrayBase 1 .key + 254) 2 0xABCD#32 :: [] := by decide

/-- R63: the byte at the lowest address is the least significant byte of the bus value. -/
theorem test_key_write_stores_lanes :
    let t := idle.memWrite 0x1FE 2 0xABCD#32
    t.mem.read 0x1FE = 0xCD#8 ∧ t.mem.read 0x1FF = 0xAB#8 ∧ t.memRead 0x1FE 2 = 0#32 := by decide

theorem meets_HostNeverReadsKeys (a : Nat)
    (h : ∀ c, ¬ (arrayBase c .key ≤ a ∧ a < arrayBase c .key + Config.keyMax)) :
    Memory.read [(0x1FF, 0x5A#8)] a = idle.mem.read a := by
  have h0 := h 0
  have ha : 0x1FF ≠ a := by
    intro e
    exact h0 (by subst e; decide)
  show (if 0x1FF = a then _ else _) = _
  rw [if_neg ha]
  rfl

theorem meets_LengthRegistersReadAndWrite :
    1 < idle.nch ∧ (idle.channel 1).busy = false ∧ (256#32).toNat ≤ 256 ∧ 256 < (257#32).toNat ∧
    (32#32).toNat ≤ idle.bufMax ∧ idle.bufMax < (33#32).toNat ∧ (64#32).toNat ≤ 64 ∧ 64 < (65#32).toNat := by decide

theorem meets_StatusReadHasFields : 1 < (busyOn idle 1 0x10#32).nch := by decide

theorem meets_CapsAreConstant :
    1 < idle.nch ∧ idle.nch < 2 ^ 32 ∧ step (facing idle (.memRead 0x18 4)) = .next (nextOf (step (facing idle (.memRead 0x18 4)))) :=
  ⟨by decide, by decide, eq_next_of_isNext _ (by decide +kernel)⟩

theorem meets_RngBytesDeliversNextBytes :
    idle.Ready 0 ∧ 32 ≤ idle.bufMax ∧ idle.Delivers 32 ∧ 0 ≤ idle.bufMax ∧ idle.Delivers 0 :=
  ⟨⟨rfl, by decide, rfl⟩, by decide, delivers_idle 32, by decide, Or.inl rfl⟩

theorem meets_GenKeyDeliversKey :
    idle.Ready 0 ∧ 256 ≠ 0 ∧ 256 % 8 = 0 ∧ 256 / 8 ≤ idle.bufMax ∧ idle.Delivers (256 / 8) :=
  ⟨⟨rfl, by decide, rfl⟩, by decide, by decide, by decide, delivers_idle _⟩

theorem meets_GenIvAndNonceDeliver : idle.Ready 0 ∧ idle.Delivers 16 ∧ idle.Delivers 12 :=
  ⟨⟨rfl, by decide, rfl⟩, delivers_idle _, delivers_idle _⟩

theorem meets_ConcurrentDrawsAreDisjoint :
    let s := { busyOn (busyOn idle 0 0x3#32) 1 0x20#32 with
      source := { counting with limit := some 32 }, agenda := [.engineTurn 0 .deliver, .engineTurn 1 .deliver] }
    (0 : Nat) ≠ 1 ∧ 0 < s.nch ∧ 1 < s.nch ∧ s.fatal = false ∧ (s.channel 0).busy = true ∧
    decode (s.channel 0).cmdReg = .ok .genIv ∧ s.DrawsBytes 0 .genIv 16 ∧ (s.channel 1).busy = true ∧
    decode (s.channel 1).cmdReg = .ok .cbcEnc ∧ s.DrawsBytes 1 .cbcEnc 16 ∧ s.WithinLimit (16 + 16) ∧
    s.agenda = .engineTurn 0 .deliver :: .engineTurn 1 .deliver :: [] :=
  ⟨by decide, by decide, by decide, rfl, by decide, by decide, rfl, by decide, by decide, ⟨rfl, by decide⟩,
    fun l h => by cases h; decide, rfl⟩

theorem meets_StarvedDrawHoldsCommand :
    let s := { idle with answer := .starved, source := { counting with limit := some 16 } }
    s.Ready 0 ∧ s.DrawsBytes 0 .genIv 16 ∧ s.Starves 16 :=
  ⟨⟨rfl, by decide, rfl⟩, rfl, by decide, rfl, fun l h => by cases h; decide⟩

/-- The draw that goes one byte past `RS_LIMIT`. -/
theorem meets_FailedDrawSetsFatalLatch :
    let s := { idle with source := { counting with limit := some 15 } }
    s.Ready 0 ∧ s.DrawsBytes 0 .cbcEnc 16 ∧ s.Fails 16 :=
  ⟨⟨rfl, by decide, rfl⟩, ⟨rfl, by decide⟩, by decide, 15, rfl, by decide⟩

theorem meets_HiddenStateChangesOnlyByDraw :
    let s := facing (busyOn idle 0 0x4#32) (.engineTurn 0 .deliver)
    step s = .next (nextOf (step s)) ∧ (∀ source rest, s.agenda ≠ .reset source :: rest) ∧ (nextOf (step s)).rsPos = 12 :=
  ⟨eq_next_of_isNext _ (by decide +kernel), nofun, by decide +kernel⟩

theorem meets_FatalLatchLeftOnlyByReset :
    let s := { idle with fatal := true }
    step (facing s (.reset counting)) = .next (nextOf (step (facing s (.reset counting)))) ∧
    (facing s (.reset counting)).fatal = true ∧ (nextOf (step (facing s (.reset counting)))).fatal = false ∧
    step (facing s (.memRead 0x4 4)) = .next (nextOf (step (facing s (.memRead 0x4 4)))) :=
  ⟨eq_next_of_isNext _ (by decide +kernel), by decide, by decide +kernel,
    eq_next_of_isNext _ (by decide +kernel)⟩

theorem meets_FatalLatchRefusesEveryCommand :
    let s := { idle with fatal := true, active := 1 }
    s.active = 1 ∧ 1 < s.nch ∧ s.fatal = true := by decide

theorem meets_OperandOutOfRangeIsIllegal :
    let s := idle.updateChannel 0 fun ch => { ch with dinLen := 32#32 }
    let g := idle.updateChannel 0 fun ch => { ch with dinLen := 17#32 }
    s.Ready 0 ∧ g.Ready 0 ∧ s.OutOfRange 0 (.rngBytes 33) ∧ s.OutOfRange 0 (.genKey 0) ∧ s.OutOfRange 0 (.genKey 12) ∧
    s.OutOfRange 0 (.genKey 264) ∧ s.OutOfRange 0 .cbcEnc ∧ g.OutOfRange 0 .gcmEnc := by
  refine ⟨⟨rfl, by decide, rfl⟩, ⟨rfl, by decide, rfl⟩, ?_, ?_, ?_, ?_, ?_, ?_⟩
  · show idle.bufMax < 33; decide
  · exact Or.inl rfl
  · exact Or.inr (Or.inl (by decide))
  · refine Or.inr (Or.inr ?_); show idle.bufMax < 264 / 8; decide
  · show idle.bufMax < 16 * (32 / 16 + 1); decide
  · show idle.bufMax < 17 + 16; decide

theorem meets_IllegalWordCompletes :
    let s := facing (busyOn idle 0 0x00010003#32) (.engineTurn 0 .starved)
    let f := { s with fatal := true }
    s.agenda = .engineTurn 0 .starved :: [] ∧ 0 < s.nch ∧ (s.channel 0).busy = true ∧ s.fatal = false ∧
    decode (s.channel 0).cmdReg = .error .argNotZero ∧ f.agenda = s.agenda ∧ 0 < f.nch ∧
    (f.channel 0).busy = true ∧ f.fatal = true ∧ decode (f.channel 0).cmdReg = .error .argNotZero := by decide

/-- R252: the latch is tested before the word. -/
theorem test_illegal_word_under_latch :
    ((nextOf (step { facing (busyOn idle 0 0x00010003#32) (.engineTurn 0 .starved) with fatal := true })).channel 0).err =
      .entropyUnavailable := by decide

theorem meets_IllegalCommandChangesOnlyStatus :
    let s := facing (busyOn idle 0 0x000C0002#32) (.engineTurn 0 .deliver)
    s.agenda = .engineTurn 0 .deliver :: [] ∧ 0 < s.nch ∧ (s.channel 0).busy = true ∧
    (s.channel 0).err ≠ .illegalCommand ∧ step s = .next (nextOf (step s)) ∧
    ((nextOf (step s)).channel 0).err = .illegalCommand :=
  ⟨rfl, by decide, by decide +kernel, by decide +kernel, eq_next_of_isNext _ (by decide +kernel), by decide +kernel⟩

theorem meets_CommandEndsWithPossibleCode :
    idle.Ready 0 ∧ exec (.rngBytes 33) idle = .next (nextOf (exec (.rngBytes 33) idle)) :=
  ⟨⟨rfl, by decide, rfl⟩, eq_next_of_isNext _ (by decide +kernel)⟩

theorem meets_WrongKeyLengthEndsWithCodeOne :
    let s := idle.updateChannel 0 fun ch => { ch with keyLen := 17#32, dinLen := 16#32 }
    s.Ready 0 ∧ ((s.channel 0).keyLen.toNat ≠ 16 ∧ (s.channel 0).keyLen.toNat ≠ 24 ∧ (s.channel 0).keyLen.toNat ≠ 32) ∧
    16 * ((s.channel 0).dinLen.toNat / 16 + 1) ≤ s.bufMax ∧ (s.channel 0).dinLen.toNat + 16 ≤ s.bufMax ∧
    s.Delivers 16 ∧ s.Delivers 12 :=
  ⟨⟨rfl, by decide, rfl⟩, by decide, by decide, by decide, Or.inr ⟨rfl, fun _ h => by cases h⟩,
    Or.inr ⟨rfl, fun _ h => by cases h⟩⟩

theorem meets_EngineNeverWritesOperands :
    idle.Inv ∧ exec (.rngBytes 32) idle = .next (nextOf (exec (.rngBytes 32) idle)) ∧
    255 < ArrayReg.key.size idle.bufMax ∧ 31 < ArrayReg.din.size idle.bufMax ∧ 63 < ArrayReg.xtag.size idle.bufMax :=
  ⟨inv_of_invOk _ (by decide), eq_next_of_isNext _ (by decide +kernel), by decide, by decide, by decide⟩

theorem meets_ChannelsAreIsolated :
    let s := facing (busyOn idle 0 0x3#32) (.engineTurn 0 .deliver)
    s.Inv ∧ s.agenda = .engineTurn 0 .deliver :: [] ∧ (Event.engineTurn 0 .deliver).onChannel = some 0 ∧
    step s = .next (nextOf (step s)) ∧ (1 : Nat) ≠ 0 ∧
    (Event.memWrite 0x7FFFF 1 0x1#32).onChannel = some 1 ∧ (Event.memRead 0x40000 4).onChannel = some 1 :=
  ⟨inv_of_invOk _ (by decide), rfl, rfl, eq_next_of_isNext _ (by decide +kernel), by decide, by decide, by decide⟩

/-- Two states that differ in a byte of `KEY` beyond `KEYLEN` and in the other channel. -/
theorem meets_CommandsIgnoreUnusedBytes :
    let u := busyOn (idle.writeArray 0 .key [0x77#8]) 1 0x3#32
    idle.Inv ∧ u.Inv ∧ AgreeOn idle u 0 ∧ idle.active = 0 ∧ exec .genIv idle = .next (nextOf (exec .genIv idle)) :=
  ⟨inv_of_invOk _ (by decide), inv_of_invOk _ (by decide),
    ⟨rfl, rfl, rfl, rfl, rfl, rfl, rfl, by decide, by decide, by decide, by decide, by decide, by decide, by decide,
      by decide +kernel⟩,
    rfl, eq_next_of_isNext _ (by decide +kernel)⟩

theorem meets_OnlyMacVerifySetsVok :
    let s := facing (busyOn (withXtag idle
      (beBytes 32 0xb613679a0814d9ec772f95d778c35fc5ff1697c493715653c6c712144292c5ad)) 0 0x11#32) (.engineTurn 0 .deliver)
    s.Inv ∧ s.agenda = .engineTurn 0 .deliver :: [] ∧ (s.channel 0).busy = true ∧ step s = .next (nextOf (step s)) ∧
    ((nextOf (step s)).channel 0).vok = true :=
  ⟨inv_of_invOk _ (by decide +kernel), rfl, by decide +kernel, eq_next_of_isNext _ (by decide +kernel), by decide +kernel⟩

theorem meets_ShaPaddingFillsBlocks :
    ((zeros 55).length + 1 + 0) % 64 = 56 ∧ ((zeros 56).length + 1 + 63) % 64 = 56 := by decide

theorem meets_HmacKeyNormalisation : (zeros 3).length + 61 ≤ 64 ∧ 64 < (zeros 65).length := by decide

theorem meets_CtEqualDecidesEquality : (zeros 16).length = 16 := by decide

theorem meets_MacComputeWritesTag : ({ idle with active := 1 } : State).Ready 1 := ⟨rfl, by decide, rfl⟩

theorem meets_MacVerifyWritesVok : idle.Ready 0 := ⟨rfl, by decide, rfl⟩

/-- The next state of MAC_COMPUTE on `idle` exists, and another state holds the same key and data and the tag. -/
theorem meets_VerifyAcceptsExactlyComputedTag :
    let u := withXtag idle (beBytes 32 0xb613679a0814d9ec772f95d778c35fc5ff1697c493715653c6c712144292c5ad)
    idle.Ready 0 ∧ u.Ready 0 ∧ u.keyOperand 0 = idle.keyOperand 0 ∧ u.dataOperand 0 = idle.dataOperand 0 ∧
    u.expectedTag 0 = (nextOf (exec .macCompute idle)).tagBytes 0 :=
  ⟨⟨rfl, by decide, rfl⟩, ⟨rfl, by decide +kernel, rfl⟩, by decide +kernel, by decide +kernel, by decide +kernel⟩

theorem meets_SboxTablesAgreeWithDefinition : gfMul 0x53#8 0xCA#8 = 1#8 ∧ (0x53#8 : Byte) ≠ 0#8 := by decide

theorem meets_AesBlockCipherIsInvertible :
    ((zeros 16).length = 16 ∧ (zeros 24).length = 24 ∧ (zeros 32).length = 32) ∧ (zeros 16).length = 16 := by decide

theorem meets_UnpadUndoesPad :
    let m := List.replicate 16 0x10#8 ++ List.replicate 16 0x10#8
    0 < m.length ∧ m.length % 16 = 0 ∧ m = List.replicate 16 0x10#8 ++ List.replicate 16 (BitVec.ofNat 8 16) := by decide

theorem meets_CbcDecryptUndoesEncrypt :
    (zeros 24).length = 24 ∧ (zeros 16).length = 16 ∧ (zeros 48).length % 16 = 0 := by decide

/-- The longest message that `BUF_MAX` admits. -/
theorem meets_CbcEncWritesEnvelope :
    let s := idle.updateChannel 0 fun ch => { ch with keyLen := 24#32, dinLen := 31#32 }
    s.Ready 0 ∧ 16 * ((s.channel 0).dinLen.toNat / 16 + 1) ≤ s.bufMax ∧ s.Delivers 16 ∧
    ((s.channel 0).keyLen.toNat = 16 ∨ (s.channel 0).keyLen.toNat = 24 ∨ (s.channel 0).keyLen.toNat = 32) :=
  ⟨⟨rfl, by decide, rfl⟩, by decide, Or.inr ⟨rfl, fun _ h => by cases h⟩, by decide⟩

theorem meets_CbcDecWritesPlaintext :
    let s := cbcExample
    s.Inv ∧ s.Ready 0 ∧ (s.channel 0).keyLen.toNat = 32 ∧ (s.channel 0).dinLen.toNat ≠ 0 ∧
    (s.channel 0).dinLen.toNat % 16 = 0 ∧
    cbcUnpad (cbcDecryptRaw (s.keyOperand 0) (s.ivOperand 0) (s.dataOperand 0)) =
      some (beBytes 20 0x5468697320697320746865204342432074657374) :=
  ⟨inv_of_invOk _ (by decide +kernel), ⟨rfl, by decide +kernel, rfl⟩, by decide +kernel, by decide +kernel,
    by decide +kernel, by decide +kernel⟩

theorem meets_CbcDecWritesPlaintext_malformed :
    let s := fun n : Word => idle.updateChannel 0 fun ch => { ch with keyLen := 16#32, dinLen := n }
    (s 0#32).Inv ∧ (s 0#32).Ready 0 ∧ ((s 0#32).channel 0).dinLen.toNat = 0 ∧
    (s 31#32).Inv ∧ (s 31#32).Ready 0 ∧ ((s 31#32).channel 0).dinLen.toNat % 16 ≠ 0 ∧
    (s 16#32).Inv ∧ (s 16#32).Ready 0 ∧ ((s 16#32).channel 0).keyLen.toNat = 16 ∧
    cbcUnpad (cbcDecryptRaw ((s 16#32).keyOperand 0) ((s 16#32).ivOperand 0) ((s 16#32).dataOperand 0)) = none :=
  ⟨inv_of_invOk _ (by decide), ⟨rfl, by decide, rfl⟩, by decide, inv_of_invOk _ (by decide), ⟨rfl, by decide, rfl⟩,
    by decide, inv_of_invOk _ (by decide), ⟨rfl, by decide, rfl⟩, by decide, by decide +kernel⟩

/-- A message on channel 0, and the envelope of R201's example presented under the same key. -/
theorem meets_CbcRoundTrip :
    let s := withDin (withKey idle (zeros 32)) (beBytes 20 0x5468697320697320746865204342432074657374)
    s.Ready 0 ∧ 16 * ((s.channel 0).dinLen.toNat / 16 + 1) ≤ s.bufMax ∧ (s.channel 0).keyLen.toNat = 32 ∧
    s.Delivers 16 ∧ cbcExample.Ready 0 ∧ cbcExample.keyOperand 0 = s.keyOperand 0 ∧
    cbcExample.presentedCbc 0 = (nextOf (exec .cbcEnc s)).cbcEnvelope 0 :=
  ⟨⟨rfl, by decide +kernel, rfl⟩, by decide +kernel, by decide +kernel, Or.inr ⟨rfl, fun _ h => by cases h⟩,
    ⟨rfl, by decide +kernel, rfl⟩, by decide +kernel, by decide +kernel⟩

theorem meets_GctrIsInvolution : (zeros 32).length = 32 ∧ (rep 0xFF#8 16).length = 16 := by decide

/-- The longest message that `BUF_MAX` admits. -/
theorem meets_GcmEncWritesEnvelope :
    let s := idle.updateChannel 0 fun ch => { ch with keyLen := 16#32, dinLen := 16#32 }
    s.Ready 0 ∧ (s.channel 0).dinLen.toNat + 16 ≤ s.bufMax ∧ s.Delivers 12 ∧ (s.channel 0).keyLen.toNat = 16 :=
  ⟨⟨rfl, by decide, rfl⟩, by decide, Or.inr ⟨rfl, fun _ h => by cases h⟩, by decide⟩

/-- R217, example (1): the empty ciphertext and its tag under the zero key and nonce. -/
theorem meets_GcmDecWritesPlaintext :
    let s := withDin (idle.updateChannel 0 fun ch => { ch with keyLen := 16#32 })
      (beBytes 16 0x58e2fccefa7e3061367f1d57a4e7455a)
    s.Inv ∧ s.Ready 0 ∧ (s.channel 0).keyLen.toNat = 16 ∧
    s.dataOperand 0 = [] ++ gcmTag (s.keyOperand 0) (s.nonceOperand 0) [] :=
  ⟨inv_of_invOk _ (by decide +kernel), ⟨rfl, by decide +kernel, rfl⟩, by decide +kernel, by decide +kernel⟩

theorem meets_GcmDecRejectsWrongTag :
    let s := fun n : Word => idle.updateChannel 0 fun ch => { ch with keyLen := 16#32, dinLen := n }
    (s 15#32).Ready 0 ∧ ((s 15#32).channel 0).keyLen.toNat = 16 ∧ ((s 15#32).channel 0).dinLen.toNat < 16 ∧
    (s 17#32).Ready 0 ∧ (s 17#32).dataOperand 0 = [0#8] ++ zeros 16 ∧ (zeros 16).length = 16 ∧
    zeros 16 ≠ gcmTag ((s 17#32).keyOperand 0) ((s 17#32).nonceOperand 0) [0#8] :=
  ⟨⟨rfl, by decide, rfl⟩, by decide, by decide, ⟨rfl, by decide, rfl⟩, by decide +kernel, by decide, by decide +kernel⟩

theorem meets_GcmDecIsAtomic : idle.Inv ∧ idle.Ready 0 ∧ exec .gcmDec idle = .next (nextOf (exec .gcmDec idle)) :=
  ⟨inv_of_invOk _ (by decide), ⟨rfl, by decide, rfl⟩, eq_next_of_isNext _ (by decide +kernel)⟩

/-- The message of R222's example, and its envelope presented under the same key. -/
theorem meets_GcmRoundTrip :
    let s := withDin (withKey idle4096 gcmKey) (beBytes 20 0x54686973206973207468652047434d2074657374)
    s.Ready 0 ∧ (s.channel 0).dinLen.toNat + 16 ≤ s.bufMax ∧ (s.channel 0).keyLen.toNat = 32 ∧ s.Delivers 12 ∧
    gcmExample.Ready 0 ∧ gcmExample.keyOperand 0 = s.keyOperand 0 ∧
    gcmExample.presentedGcm 0 = (nextOf (exec .gcmEnc s)).gcmEnvelope 0 :=
  ⟨⟨rfl, by decide +kernel, rfl⟩, by decide +kernel, by decide +kernel, Or.inr ⟨rfl, fun _ h => by cases h⟩,
    ⟨rfl, by decide +kernel, rfl⟩, by decide +kernel, by decide +kernel⟩

end Sys2Proof.Tests
end

/-! SUPPORT. PROOFS of the statements about the state (spec 10_state.md R21 to R39): the reset values, the parameters a host
reads, and what an engine step may write. -/

namespace Sys2Proof.Machine

/-! ### The control words a host reads whether or not the channel is busy -/

/-- A read of `STATUS`, `CAPS0` or `CAPS1` is performed on every channel, busy or not (R70). -/
theorem State.memRead_wordAddr_of_readableBusy (s : State) (c : Nat) (r : WordReg) (hc : c < s.nch)
    (hr : r.readableBusy = true) : s.memRead (wordAddr c r) 4 = s.wordValue c r := by
  rw [State.memRead_of_word s _ 4 c r (State.target_word s c r hc), hr]
  simp

theorem State.memRead_status (s : State) (c : Nat) (hc : c < s.nch) :
    s.memRead (wordAddr c .status) 4 = statusWord s.fatal (s.channel c) :=
  State.memRead_wordAddr_of_readableBusy s c .status hc rfl

/-- `BUF_MAX` fits a 32-bit word (R8), so that `CAPS0` reads it (R33). -/
theorem State.toNat_memRead_caps0 (s : State) (c : Nat) (hc : c < s.nch) :
    (s.memRead (wordAddr c .caps0) 4).toNat = s.bufMax := by
  obtain ⟨-, -, hmax⟩ := s.bufMax_range
  rw [State.memRead_wordAddr_of_readableBusy s c .caps0 hc rfl]
  show (BitVec.ofNat 32 s.bufMax).toNat = s.bufMax
  rw [BitVec.toNat_ofNat]
  omega

theorem State.toNat_memRead_caps1 (s : State) (c : Nat) (hc : c < s.nch) (hn : s.nch < 2 ^ 32) :
    (s.memRead (wordAddr c .caps1) 4).toNat = s.nch := by
  rw [State.memRead_wordAddr_of_readableBusy s c .caps1 hc rfl]
  exact BitVec.toNat_ofNat _ _ |>.trans (Nat.mod_eq_of_lt hn)

/-- A write to a control word that drops every value changes nothing (R66 (d)). -/
theorem State.memWrite_wordAddr_of_writeWord_eq_self (s : State) (c : Nat) (r : WordReg) (v : Word) (hc : c < s.nch)
    (hw : s.writeWord c r v = s) : s.memWrite (wordAddr c r) 4 v = s := by
  rw [State.memWrite_of_word s _ 4 c r v (State.target_word s c r hc), hw, ite_self]

/-! ### The reset state -/

@[simp] theorem State.nch_resetWith (u : Fin 4095) (nch : Nat) (source : Source) :
    (State.resetWith u nch source).nch = nch := List.length_replicate

@[simp] theorem State.channel_resetWith (u : Fin 4095) (nch : Nat) (source : Source) (c : Nat) :
    (State.resetWith u nch source).channel c = Channel.reset := by
  simp only [State.channel, State.resetWith, List.getD_eq_getElem?_getD, List.getElem?_replicate]
  split <;> rfl

@[simp] theorem State.channel_reset (c : Nat) : State.reset.channel c = Channel.reset := State.channel_resetWith _ _ _ c

theorem statusWord_reset : statusWord false Channel.reset = 0#32 := by decide

/-- Settles O10: every channel is `Channel.reset`, the memory is empty, and no channel is busy. -/
theorem resetStateHoldsResetValues : Obligations.ResetStateHoldsResetValues := by
  refine ⟨fun c hc => ?_, fun _ => rfl, rfl, rfl, rfl, fun c => ?_⟩
  · have hstatus : State.reset.memRead (wordAddr c .status) 4 = 0#32 := by
      rw [State.memRead_status _ c hc, State.channel_reset]
      exact statusWord_reset
    rw [State.channel_reset]
    exact ⟨rfl, rfl, rfl, rfl, rfl, hstatus, State.toNat_memRead_caps0 _ c hc, State.toNat_memRead_caps1 _ c hc⟩
  · have hidle : (State.reset.channel c).busy = false := by rw [State.channel_reset]; rfl
    rw [State.pendingWord_eq, hidle]
    simp

/-! ### What an engine step may write (R37, R38) -/

/-- The byte arrays in which an engine puts its results (R27, R29, R31); the others are operands only (R38). -/
def ArrayReg.heldResult (r : ArrayReg) : Bool :=
  match r with
  | .tag => true
  | .ivn => true
  | .dout => true
  | .xtag => false
  | .key => false
  | .din => false

/-- Address `a` holds no byte of a byte array in which channel `c`'s engine puts results, `bufMax` being `BUF_MAX`. -/
def OutsideResults (bufMax c a : Nat) : Prop :=
  ∀ r : ArrayReg, r.heldResult = true → a < arrayBase c r ∨ arrayBase c r + r.size bufMax ≤ a

/-- The bytes of the operand arrays, of every channel, are outside the result arrays (R61). -/
theorem outsideResults_of_operand (s : State) (c d : Nat) (r : ArrayReg) (k : Nat) (hr : r.heldResult = false)
    (hk : k < r.size s.bufMax) : OutsideResults s.bufMax c (arrayBase d r + k) := by
  intro q hq
  by_contra hin
  obtain ⟨-, rfl, -⟩ := arrays_disjoint s d c r q k (arrayBase d r + k - arrayBase c q) hk (by omega) (by omega)
  rw [hr] at hq
  cases hq

/-- Between `s` and `t` channel `c`'s engine wrote nothing but its results: no operand length, and no byte outside `TAG`,
`IVN` and `DOUT`. The bytes are claimed where `DINLEN` is within its capacity, since the decrypts write as many bytes as it
says (log entry 20). -/
structure WritesOnlyResults (s t : State) (c : Nat) : Prop where
  frame : EngineFrame s t c
  keyLen : (t.channel c).keyLen = (s.channel c).keyLen
  dinLen : (t.channel c).dinLen = (s.channel c).dinLen
  xtagLen : (t.channel c).xtagLen = (s.channel c).xtagLen
  bytes : (s.channel c).dinLen.toNat ≤ s.bufMax → ∀ a, OutsideResults s.bufMax c a → t.mem.read a = s.mem.read a

theorem EngineFrame.trans {s t u : State} {c : Nat} (h : EngineFrame s t c) (h' : EngineFrame t u c) :
    EngineFrame s u c where
  bufUnits := h'.bufUnits.trans h.bufUnits
  source := h'.source.trans h.source
  active := h'.active.trans h.active
  answer := h'.answer.trans h.answer
  agenda := h'.agenda.trans h.agenda
  replies := h'.replies.trans h.replies
  nch := h'.nch.trans h.nch
  others d hd := (h'.others d hd).trans (h.others d hd)

theorem EngineFrame.bufMax {s t : State} {c : Nat} (h : EngineFrame s t c) : t.bufMax = s.bufMax :=
  State.bufMax_of_bufUnits s t h.bufUnits

theorem WritesOnlyResults.trans {s t u : State} {c : Nat} (h : WritesOnlyResults s t c) (h' : WritesOnlyResults t u c) :
    WritesOnlyResults s u c where
  frame := h.frame.trans h'.frame
  keyLen := h'.keyLen.trans h.keyLen
  dinLen := h'.dinLen.trans h.dinLen
  xtagLen := h'.xtagLen.trans h.xtagLen
  bytes hfit a ha := by
    have hfit' : (t.channel c).dinLen.toNat ≤ t.bufMax := by rw [h.dinLen, h.frame.bufMax]; exact hfit
    have ha' : OutsideResults t.bufMax c a := by rw [h.frame.bufMax]; exact ha
    exact (h'.bytes hfit' a ha').trans (h.bytes hfit a ha)

/-! One lemma for each operation the commands are written over. -/

/-- The hidden state (R34) is no register of a channel. -/
theorem writesOnlyResults_hidden (s : State) (c p : Nat) (init fatal : Bool) :
    WritesOnlyResults s { s with rsPos := p, rngInit := init, fatal := fatal } c where
  frame := ⟨rfl, rfl, rfl, rfl, rfl, rfl, rfl, fun _ _ => rfl⟩
  keyLen := rfl
  dinLen := rfl
  xtagLen := rfl
  bytes _ _ _ := rfl

theorem WritesOnlyResults.refl (s : State) (c : Nat) : WritesOnlyResults s s c :=
  writesOnlyResults_hidden s c s.rsPos s.rngInit s.fatal

/-- What an update of control words keeps in each of them, it keeps in every channel, whether or not there is a channel `c`. -/
theorem State.updateChannel_keeps {β : Type} (s : State) (c d : Nat) (f : Channel → Channel) (g : Channel → β)
    (h : ∀ ch, g (f ch) = g ch) : g ((s.updateChannel c f).channel d) = g (s.channel d) := by
  unfold State.channel
  rw [State.updateChannel_channels, List.getD_eq_getElem?_getD, List.getD_eq_getElem?_getD, List.getElem?_modify]
  cases s.channels[d]? with
  | none => rfl
  | some ch => by_cases hcd : c = d <;> simp [hcd, h]

theorem writesOnlyResults_updateChannel (s : State) (c : Nat) (f : Channel → Channel)
    (hkey : ∀ ch, (f ch).keyLen = ch.keyLen) (hdin : ∀ ch, (f ch).dinLen = ch.dinLen)
    (hxtag : ∀ ch, (f ch).xtagLen = ch.xtagLen) : WritesOnlyResults s (s.updateChannel c f) c where
  frame := ⟨rfl, rfl, rfl, rfl, rfl, rfl, State.updateChannel_nch s c f,
    fun d hd => State.channel_updateChannel_ne s c d f hd⟩
  keyLen := State.updateChannel_keeps s c c f Channel.keyLen hkey
  dinLen := State.updateChannel_keeps s c c f Channel.dinLen hdin
  xtagLen := State.updateChannel_keeps s c c f Channel.xtagLen hxtag
  bytes _ _ _ := rfl

theorem writesOnlyResults_complete (s : State) (c : Nat) (e : ErrCode) : WritesOnlyResults s (s.complete c e) c :=
  writesOnlyResults_updateChannel s c (Channel.complete e) (fun _ => rfl) (fun _ => rfl) (fun _ => rfl)

theorem writesOnlyResults_writeArray (s : State) (c : Nat) (r : ArrayReg) (bytes : List Byte)
    (hr : r.heldResult = true) (hlen : bytes.length ≤ r.size s.bufMax) :
    WritesOnlyResults s (s.writeArray c r bytes) c where
  frame := ⟨rfl, rfl, rfl, rfl, rfl, rfl, rfl, fun _ _ => rfl⟩
  keyLen := rfl
  dinLen := rfl
  xtagLen := rfl
  bytes _ a ha := by
    have hout := ha r hr
    rw [State.writeArray_mem]
    exact Memory.read_writeBytes_outside _ _ _ _ (by omega)

theorem writesOnlyResults_setOutput (s : State) (c : Nat) (bytes : List Byte)
    (hlen : (s.channel c).dinLen.toNat ≤ s.bufMax → bytes.length ≤ s.bufMax) :
    WritesOnlyResults s (s.setOutput c bytes) c where
  frame := ⟨rfl, rfl, rfl, rfl, rfl, rfl, State.setOutput_nch s c bytes,
    fun d hd => State.channel_updateChannel_ne { s with mem := (s.setOutput c bytes).mem } c d _ hd⟩
  keyLen := State.updateChannel_keeps { s with mem := (s.setOutput c bytes).mem } c c _ Channel.keyLen fun _ => rfl
  dinLen := State.updateChannel_keeps { s with mem := (s.setOutput c bytes).mem } c c _ Channel.dinLen fun _ => rfl
  xtagLen := State.updateChannel_keeps { s with mem := (s.setOutput c bytes).mem } c c _ Channel.xtagLen fun _ => rfl
  bytes hfit a ha := by
    have hout : a < arrayBase c .dout ∨ arrayBase c .dout + s.bufMax ≤ a := ha .dout rfl
    rw [State.read_setOutput s c bytes (hlen hfit), if_neg (by omega)]

/-- Raising an error writes `STATUS`, the latch and a cleared output at most (R245 to R249). -/
theorem writesOnlyResults_raise (s : State) (c : Nat) (e : ErrCode) : WritesOnlyResults s (s.raise c e) c := by
  have hclear : WritesOnlyResults s (s.setOutput c []) c :=
    writesOnlyResults_setOutput s c [] fun _ => Nat.zero_le _
  rw [State.raise_eq]
  split
  · exact writesOnlyResults_complete s c e
  · split
    · have hlatch := writesOnlyResults_hidden (s.setOutput c []) c (s.setOutput c []).rsPos (s.setOutput c []).rngInit true
      exact (hclear.trans hlatch).trans (writesOnlyResults_complete _ c e)
    · exact hclear.trans (writesOnlyResults_complete _ c e)

/-! ### How long the results of the ciphers are -/

theorem length_aesDecryptBlock_le (key input : List Byte) : (aesDecryptBlock key input).length ≤ 16 := by
  simp [aesDecryptBlock, addRoundKey]

theorem length_cbcEncryptBlocks_le (key prev : List Byte) (blocks : List (List Byte)) :
    (cbcEncryptBlocks key prev blocks).length ≤ 16 * blocks.length := by
  induction blocks generalizing prev with
  | nil => simp [cbcEncryptBlocks]
  | cons b rest ih =>
    have hblock := length_aesEncryptBlock_le key (xorBytes b prev)
    have hrest := ih (aesEncryptBlock key (xorBytes b prev))
    simp only [cbcEncryptBlocks, List.length_append, List.length_cons]
    omega

theorem length_cbcDecryptBlocks_le (key prev : List Byte) (blocks : List (List Byte)) :
    (cbcDecryptBlocks key prev blocks).length ≤ 16 * blocks.length := by
  induction blocks generalizing prev with
  | nil => simp [cbcDecryptBlocks]
  | cons b rest ih =>
    have hblock := length_aesDecryptBlock_le key b
    have hrest := ih b
    simp only [cbcDecryptBlocks, List.length_append, length_xorBytes, List.length_cons]
    omega

@[simp] theorem length_blocksOf (m : List Byte) : (blocksOf m).length = (m.length + 15) / 16 := length_chunks _ _ _

theorem length_cbcEncryptRaw_cbcPad_le (key iv p : List Byte) :
    (cbcEncryptRaw key iv (cbcPad p)).length ≤ 16 * (p.length / 16 + 1) := by
  have h := length_cbcEncryptBlocks_le key iv (blocksOf (cbcPad p))
  rw [length_blocksOf, length_cbcPad] at h
  unfold cbcEncryptRaw
  omega

theorem length_cbcDecryptRaw_le (key iv m : List Byte) (hm : m.length % 16 = 0) :
    (cbcDecryptRaw key iv m).length ≤ m.length := by
  have h := length_cbcDecryptBlocks_le key iv (blocksOf m)
  rw [length_blocksOf] at h
  unfold cbcDecryptRaw
  omega

theorem length_le_of_cbcUnpad_eq_some (m p : List Byte) (h : cbcUnpad m = some p) : p.length ≤ m.length := by
  simp only [cbcUnpad] at h
  split at h
  · cases h
  · split at h
    · injection h with h
      rw [← h]
      exact List.length_take_le' _ _
    · cases h

theorem length_gcmTag_le (key nonce m : List Byte) : (gcmTag key nonce m).length ≤ 16 :=
  (length_gctr_le _ _ _).trans (length_ghash _ _).le

theorem length_gcmCrypt_le (key nonce x : List Byte) : (gcmCrypt key nonce x).length ≤ x.length := length_gctr_le _ _ _

/-! ### What the commands write -/

/-- However the pseudocode of a command of channel `c` ends that began in `s`, it has written nothing but results. -/
def RuleResult.KeepsOperands (s : State) (c : Nat) (res : RuleResult) : Prop :=
  match res with
  | .ended s' => WritesOnlyResults s s' c
  | .raised _ s' => WritesOnlyResults s s' c
  | .held => True

theorem RuleResult.KeepsOperands.after {s s' : State} {c : Nat} {res : RuleResult} (h : res.KeepsOperands s' c)
    (hs : WritesOnlyResults s s' c) : res.KeepsOperands s c := by
  cases res with
  | ended t => exact hs.trans h
  | raised e t => exact hs.trans h
  | held => trivial

/-- A draw writes only the hidden state, so a command may be looked at from its draw on. -/
theorem State.withDraw_keepsOperands (s : State) (c n : Nat) (next : List Byte → State → RuleResult)
    (h : ∀ s' : State, s'.bufMax = s.bufMax → s'.channel c = s.channel c → (next (s.nextRandom n) s').KeepsOperands s' c) :
    (s.withDraw n next).KeepsOperands s c := by
  rcases State.withDraw_cases s n next with ⟨-, e⟩ | ⟨-, e⟩ | ⟨-, e⟩
  · rw [e]
    exact (h { s with rsPos := s.rsPos + n, rngInit := true } rfl rfl).after (writesOnlyResults_hidden s c _ _ _)
  · rw [e]
    trivial
  · rw [e]
    exact writesOnlyResults_hidden s c _ _ _

theorem genBytes_keepsOperands (n c : Nat) (s : State) : (genBytes n c s).KeepsOperands s c := by
  unfold genBytes
  split
  · exact WritesOnlyResults.refl s c
  · next hn =>
    refine State.withDraw_keepsOperands s c n _ fun s' hbuf _ => writesOnlyResults_setOutput s' c _ fun _ => ?_
    rw [State.length_nextRandom]
    omega

theorem genKeyRule_keepsOperands (bits c : Nat) (s : State) : (genKeyRule bits c s).KeepsOperands s c := by
  unfold genKeyRule
  split
  · exact WritesOnlyResults.refl s c
  · exact genBytes_keepsOperands (bits / 8) c s

theorem macComputeRule_keepsOperands (c : Nat) (s : State) : (macComputeRule c s).KeepsOperands s c :=
  writesOnlyResults_writeArray s c .tag _ rfl (length_hmacSha256 _ _).le

theorem macVerifyRule_keepsOperands (c : Nat) (s : State) : (macVerifyRule c s).KeepsOperands s c :=
  writesOnlyResults_updateChannel s c (Channel.setVok _) (fun _ => rfl) (fun _ => rfl) (fun _ => rfl)

theorem cbcEncRule_keepsOperands (c : Nat) (s : State) : (cbcEncRule c s).KeepsOperands s c := by
  unfold cbcEncRule
  split
  · exact WritesOnlyResults.refl s c
  · next hfits =>
    refine State.withDraw_keepsOperands s c 16 _ fun s' hbuf hch => ?_
    have hivn : WritesOnlyResults s' (s'.writeArray c .ivn (s.nextRandom 16)) c :=
      writesOnlyResults_writeArray s' c .ivn _ rfl (State.length_nextRandom s 16).le
    unfold cbcEncDrawn
    split
    · refine hivn.trans (writesOnlyResults_setOutput _ c _ fun _ => ?_)
      have hlen := length_cbcEncryptRaw_cbcPad_le (s'.keyOperand c) (s.nextRandom 16) (s'.dataOperand c)
      rw [State.length_dataOperand, hch] at hlen
      rw [State.writeArray_bufMax]
      omega
    · exact hivn

theorem cbcDecRule_keepsOperands (c : Nat) (s : State) : (cbcDecRule c s).KeepsOperands s c := by
  unfold cbcDecRule
  split
  · split
    · exact WritesOnlyResults.refl s c
    · next hblocks =>
      split
      · exact WritesOnlyResults.refl s c
      · next p hp =>
        refine writesOnlyResults_setOutput s c p fun hfit => ?_
        have hunpad := length_le_of_cbcUnpad_eq_some _ p hp
        have hraw := length_cbcDecryptRaw_le (s.keyOperand c) (s.ivOperand c) (s.dataOperand c)
          (by rw [State.length_dataOperand]; omega)
        rw [State.length_dataOperand] at hraw
        omega
  · exact WritesOnlyResults.refl s c

theorem gcmEncRule_keepsOperands (c : Nat) (s : State) : (gcmEncRule c s).KeepsOperands s c := by
  unfold gcmEncRule
  split
  · exact WritesOnlyResults.refl s c
  · next hfits =>
    refine State.withDraw_keepsOperands s c 12 _ fun s' hbuf hch => ?_
    have hivn : WritesOnlyResults s' (s'.writeArray c .ivn (s.nextRandom 12 ++ zeros 4)) c :=
      writesOnlyResults_writeArray s' c .ivn _ rfl (by simp [ArrayReg.size])
    unfold gcmEncDrawn
    split
    · refine hivn.trans (writesOnlyResults_setOutput _ c _ fun _ => ?_)
      have hct := length_gcmCrypt_le (s'.keyOperand c) (s.nextRandom 12) (s'.dataOperand c)
      have htag := length_gcmTag_le (s'.keyOperand c) (s.nextRandom 12)
        (gcmCrypt (s'.keyOperand c) (s.nextRandom 12) (s'.dataOperand c))
      rw [State.length_dataOperand, hch] at hct
      rw [State.writeArray_bufMax, List.length_append]
      omega
    · exact hivn

theorem gcmDecRule_keepsOperands (c : Nat) (s : State) : (gcmDecRule c s).KeepsOperands s c := by
  unfold gcmDecRule
  split
  · split
    · exact WritesOnlyResults.refl s c
    · dsimp only
      split
      · refine writesOnlyResults_setOutput s c _ fun hfit => ?_
        have hpt := length_gcmCrypt_le (s.keyOperand c) (s.nonceOperand c)
          ((s.dataOperand c).take ((s.channel c).dinLen.toNat - 16))
        have htake := List.length_take_le ((s.channel c).dinLen.toNat - 16) (s.dataOperand c)
        omega
      · exact WritesOnlyResults.refl s c
  · exact WritesOnlyResults.refl s c

theorem ruleOf_keepsOperands (i : Instr) (c : Nat) (s : State) : (ruleOf i c s).KeepsOperands s c := by
  cases i with
  | rngBytes n => exact genBytes_keepsOperands n c s
  | genKey bits => exact genKeyRule_keepsOperands bits c s
  | genIv => exact genBytes_keepsOperands 16 c s
  | genNonce => exact genBytes_keepsOperands 12 c s
  | macCompute => exact macComputeRule_keepsOperands c s
  | macVerify => exact macVerifyRule_keepsOperands c s
  | cbcEnc => exact cbcEncRule_keepsOperands c s
  | cbcDec => exact cbcDecRule_keepsOperands c s
  | gcmEnc => exact gcmEncRule_keepsOperands c s
  | gcmDec => exact gcmDecRule_keepsOperands c s

/-- The frame of an engine step (R96) adds only an end, or the raise of an error, to what its rule wrote. -/
theorem State.runRule_writesOnlyResults (s : State) (c : Nat) (rule : Nat → State → RuleResult)
    (h : (rule c s).KeepsOperands s c) : WritesOnlyResults s (s.runRule c rule) c := by
  rcases State.runRule_cases s c rule with ⟨-, e⟩ | ⟨-, s', hr, e⟩ | ⟨-, code, s', hr, e⟩ | ⟨-, -, e⟩
  · rw [e]
    exact writesOnlyResults_complete s c _
  · rw [hr] at h
    rw [e]
    exact WritesOnlyResults.trans h (writesOnlyResults_complete s' c _)
  · rw [hr] at h
    rw [e]
    exact WritesOnlyResults.trans h (writesOnlyResults_raise s' c code)
  · rw [e]
    exact WritesOnlyResults.refl s c

theorem exec_writesOnlyResults (i : Instr) (s t : State) (h : exec i s = .next t) : WritesOnlyResults s t s.active := by
  obtain ⟨-, rfl⟩ := exec_next i s t h
  exact State.runRule_writesOnlyResults s s.active (ruleOf i) (ruleOf_keepsOperands i s.active s)

theorem illegalWord_writesOnlyResults (s : State) : WritesOnlyResults s (illegalWord s) s.active :=
  State.runRule_writesOnlyResults s s.active _ (WritesOnlyResults.refl s s.active)

/-- The operand lengths of every channel survive an engine step of channel `c`. -/
theorem WritesOnlyResults.operandLengths {s t : State} {c : Nat} (h : WritesOnlyResults s t c) (d : Nat) :
    (t.channel d).keyLen = (s.channel d).keyLen ∧ (t.channel d).dinLen = (s.channel d).dinLen ∧
      (t.channel d).xtagLen = (s.channel d).xtagLen := by
  by_cases hd : d = c
  · subst hd
    exact ⟨h.keyLen, h.dinLen, h.xtagLen⟩
  · rw [h.frame.others d hd]
    exact ⟨rfl, rfl, rfl⟩

theorem State.Inv.channel_inv_of_lt {s : State} (h : s.Inv) {c : Nat} (hc : c < s.nch) : (s.channel c).Inv s.bufMax :=
  h.channel_inv _ (List.mem_of_getElem? (State.getElem?_channels s c hc))

/-- Settles O37: every operation a command is written over writes results only, and the operand arrays have no byte in
common with the result arrays. -/
theorem engineNeverWritesOperands : Obligations.EngineNeverWritesOperands := by
  intro s t i hinv hexec d
  obtain ⟨hactive, -⟩ := exec_next i s t hexec
  have hwrites := exec_writesOnlyResults i s t hexec
  obtain ⟨hkey, hdin, hxtag⟩ := hwrites.operandLengths d
  refine ⟨hkey, hdin, hxtag, fun r k hr hk => ?_⟩
  have hoperand : r.heldResult = false := by rcases hr with rfl | rfl | rfl <;> rfl
  exact hwrites.bytes (hinv.channel_inv_of_lt hactive).dinLen_le _ (outsideResults_of_operand s s.active d r k hoperand hk)

/-! ### The parameters of the block (R8, R33) -/

/-- `t` has the capacities and the number of channels of `s`. -/
structure ParametersKept (s t : State) : Prop where
  bufUnits : t.bufUnits = s.bufUnits
  nch : t.nch = s.nch

theorem EngineFrame.parametersKept {s t : State} {c : Nat} (h : EngineFrame s t c) : ParametersKept s t :=
  ⟨h.bufUnits, h.nch⟩

theorem State.writeWord_parametersKept (s : State) (c : Nat) (r : WordReg) (v : Word) :
    ParametersKept s (s.writeWord c r v) := by
  rcases State.writeWord_cases s c r v with e | ⟨-, -, e⟩ | ⟨-, -, e⟩ | ⟨-, -, e⟩ | ⟨-, -, e⟩ | ⟨-, -, e⟩ <;> rw [e]
  · exact ⟨rfl, rfl⟩
  all_goals exact ⟨State.updateChannel_bufUnits _ _ _, State.updateChannel_nch _ _ _⟩

theorem State.memWrite_parametersKept (s : State) (addr n : Nat) (v : Word) : ParametersKept s (s.memWrite addr n v) := by
  rcases State.memWrite_cases s addr n v with e | ⟨c, r, -, -, -, e⟩ | ⟨c, r, k, -, -, -, -, -, -, e⟩
  · rw [e]
    exact ⟨rfl, rfl⟩
  · rw [e]
    exact State.writeWord_parametersKept s c r v
  · rw [e]
    exact ⟨rfl, rfl⟩

theorem State.engineTurn_parametersKept (s t : State) (c : Nat) (a : Answer) (h : s.engineTurn c a = .next t) :
    ParametersKept s t := by
  rcases State.engineTurn_cases s c a with ⟨-, e⟩ | ⟨-, -, i, -, e⟩ | ⟨-, -, -, -, e⟩
  · rw [e] at h
    cases h
    exact ⟨rfl, rfl⟩
  · rw [e] at h
    obtain ⟨hbuf, hnch⟩ := (exec_writesOnlyResults i _ t h).frame.parametersKept
    exact ⟨hbuf, hnch⟩
  · rw [e] at h
    cases h
    obtain ⟨hbuf, hnch⟩ := (illegalWord_writesOnlyResults (s.takeTurn c a)).frame.parametersKept
    exact ⟨hbuf, hnch⟩

/-- No agent's step changes `BUF_MAX` or `NCH` (R33), reset among them. -/
theorem step_parametersKept (s t : State) (h : step s = .next t) : ParametersKept s t := by
  rw [step_eq] at h
  split at h
  · cases h
    exact ⟨rfl, rfl⟩
  · cases h
    exact ⟨rfl, rfl⟩
  · next addr n v rest _ =>
    cases h
    obtain ⟨hbuf, hnch⟩ := State.memWrite_parametersKept (s.popped rest) addr n v
    exact ⟨hbuf, hnch⟩
  · next c a rest _ =>
    obtain ⟨hbuf, hnch⟩ := State.engineTurn_parametersKept (s.popped rest) t c a h
    exact ⟨hbuf, hnch⟩
  · next source rest _ =>
    cases h
    exact ⟨rfl, State.nch_applyReset (s.popped rest) source⟩

/-- Settles O22: the two words are read on every channel, writes to them are dropped, and every step keeps what they
report. -/
theorem capsAreConstant : Obligations.CapsAreConstant := by
  refine ⟨fun s c hc => ⟨State.toNat_memRead_caps0 s c hc, State.toNat_memRead_caps1 s c hc, fun v => ?_⟩,
    fun s t h => ?_⟩
  · exact ⟨State.memWrite_wordAddr_of_writeWord_eq_self s c .caps0 v hc rfl,
      State.memWrite_wordAddr_of_writeWord_eq_self s c .caps1 v hc rfl⟩
  · obtain ⟨hbuf, hnch⟩ := step_parametersKept s t h
    exact ⟨State.bufMax_of_bufUnits s t hbuf, hnch⟩

end Sys2Proof.Machine

namespace Sys2Proof.Machine

/-! ### Accesses refused for their width or their alignment (R65) -/

/-- An access meets nothing unless it is 1, 2 or 4 bytes wide and naturally aligned, whatever its address holds (R65). -/
theorem State.target_eq_none_of_not_aligned (s : State) (addr n : Nat)
    (h : ¬ ((n = 1 ∨ n = 2 ∨ n = 4) ∧ addr % n = 0)) : s.target addr n = none := by
  rw [State.target, if_neg]
  rintro ⟨-, haligned⟩
  exact h haligned

theorem step_of_memWrite (s : State) (addr n : Nat) (v : Word) (rest : List Event)
    (h : s.agenda = .memWrite addr n v :: rest) : step s = .next ((s.popped rest).memWrite addr n v) := by
  rw [step_eq, h]

theorem step_of_memRead (s : State) (addr n : Nat) (rest : List Event) (h : s.agenda = .memRead addr n :: rest) :
    step s = .next { s.popped rest with replies := s.memRead addr n :: s.replies } := by
  rw [step_eq, h]
  rfl

/-- Settles O13: in each of R65's three cases the access meets no target, and without one a write is lost and a read
gives 0. -/
theorem misalignedAccessRefused : Obligations.MisalignedAccessRefused := by
  intro s addr n v rest hbad
  have hnot : ¬ ((n = 1 ∨ n = 2 ∨ n = 4) ∧ addr % n = 0) := by
    rintro ⟨hwidth, haligned⟩
    rcases hbad with ⟨h1, h2, h4⟩ | ⟨rfl, hodd⟩ | ⟨rfl, hodd⟩
    · exact hwidth.elim h1 (Or.elim · h2 h4)
    · exact hodd haligned
    · exact hodd haligned
  refine ⟨fun hagenda => ?_, fun hagenda => ?_⟩
  · have hnone := State.target_eq_none_of_not_aligned (s.popped rest) addr n hnot
    rw [step_of_memWrite s addr n v rest hagenda, State.memWrite_of_none _ addr n v hnone]
  · have hnone := State.target_eq_none_of_not_aligned s addr n hnot
    rw [step_of_memRead s addr n rest hagenda, State.memRead_of_none s addr n hnone]

end Sys2Proof.Machine

namespace Sys2Proof.Machine

/-! ### Writes to `CMD` (R95) -/

/-- What a 4-byte write to `CMD` of an existing channel does: the three arms of R95. -/
theorem State.memWrite_cmd (s : State) (c : Nat) (w : Word) (hc : c < s.nch) :
    s.memWrite (wordAddr c .cmd) 4 w =
      if (s.channel c).busy then s
      else s.updateChannel c (if s.fatal then Channel.refuseFatal else Channel.accept w) := by
  rw [State.memWrite_of_word s _ 4 c .cmd w (State.target_word s c .cmd hc), State.writeWord, State.writeCmd,
    apply_ite (s.updateChannel c)]

/-- A change of channel `c`'s control words, whatever it is, is no change of another part of the state. -/
theorem engineFrame_updateChannel (s : State) (c : Nat) (f : Channel → Channel) :
    EngineFrame s (s.updateChannel c f) c :=
  ⟨rfl, rfl, rfl, rfl, rfl, rfl, State.updateChannel_nch s c f, fun d hd => State.channel_updateChannel_ne s c d f hd⟩

/-- Settles O11: the step is the write, and the two arms of an idle channel are one change of its control words, which
the latch selects. -/
theorem cmdWriteHasThreeArms : Obligations.CmdWriteHasThreeArms := by
  intro s c w rest hagenda hc
  have hstep := step_of_memWrite s _ 4 w rest hagenda
  rw [State.memWrite_cmd (s.popped rest) c w hc, State.popped_channel, State.popped_fatal] at hstep
  refine ⟨fun hbusy => ?_, fun hidle => ?_⟩
  · rw [hstep, if_pos hbusy]
  · rw [hidle, if_neg Bool.false_ne_true] at hstep
    have hself := fun f => State.channel_updateChannel_self (s.popped rest) c f hc
    refine ⟨_, hstep, engineFrame_updateChannel _ c _, ⟨rfl, rfl, rfl⟩, fun _ => rfl, fun hfatal => ?_, fun hfatal => ?_⟩
    · rw [hself, if_pos hfatal]
      rfl
    · rw [hself, hfatal, if_neg Bool.false_ne_true]
      rfl

end Sys2Proof.Machine

/-! PROOFS of the statement about the AES block cipher (spec 42_aes_core.md R160 to R172): each step of a round is undone by
its inverse, hence each round, hence the cipher. -/

namespace Sys2Proof.Machine

/-! ### `MixColumns` on one column

The factors of both matrices are sums of `Xtime` applied some times, and `Xtime` is additive. `MixColumns` taken twice adds
`quadSum` of alternate bytes to each byte, and that taken twice changes nothing, so that `MixColumns` is undone by itself
taken three times, which is what `InvMixColumns` is. -/

@[simp] theorem gfMul_2 (a : Byte) : gfMul a 2#8 = xtime a := by simp [gfMul, gfMulFrom]
@[simp] theorem gfMul_3 (a : Byte) : gfMul a 3#8 = a ^^^ xtime a := by simp [gfMul, gfMulFrom]
@[simp] theorem gfMul_9 (a : Byte) : gfMul a 9#8 = a ^^^ xtime (xtime (xtime a)) := by simp [gfMul, gfMulFrom]
@[simp] theorem gfMul_11 (a : Byte) : gfMul a 11#8 = a ^^^ xtime a ^^^ xtime (xtime (xtime a)) := by
  simp [gfMul, gfMulFrom]
@[simp] theorem gfMul_13 (a : Byte) : gfMul a 13#8 = a ^^^ xtime (xtime a) ^^^ xtime (xtime (xtime a)) := by
  simp [gfMul, gfMulFrom]
@[simp] theorem gfMul_14 (a : Byte) : gfMul a 14#8 = xtime a ^^^ xtime (xtime a) ^^^ xtime (xtime (xtime a)) := by
  simp [gfMul, gfMulFrom]

/-- With `BitVec.xor_assoc` and `BitVec.xor_comm`, sorts a sum of bytes. -/
theorem xor_left_comm_byte (a b c : Byte) : a ^^^ (b ^^^ c) = b ^^^ (a ^^^ c) := by
  rw [← BitVec.xor_assoc, BitVec.xor_comm a b, BitVec.xor_assoc]

theorem xtime_xor (a b : Byte) : xtime (a ^^^ b) = xtime a ^^^ xtime b := by
  simp only [xtime, BitVec.getLsbD_xor, BitVec.shiftLeft_xor_distrib]
  cases a.getLsbD 7 <;> cases b.getLsbD 7 <;>
    simp [BitVec.xor_assoc, BitVec.xor_comm, xor_left_comm_byte]

/-- The product of 4 and the sum of two bytes, in GF(2^8) (R160). -/
def quadSum (a b : Byte) : Byte := xtime (xtime (a ^^^ b))

theorem quadSum_xor_xor (a b x : Byte) : quadSum (a ^^^ x) (b ^^^ x) = quadSum a b := by
  rw [quadSum, BitVec.xor_assoc, xor_left_comm_byte x, BitVec.xor_self, BitVec.xor_zero, quadSum]

theorem mixColumn_of_mixColumn {a0 a1 a2 a3 b0 b1 b2 b3 : Byte} (h : mixColumn a0 a1 a2 a3 = [b0, b1, b2, b3]) :
    mixColumn b0 b1 b2 b3 =
      [a0 ^^^ quadSum a0 a2, a1 ^^^ quadSum a1 a3, a2 ^^^ quadSum a0 a2, a3 ^^^ quadSum a1 a3] := by
  cases h
  simp [mixColumn, quadSum, xtime_xor, BitVec.xor_assoc, BitVec.xor_comm, xor_left_comm_byte]

theorem invMixColumn_eq_mixColumn (a0 a1 a2 a3 : Byte) :
    invMixColumn a0 a1 a2 a3 =
      mixColumn (a0 ^^^ quadSum a0 a2) (a1 ^^^ quadSum a1 a3) (a2 ^^^ quadSum a0 a2) (a3 ^^^ quadSum a1 a3) := by
  simp [mixColumn, invMixColumn, quadSum, xtime_xor, BitVec.xor_assoc, BitVec.xor_comm, xor_left_comm_byte]

theorem mixColumn_of_invMixColumn {a0 a1 a2 a3 b0 b1 b2 b3 : Byte} (h : invMixColumn a0 a1 a2 a3 = [b0, b1, b2, b3]) :
    mixColumn b0 b1 b2 b3 = [a0, a1, a2, a3] := by
  rw [invMixColumn_eq_mixColumn] at h
  simpa [quadSum_xor_xor, BitVec.xor_assoc] using mixColumn_of_mixColumn h

theorem invMixColumn_of_mixColumn {a0 a1 a2 a3 b0 b1 b2 b3 : Byte} (h : mixColumn a0 a1 a2 a3 = [b0, b1, b2, b3]) :
    invMixColumn b0 b1 b2 b3 = [a0, a1, a2, a3] := by
  rw [invMixColumn_eq_mixColumn]
  have hthree := mixColumn_of_mixColumn (mixColumn_of_mixColumn h)
  simpa [quadSum_xor_xor, BitVec.xor_assoc] using mixColumn_of_mixColumn hthree

/-! ### The steps of a round -/

theorem invSbox_sbox : ∀ a : Byte, invSbox (sbox a) = a := by decide +kernel

theorem sbox_invSbox : ∀ a : Byte, sbox (invSbox a) = a := by decide +kernel

theorem invSubBytes_subBytes (s : List Byte) : invSubBytes (subBytes s) = s := by
  simp [invSubBytes, subBytes, Function.comp_def, invSbox_sbox]

theorem subBytes_invSubBytes (s : List Byte) : subBytes (invSubBytes s) = s := by
  simp [invSubBytes, subBytes, Function.comp_def, sbox_invSbox]

/-- Two blocks with the same byte at each of the sixteen positions are one block. -/
theorem block_ext {s t : List Byte} (hs : s.length = 16) (ht : t.length = 16)
    (h : ∀ i < 16, s.getD i 0#8 = t.getD i 0#8) : s = t := by
  refine List.ext_getElem (hs.trans ht.symm) fun i hi hi' => ?_
  have hbyte := h i (hs ▸ hi)
  rwa [List.getD_eq_getElem s _ hi, List.getD_eq_getElem t _ hi'] at hbyte

theorem getD_shiftRows (s : List Byte) {i : Nat} (hi : i < 16) :
    (shiftRows s).getD i 0#8 = s.getD (4 * ((i / 4 + i % 4) % 4) + i % 4) 0#8 := by
  rw [List.getD_eq_getElem _ _ (by simpa using hi)]
  simp [shiftRows]

theorem getD_invShiftRows (s : List Byte) {i : Nat} (hi : i < 16) :
    (invShiftRows s).getD i 0#8 = s.getD (4 * ((i / 4 + 4 - i % 4) % 4) + i % 4) 0#8 := by
  rw [List.getD_eq_getElem _ _ (by simpa using hi)]
  simp [invShiftRows]

theorem invShiftRows_shiftRows {s : List Byte} (hs : s.length = 16) : invShiftRows (shiftRows s) = s := by
  refine block_ext (length_invShiftRows _) hs fun i hi => ?_
  rw [getD_invShiftRows _ hi, getD_shiftRows _ (by omega)]
  congr 1
  omega

theorem shiftRows_invShiftRows {s : List Byte} (hs : s.length = 16) : shiftRows (invShiftRows s) = s := by
  refine block_ext (length_shiftRows _) hs fun i hi => ?_
  rw [getD_shiftRows _ hi, getD_invShiftRows _ (by omega)]
  congr 1
  omega

/-- The four columns of a block make it up again (R161). -/
theorem mapColumns_column {s : List Byte} (hs : s.length = 16) :
    mapColumns (fun a0 a1 a2 a3 => [a0, a1, a2, a3]) s = s := by
  refine block_ext (by simp [mapColumns, List.range, List.range.loop]) hs fun i hi => ?_
  simp only [mapColumns, List.range, List.range.loop, List.flatMap_cons, List.flatMap_nil]
  interval_cases i <;> rfl

/-- A function of a column that `g` undoes is undone on a block by `g` on its columns. -/
theorem mapColumns_mapColumns (f g : Byte → Byte → Byte → Byte → List Byte)
    (hlen : ∀ a0 a1 a2 a3, (f a0 a1 a2 a3).length = 4)
    (hundo : ∀ {a0 a1 a2 a3 b0 b1 b2 b3}, f a0 a1 a2 a3 = [b0, b1, b2, b3] → g b0 b1 b2 b3 = [a0, a1, a2, a3])
    {s : List Byte} (hs : s.length = 16) : mapColumns g (mapColumns f s) = s := by
  have hcolumn : ∀ c, ∃ b0 b1 b2 b3,
      f (s.getD (4 * c) 0#8) (s.getD (4 * c + 1) 0#8) (s.getD (4 * c + 2) 0#8) (s.getD (4 * c + 3) 0#8) =
        [b0, b1, b2, b3] := fun c => List.length_eq_four.mp (hlen _ _ _ _)
  choose b0 b1 b2 b3 hb using hcolumn
  calc mapColumns g (mapColumns f s)
      = mapColumns g ((List.range 4).flatMap fun c => [b0 c, b1 c, b2 c, b3 c]) := by simp only [mapColumns, hb]
    _ = (List.range 4).flatMap fun c => g (b0 c) (b1 c) (b2 c) (b3 c) := by
        simp [mapColumns, List.range, List.range.loop]
    _ = mapColumns (fun a0 a1 a2 a3 => [a0, a1, a2, a3]) s := by simp only [mapColumns, hundo (hb _)]
    _ = s := mapColumns_column hs

theorem invMixColumns_mixColumns {s : List Byte} (hs : s.length = 16) : invMixColumns (mixColumns s) = s :=
  mapColumns_mapColumns mixColumn invMixColumn (fun _ _ _ _ => rfl) invMixColumn_of_mixColumn hs

theorem mixColumns_invMixColumns {s : List Byte} (hs : s.length = 16) : mixColumns (invMixColumns s) = s :=
  mapColumns_mapColumns invMixColumn mixColumn (fun _ _ _ _ => rfl) mixColumn_of_invMixColumn hs

@[simp] theorem length_addRoundKey (s rk : List Byte) : (addRoundKey s rk).length = min s.length rk.length :=
  length_xorBytes s rk

theorem addRoundKey_addRoundKey {s rk : List Byte} (h : s.length = rk.length) :
    addRoundKey (addRoundKey s rk) rk = s := by
  refine List.ext_getElem (by simp [h]) fun i _ _ => ?_
  simp [addRoundKey, xorBytes]

/-! ### The rounds -/

/-- The two steps that every round of the cipher, the last one too, begins with (R168). -/
def subShift (s : List Byte) : List Byte := shiftRows (subBytes s)

/-- The two steps that every round of the inverse cipher, the last one too, begins with (R170). -/
def invSubShift (s : List Byte) : List Byte := invSubBytes (invShiftRows s)

@[simp] theorem length_subShift (s : List Byte) : (subShift s).length = 16 := length_shiftRows _

@[simp] theorem length_invSubShift (s : List Byte) : (invSubShift s).length = 16 := by simp [invSubShift]

theorem invSubShift_subShift {s : List Byte} (hs : s.length = 16) : invSubShift (subShift s) = s := by
  rw [invSubShift, subShift, invShiftRows_shiftRows (by simpa using hs), invSubBytes_subBytes]

theorem subShift_invSubShift {s : List Byte} (hs : s.length = 16) : subShift (invSubShift s) = s := by
  rw [invSubShift, subShift, subBytes_invSubBytes, shiftRows_invShiftRows hs]

/-- The rounds of the cipher cut where those of the inverse cipher are: from between `ShiftRows` and `MixColumns` of one
round to the same place of the next. -/
def shiftedRound (s rk : List Byte) : List Byte := subShift (addRoundKey (mixColumns s) rk)

/-- `subShift` takes the rounds of the cipher to the shifted rounds. -/
theorem foldl_shiftedRound (rks : List (List Byte)) (s : List Byte) :
    rks.foldl shiftedRound (subShift s) = subShift (rks.foldl encryptRound s) :=
  List.foldl_hom subShift fun _ _ => rfl

theorem length_shiftedRound (s rk : List Byte) : (shiftedRound s rk).length = 16 := length_subShift _

theorem length_decryptRound (s rk : List Byte) : (decryptRound s rk).length = 16 := length_invMixColumns _

theorem decryptRound_shiftedRound {s rk : List Byte} (hs : s.length = 16) (hrk : rk.length = 16) :
    decryptRound (shiftedRound s rk) rk = s := by
  show invMixColumns (addRoundKey (invSubShift (subShift _)) rk) = s
  rw [invSubShift_subShift (by simp [hrk]), addRoundKey_addRoundKey (by simp [hrk]), invMixColumns_mixColumns hs]

theorem shiftedRound_decryptRound {s rk : List Byte} (hs : s.length = 16) (hrk : rk.length = 16) :
    shiftedRound (decryptRound s rk) rk = s := by
  show subShift (addRoundKey (mixColumns (invMixColumns (addRoundKey (invSubShift s) rk))) rk) = s
  rw [mixColumns_invMixColumns (by simp [hrk]), addRoundKey_addRoundKey (by simp [hrk]), subShift_invSubShift hs]

theorem length_foldl_round (f : List Byte → List Byte → List Byte) (hlen : ∀ s rk, (f s rk).length = 16)
    (rks : List (List Byte)) {s : List Byte} (hs : s.length = 16) : (rks.foldl f s).length = 16 := by
  induction rks generalizing s with
  | nil => exact hs
  | cons rk rest ih => exact ih (hlen s rk)

/-- Rounds `f` under a list of round keys are undone by the rounds `g` that undo each, under the keys in reverse. -/
theorem foldl_reverse_foldl (f g : List Byte → List Byte → List Byte) (hlen : ∀ s rk, (f s rk).length = 16)
    (hundo : ∀ {s rk}, s.length = 16 → rk.length = 16 → g (f s rk) rk = s) (rks : List (List Byte))
    (hrks : ∀ rk ∈ rks, rk.length = 16) {s : List Byte} (hs : s.length = 16) :
    rks.reverse.foldl g (rks.foldl f s) = s := by
  induction rks generalizing s with
  | nil => rfl
  | cons rk rest ih =>
    obtain ⟨hrk, hrest⟩ := List.forall_mem_cons.mp hrks
    rw [List.foldl_cons, List.reverse_cons, List.foldl_append, ih hrest (hlen s rk)]
    exact hundo hs hrk

/-! ### The round keys (R165) -/

/-- The pieces of a byte sequence that is long enough are full ones. -/
theorem length_of_mem_chunks {k n : Nat} {s p : List Byte} (h : k * n ≤ s.length) (hp : p ∈ chunks k n s) :
    p.length = k := by
  induction n generalizing s with
  | zero => cases hp
  | succ m ih =>
    rw [Nat.mul_succ] at h
    rcases List.mem_cons.mp hp with rfl | hp
    · rw [List.length_take]
      omega
    · exact ih (by rw [List.length_drop]; omega) hp

theorem length_keyScheduleTerm (nk i : Nat) {t : List Byte} (ht : t.length = 4) :
    (keyScheduleTerm nk i t).length = 4 := by
  unfold keyScheduleTerm
  split
  · simp [subWord, rotWord, ht]
  · split
    · simp [subWord, ht]
    · exact ht

@[simp] theorem length_extendKey (nk k i : Nat) (latest : List (List Byte)) :
    (extendKey nk k i latest).length = latest.length + k := by
  induction k generalizing i latest with
  | zero => rfl
  | succ j ih =>
    rw [extendKey, ih, List.length_cons]
    omega

theorem length_getD_of_forall {n i : Nat} {l : List (List Byte)} (hl : ∀ w ∈ l, w.length = n) (hi : i < l.length) :
    (l.getD i []).length = n := by
  rw [List.getD_eq_getElem l _ hi]
  exact hl _ (List.getElem_mem hi)

/-- The key expansion goes on with words of four bytes from a key of such words. -/
theorem length_of_mem_extendKey {nk k i : Nat} {latest : List (List Byte)} (hnk : 0 < nk) (hlatest : nk ≤ latest.length)
    (hwords : ∀ w ∈ latest, w.length = 4) : ∀ w ∈ extendKey nk k i latest, w.length = 4 := by
  induction k generalizing i latest with
  | zero => exact hwords
  | succ j ih =>
    have hfirst := length_getD_of_forall hwords (i := 0) (by omega)
    have hback := length_getD_of_forall hwords (i := nk - 1) (by omega)
    refine ih (hlatest.trans (by simp)) (List.forall_mem_cons.mpr ⟨?_, hwords⟩)
    rw [length_xorBytes, hback, length_keyScheduleTerm nk i hfirst, Nat.min_self]

/-- The expansion of a key of `nk` words fills its `nk + 7` round keys of 16 bytes. -/
theorem length_flatten_keyExpansion {key : List Byte} {nk : Nat} (hkey : key.length = 4 * nk) (hnk : 0 < nk) :
    (keyExpansion key).flatten.length = 16 * (nk + 7) := by
  have hdiv : key.length / 4 = nk := by omega
  have hwords : ∀ w ∈ keyExpansion key, w.length = 4 := by
    rw [keyExpansion, hdiv]
    intro w hw
    refine length_of_mem_extendKey hnk (by simp) (fun v hv => ?_) w (List.mem_reverse.mp hw)
    exact length_of_mem_chunks hkey.ge (List.mem_reverse.mp hv)
  have hcount : (keyExpansion key).length = 4 * (nk + 7) := by
    rw [keyExpansion, hdiv, List.length_reverse, length_extendKey, List.length_reverse, length_chunks]
    omega
  rw [List.length_flatten, List.sum_eq_card_nsmul _ 4 (by simpa using hwords), List.length_map, hcount, smul_eq_mul]
  omega

theorem length_of_mem_roundKeys {key : List Byte} {nk : Nat} (hkey : key.length = 4 * nk) (hnk : 0 < nk) :
    ∀ rk ∈ roundKeys key, rk.length = 16 := by
  intro rk hrk
  have hdiv : key.length / 4 = nk := by omega
  rw [roundKeys, hdiv] at hrk
  exact length_of_mem_chunks (length_flatten_keyExpansion hkey hnk).ge hrk

theorem length_roundKey {key : List Byte} {nk r : Nat} (hkey : key.length = 4 * nk) (hnk : 0 < nk) (hr : r < nk + 7) :
    (roundKey (roundKeys key) r).length = 16 := by
  refine length_getD_of_forall (length_of_mem_roundKeys hkey hnk) ?_
  rw [roundKeys, length_chunks]
  omega

/-! ### The block cipher -/

/-- `AesEncryptBlock` under given round keys, in shifted rounds: `first` is `RK[0]`, `inner` is `RK[1..Nr)` and `last` is
`RK[Nr]`. -/
def encryptWith (first : List Byte) (inner : List (List Byte)) (last b : List Byte) : List Byte :=
  addRoundKey (inner.foldl shiftedRound (subShift (addRoundKey b first))) last

/-- `AesDecryptBlock` under given round keys. -/
def decryptWith (first : List Byte) (inner : List (List Byte)) (last b : List Byte) : List Byte :=
  addRoundKey (invSubShift (inner.reverse.foldl decryptRound (addRoundKey b last))) first

theorem aesEncryptBlock_eq_encryptWith (key b : List Byte) :
    aesEncryptBlock key b =
      encryptWith (roundKey (roundKeys key) 0) (innerRoundKeys (roundKeys key) (key.length / 4 + 6))
        (roundKey (roundKeys key) (key.length / 4 + 6)) b := by
  rw [encryptWith, foldl_shiftedRound]
  rfl

theorem aesDecryptBlock_eq_decryptWith (key b : List Byte) :
    aesDecryptBlock key b =
      decryptWith (roundKey (roundKeys key) 0) (innerRoundKeys (roundKeys key) (key.length / 4 + 6))
        (roundKey (roundKeys key) (key.length / 4 + 6)) b := rfl

section
variable {first last b : List Byte} {inner : List (List Byte)}

theorem length_encryptWith (hlast : last.length = 16) : (encryptWith first inner last b).length = 16 := by
  rw [encryptWith, length_addRoundKey, hlast, length_foldl_round _ length_shiftedRound inner (length_subShift _),
    Nat.min_self]

theorem length_decryptWith (hfirst : first.length = 16) : (decryptWith first inner last b).length = 16 := by
  rw [decryptWith, length_addRoundKey, hfirst, length_invSubShift, Nat.min_self]

theorem decryptWith_encryptWith (hfirst : first.length = 16) (hinner : ∀ rk ∈ inner, rk.length = 16)
    (hlast : last.length = 16) (hb : b.length = 16) :
    decryptWith first inner last (encryptWith first inner last b) = b := by
  have hstate := length_foldl_round _ length_shiftedRound inner (length_subShift (addRoundKey b first))
  rw [decryptWith, encryptWith, addRoundKey_addRoundKey (hstate.trans hlast.symm),
    foldl_reverse_foldl _ _ length_shiftedRound decryptRound_shiftedRound inner hinner (length_subShift _),
    invSubShift_subShift (by simp [hb, hfirst]), addRoundKey_addRoundKey (hb.trans hfirst.symm)]

theorem encryptWith_decryptWith (hfirst : first.length = 16) (hinner : ∀ rk ∈ inner, rk.length = 16)
    (hlast : last.length = 16) (hb : b.length = 16) :
    encryptWith first inner last (decryptWith first inner last b) = b := by
  have hstart : (addRoundKey b last).length = 16 := by simp [hb, hlast]
  have hrounds := foldl_reverse_foldl _ _ length_decryptRound shiftedRound_decryptRound inner.reverse
    (fun rk hrk => hinner rk (List.mem_reverse.mp hrk)) hstart
  rw [List.reverse_reverse] at hrounds
  rw [encryptWith, decryptWith, addRoundKey_addRoundKey ((length_invSubShift _).trans hfirst.symm),
    subShift_invSubShift (length_foldl_round _ length_decryptRound _ hstart), hrounds,
    addRoundKey_addRoundKey (hb.trans hlast.symm)]

end

/-- Settles O48: the key expansion gives round keys of 16 bytes, and under any such round keys the rounds of one direction
undo those of the other one by one. -/
theorem aesBlockCipherIsInvertible : Obligations.AesBlockCipherIsInvertible := by
  intro key b hkey hb
  obtain ⟨nk, hwords, hnk⟩ : ∃ nk, key.length = 4 * nk ∧ 0 < nk := ⟨key.length / 4, by omega, by omega⟩
  have hfirst := length_roundKey hwords hnk (r := 0) (by omega)
  have hlast := length_roundKey hwords hnk (r := key.length / 4 + 6) (by omega)
  have hinner : ∀ rk ∈ innerRoundKeys (roundKeys key) (key.length / 4 + 6), rk.length = 16 := fun rk hrk =>
    length_of_mem_roundKeys hwords hnk rk (List.mem_of_mem_drop (List.mem_of_mem_take hrk))
  simp only [aesEncryptBlock_eq_encryptWith, aesDecryptBlock_eq_decryptWith]
  exact ⟨length_encryptWith hlast, length_decryptWith hfirst, decryptWith_encryptWith hfirst hinner hlast hb,
    encryptWith_decryptWith hfirst hinner hlast hb⟩

end Sys2Proof.Machine

/-! PROOFS of the statement that CBC_DEC undoes CBC_ENC (spec 43_cbc.md R190 to R204): the padding comes off again, the
chaining loop is undone block by block, and each command ends normally on operands that fit. -/

namespace Sys2Proof.Machine

/-! ### The padding (R190, R191) -/

theorem cbcUnpad_append_rep (p : List Byte) {n : Nat} (hpos : 0 < n) (hle : n ≤ 16) :
    cbcUnpad (p ++ rep (BitVec.ofNat 8 n) n) = some p := by
  have hlast : (p ++ rep (BitVec.ofNat 8 n) n).getD (p.length + n - 1) 0#8 = BitVec.ofNat 8 n := by
    rw [List.getD_append_right _ _ _ _ (by omega), rep, List.getD_replicate _ (by omega)]
  have hvalue : (BitVec.ofNat 8 n).toNat = n := by
    rw [BitVec.toNat_ofNat]
    omega
  simp only [cbcUnpad, List.length_append, length_rep, hlast, hvalue, Nat.add_sub_cancel]
  rw [if_neg (by omega), List.drop_left, List.take_left]
  simp [rep]

theorem cbcUnpad_cbcPad (p : List Byte) : cbcUnpad (cbcPad p) = some p :=
  cbcUnpad_append_rep p (by omega) (by omega)

/-! ### The chaining loop (R192, R193) -/

theorem xorBytes_xorBytes {s t : List Byte} (h : s.length = t.length) : xorBytes (xorBytes s t) t = s :=
  addRoundKey_addRoundKey h

theorem blocksOf_append {b : List Byte} (hb : b.length = 16) (rest : List Byte) :
    blocksOf (b ++ rest) = b :: blocksOf rest := by
  have hcount : ((b ++ rest).length + 15) / 16 = (rest.length + 15) / 16 + 1 := by
    rw [List.length_append, hb]
    omega
  rw [blocksOf, hcount, chunks, ← hb, List.take_left, List.drop_left, hb]
  rfl

theorem length_of_mem_blocksOf {m b : List Byte} (hm : m.length % 16 = 0) (hb : b ∈ blocksOf m) : b.length = 16 :=
  length_of_mem_chunks (by omega) hb

section
variable {key : List Byte} (hkey : key.length = 16 ∨ key.length = 24 ∨ key.length = 32)
include hkey

theorem length_cbcEncryptBlocks {prev : List Byte} (hprev : prev.length = 16) {blocks : List (List Byte)}
    (hblocks : ∀ b ∈ blocks, b.length = 16) : (cbcEncryptBlocks key prev blocks).length = 16 * blocks.length := by
  induction blocks generalizing prev with
  | nil => rfl
  | cons b rest ih =>
    obtain ⟨hb, hrest⟩ := List.forall_mem_cons.mp hblocks
    obtain ⟨hcipher, -⟩ := aesBlockCipherIsInvertible key (xorBytes b prev) hkey (by simp [hb, hprev])
    rw [cbcEncryptBlocks, List.length_append, hcipher, ih hcipher hrest, List.length_cons]
    omega

/-- Each block is recovered from its own ciphertext block and the one before, whatever follows. -/
theorem cbcDecryptBlocks_cbcEncryptBlocks {prev : List Byte} (hprev : prev.length = 16) {blocks : List (List Byte)}
    (hblocks : ∀ b ∈ blocks, b.length = 16) :
    cbcDecryptBlocks key prev (blocksOf (cbcEncryptBlocks key prev blocks)) = blocks.flatten := by
  induction blocks generalizing prev with
  | nil => simp [cbcEncryptBlocks, blocksOf, chunks, cbcDecryptBlocks]
  | cons b rest ih =>
    obtain ⟨hb, hrest⟩ := List.forall_mem_cons.mp hblocks
    obtain ⟨hcipher, -, hundo, -⟩ := aesBlockCipherIsInvertible key (xorBytes b prev) hkey (by simp [hb, hprev])
    rw [cbcEncryptBlocks, blocksOf_append hcipher, cbcDecryptBlocks, hundo, xorBytes_xorBytes (hb.trans hprev.symm),
      ih hcipher hrest, List.flatten_cons]

theorem length_cbcEncryptRaw {iv m : List Byte} (hiv : iv.length = 16) (hm : m.length % 16 = 0) :
    (cbcEncryptRaw key iv m).length = m.length := by
  rw [cbcEncryptRaw, length_cbcEncryptBlocks hkey hiv fun b => length_of_mem_blocksOf hm, length_blocksOf]
  omega

theorem cbcDecryptRaw_cbcEncryptRaw {iv m : List Byte} (hiv : iv.length = 16) (hm : m.length % 16 = 0) :
    cbcDecryptRaw key iv (cbcEncryptRaw key iv m) = m := by
  rw [cbcDecryptRaw, cbcEncryptRaw, cbcDecryptBlocks_cbcEncryptBlocks hkey hiv fun b => length_of_mem_blocksOf hm,
    flatten_blocksOf]

end

/-! ### Where the commands end normally (R200, R201) -/

theorem aesKeyOk_iff (len : Nat) : aesKeyOk len = true ↔ len = 16 ∨ len = 24 ∨ len = 32 := decide_eq_true_iff

/-- On a ready channel, a command whose pseudocode reaches its end completes with code 0 (R96). -/
theorem exec_eq_next_of_ended {i : Instr} {s s' : State} {c : Nat} (hready : s.Ready c)
    (hrule : ruleOf i c s = .ended s') : exec i s = .next (s'.complete c .none) := by
  obtain ⟨rfl, hc, hfatal⟩ := hready
  rw [exec_eq_next i s hc, State.runRule_eq _ _ _ hfatal, hrule]

@[simp] theorem State.ivOperand_complete (s : State) (c d : Nat) (e : ErrCode) :
    (s.complete c e).ivOperand d = s.ivOperand d := rfl

theorem State.err_complete {s : State} {c : Nat} (hc : c < s.nch) (e : ErrCode) :
    ((s.complete c e).channel c).err = e := by
  rw [State.complete_channel s c c e hc, if_pos rfl]
  rfl

theorem State.output_complete {s : State} {c : Nat} (hc : c < s.nch) (e : ErrCode) :
    (s.complete c e).output c = s.output c := by
  rw [State.output, State.complete_channel s c c e hc, if_pos rfl]
  rfl

/-- An output leaves every other byte array as it was (R61). -/
theorem State.arrayBytes_setOutput (s : State) (c d : Nat) {r : ArrayReg} {n : Nat} (bytes : List Byte)
    (hr : r ≠ .dout) (hn : n ≤ r.size s.bufMax) (hlen : bytes.length ≤ s.bufMax) :
    (s.setOutput c bytes).arrayBytes d r n = s.arrayBytes d r n := by
  refine Memory.readBytes_congr _ _ _ _ fun a hlo hhi => ?_
  rw [State.read_setOutput s c bytes hlen, if_neg]
  rintro ⟨hlo', hhi'⟩
  obtain ⟨-, hr', -⟩ := arrays_disjoint s d c r .dout (a - arrayBase d r) (a - arrayBase c .dout) (by omega)
    (show _ < s.bufMax by omega) (by omega)
  exact hr hr'

theorem State.ivOperand_setOutput (s : State) (c d : Nat) {bytes : List Byte} (hlen : bytes.length ≤ s.bufMax) :
    (s.setOutput c bytes).ivOperand d = s.ivOperand d :=
  State.arrayBytes_setOutput s c d (r := .ivn) (n := 16) bytes (by decide) le_rfl hlen

theorem State.ivOperand_writeArray_ivn (s : State) (c : Nat) {iv : List Byte} (hiv : iv.length = 16) :
    (s.writeArray c .ivn iv).ivOperand c = iv := by
  have hread := Memory.readBytes_writeBytes s.mem (arrayBase c .ivn) iv
  rwa [hiv] at hread

/-- The envelope that the end of CBC_ENC leaves: `IVN` is written before `DOUT`, and neither touches the other. -/
theorem State.cbcEnvelope_of_written {s : State} {c : Nat} {iv ct : List Byte} (hc : c < s.nch)
    (hiv : iv.length = 16) (hct : ct.length ≤ s.bufMax) :
    (((s.writeArray c .ivn iv).setOutput c ct).complete c .none).cbcEnvelope c = ⟨ct, iv⟩ := by
  have hmax := s.bufMax_range
  have hcw : c < (s.writeArray c .ivn iv).nch := hc
  have hctw : ct.length ≤ (s.writeArray c .ivn iv).bufMax := hct
  have hout : (((s.writeArray c .ivn iv).setOutput c ct).complete c .none).output c = ct := by
    rw [State.output_complete (by simpa using hc), State.output_setOutput _ c ct hcw (by omega)]
  have hivn : (((s.writeArray c .ivn iv).setOutput c ct).complete c .none).ivOperand c = iv := by
    rw [State.ivOperand_complete, State.ivOperand_setOutput _ c c hctw, State.ivOperand_writeArray_ivn s c hiv]
  rw [State.cbcEnvelope, hout, hivn]

theorem exec_cbcEnc_cbcEnvelope {s : State} {c : Nat} (hready : s.Ready c)
    (hfits : 16 * ((s.channel c).dinLen.toNat / 16 + 1) ≤ s.bufMax)
    (hkey : (s.channel c).keyLen.toNat = 16 ∨ (s.channel c).keyLen.toNat = 24 ∨ (s.channel c).keyLen.toNat = 32)
    (hdraw : s.Delivers 16) :
    ∃ t, exec .cbcEnc s = .next t ∧ t.cbcEnvelope c =
      ⟨cbcEncryptRaw (s.keyOperand c) (s.nextRandom 16) (cbcPad (s.dataOperand c)), s.nextRandom 16⟩ := by
  have hrule : ruleOf .cbcEnc c s = .ended
      (({ s with rsPos := s.rsPos + 16, rngInit := true }.writeArray c .ivn (s.nextRandom 16)).setOutput c
        (cbcEncryptRaw (s.keyOperand c) (s.nextRandom 16) (cbcPad (s.dataOperand c)))) := by
    rw [ruleOf, cbcEncRule, if_neg (by omega), State.withDraw_of_delivers s 16 _ hdraw]
    exact if_pos ((aesKeyOk_iff _).mpr hkey)
  have hlen := length_cbcEncryptRaw_cbcPad_le (s.keyOperand c) (s.nextRandom 16) (s.dataOperand c)
  rw [State.length_dataOperand] at hlen
  have ⟨_, hc, _⟩ := hready
  exact ⟨_, exec_eq_next_of_ended hready hrule,
    State.cbcEnvelope_of_written hc (s.length_nextRandom 16) (hlen.trans hfits)⟩

theorem exec_cbcDec_output {s : State} {c : Nat} {p : List Byte} (hready : s.Ready c)
    (hkey : (s.channel c).keyLen.toNat = 16 ∨ (s.channel c).keyLen.toNat = 24 ∨ (s.channel c).keyLen.toNat = 32)
    (hpos : (s.channel c).dinLen.toNat ≠ 0) (hwhole : (s.channel c).dinLen.toNat % 16 = 0)
    (hunpad : cbcUnpad (cbcDecryptRaw (s.keyOperand c) (s.ivOperand c) (s.dataOperand c)) = some p) :
    ∃ t, exec .cbcDec s = .next t ∧ (t.channel c).err = .none ∧ t.output c = p := by
  have hrule : ruleOf .cbcDec c s = .ended (s.setOutput c p) := by
    rw [ruleOf, cbcDecRule, if_pos ((aesKeyOk_iff _).mpr hkey), if_neg (by omega), hunpad]
  have hlen : p.length < 2 ^ 32 := by
    have hp := length_le_of_cbcUnpad_eq_some _ p hunpad
    have hraw := length_cbcDecryptRaw_le (s.keyOperand c) (s.ivOperand c) (s.dataOperand c) (by simpa using hwhole)
    rw [State.length_dataOperand] at hraw
    have hword := (s.channel c).dinLen.isLt
    omega
  have ⟨_, hc, _⟩ := hready
  have hc' : c < (s.setOutput c p).nch := by simpa using hc
  exact ⟨_, exec_eq_next_of_ended hready hrule, State.err_complete hc' _,
    (State.output_complete hc' _).trans (State.output_setOutput s c p hc hlen)⟩

/-- Settles O53: CBC_ENC leaves the encryption of the padded message and its IV; any channel that holds this envelope and the
key decrypts it to the padded message, from which the padding comes off. -/
theorem cbcRoundTrip : Obligations.CbcRoundTrip := by
  intro s c hready hfits hkey hdraw
  obtain ⟨t, hexec, henvelope⟩ := exec_cbcEnc_cbcEnvelope hready hfits hkey hdraw
  refine ⟨t, hexec, fun u d hready' hkeyEq hpresented => ?_⟩
  obtain ⟨hdata, hiv⟩ := Envelope.mk.inj (hpresented.trans henvelope)
  have hkeyLen : (u.channel d).keyLen.toNat = (s.channel c).keyLen.toNat := by
    rw [← State.length_keyOperand, hkeyEq, State.length_keyOperand]
  have hkeyOperand : (s.keyOperand c).length = 16 ∨ (s.keyOperand c).length = 24 ∨ (s.keyOperand c).length = 32 := by
    rwa [State.length_keyOperand]
  have hpadded : (cbcPad (s.dataOperand c)).length % 16 = 0 := by
    rw [length_cbcPad]
    omega
  have hdinLen : (u.channel d).dinLen.toNat = 16 * ((s.dataOperand c).length / 16 + 1) := by
    rw [← State.length_dataOperand, hdata, length_cbcEncryptRaw hkeyOperand (s.length_nextRandom 16) hpadded, length_cbcPad]
  refine exec_cbcDec_output hready' (by rwa [hkeyLen]) (by omega) (by omega) ?_
  rw [hkeyEq, hiv, hdata, cbcDecryptRaw_cbcEncryptRaw hkeyOperand (s.length_nextRandom 16) hpadded, cbcUnpad_cbcPad]

end Sys2Proof.Machine

/-! PROOFS of the statement that GCM_DEC undoes GCM_ENC (spec 44_gcm.md R214 to R226): the counter mode is its own inverse,
the tag appended by one command is the tag the other computes, and each command ends normally on operands that fit. -/

namespace Sys2Proof.Machine

/-! ### The counter mode (R214) -/

theorem gctr_nil (key icb : List Byte) : gctr key icb [] = [] := rfl

/-- The blocks of a message are its first 16 bytes, or all it has where it is shorter, and the blocks of the rest. -/
theorem blocksOf_of_ne_nil {x : List Byte} (hx : x ≠ []) : blocksOf x = x.take 16 :: blocksOf (x.drop 16) := by
  have hpos := List.length_pos_iff.mpr hx
  have hcount : (x.length + 15) / 16 = ((x.drop 16).length + 15) / 16 + 1 := by
    rw [List.length_drop]
    omega
  rw [blocksOf, hcount, chunks]
  rfl

/-- One round of the counter loop; of the empty message it makes nothing. -/
theorem gctr_eq (key icb x : List Byte) :
    gctr key icb x = xorBytes (x.take 16) (aesEncryptBlock key icb) ++ gctr key (inc32 icb) (x.drop 16) := by
  by_cases hx : x = []
  · subst hx
    rfl
  · rw [gctr, blocksOf_of_ne_nil hx, gctrBlocks]
    rfl

/-- A key stream block is added twice; it may be longer than the last block of the message. -/
theorem xorBytes_xorBytes_of_le {s t : List Byte} (h : s.length ≤ t.length) : xorBytes (xorBytes s t) t = s := by
  refine List.ext_getElem (by simp [h]) fun i _ _ => ?_
  simp [xorBytes]

section
variable {key : List Byte} (hkey : key.length = 16 ∨ key.length = 24 ∨ key.length = 32)
include hkey

/-- The block cipher answers a whole block, whatever its input is. -/
theorem length_aesEncryptBlock (b : List Byte) : (aesEncryptBlock key b).length = 16 := by
  obtain ⟨nk, hwords, hnk⟩ : ∃ nk, key.length = 4 * nk ∧ 0 < nk := ⟨key.length / 4, by omega, by omega⟩
  rw [aesEncryptBlock_eq_encryptWith]
  exact length_encryptWith (length_roundKey hwords hnk (by omega))

theorem length_gctr_first (icb x : List Byte) :
    (xorBytes (x.take 16) (aesEncryptBlock key icb)).length = min 16 x.length := by
  rw [length_xorBytes, length_aesEncryptBlock hkey, List.length_take]
  omega

theorem length_gctr (icb x : List Byte) : (gctr key icb x).length = x.length := by
  by_cases hx : x = []
  · rw [hx, gctr_nil]
  · have hpos := List.length_pos_iff.mpr hx
    rw [gctr_eq, List.length_append, length_gctr_first hkey, length_gctr (inc32 icb) (x.drop 16), List.length_drop]
    omega
termination_by x.length
decreasing_by
  rw [List.length_drop]
  omega

theorem take_gctr (icb x : List Byte) :
    (gctr key icb x).take 16 = xorBytes (x.take 16) (aesEncryptBlock key icb) := by
  have hfirst := length_gctr_first hkey icb x
  rw [gctr_eq]
  by_cases hx : 16 ≤ x.length
  · exact List.take_left' (by omega)
  · rw [List.drop_of_length_le (by omega), gctr_nil, List.append_nil, List.take_of_length_le (by omega)]

theorem drop_gctr (icb x : List Byte) : (gctr key icb x).drop 16 = gctr key (inc32 icb) (x.drop 16) := by
  have hfirst := length_gctr_first hkey icb x
  rw [gctr_eq]
  by_cases hx : 16 ≤ x.length
  · exact List.drop_left' (by omega)
  · rw [List.drop_of_length_le (l := x) (by omega), gctr_nil, List.append_nil, List.drop_of_length_le (by omega)]

/-- The second pass adds the same key stream, block by block. -/
theorem gctr_gctr (icb x : List Byte) : gctr key icb (gctr key icb x) = x := by
  by_cases hx : x = []
  · rw [hx, gctr_nil, gctr_nil]
  · have hpos := List.length_pos_iff.mpr hx
    have hblock : (x.take 16).length ≤ (aesEncryptBlock key icb).length := by
      rw [length_aesEncryptBlock hkey]
      exact List.length_take_le _ _
    rw [gctr_eq, take_gctr hkey, drop_gctr hkey, xorBytes_xorBytes_of_le hblock, gctr_gctr (inc32 icb) (x.drop 16),
      List.take_append_drop]
termination_by x.length
decreasing_by
  rw [List.length_drop]
  omega

theorem gcmCrypt_gcmCrypt (nonce x : List Byte) : gcmCrypt key nonce (gcmCrypt key nonce x) = x := gctr_gctr hkey _ x

theorem length_gcmTag (nonce ct : List Byte) : (gcmTag key nonce ct).length = 16 := by
  rw [gcmTag, length_gctr hkey, length_ghash]

end

/-! ### The comparison of tags (R145) -/

/-- Every difference is 0, and so is the length test. -/
theorem ctEqual_self (tag : List Byte) : ctEqual tag tag tag.length = true := by
  simp [ctEqual]

/-! ### The nonce in `IVN` (R27) -/

theorem Memory.take_readBytes (m : Memory) (a : Nat) {k n : Nat} (h : k ≤ n) :
    (m.readBytes a n).take k = m.readBytes a k := by
  induction k generalizing a n with
  | zero => rfl
  | succ j ih =>
    obtain ⟨i, rfl⟩ : ∃ i, n = i + 1 := ⟨n - 1, by omega⟩
    rw [Memory.readBytes, Memory.readBytes, List.take_succ_cons, ih (a + 1) (by omega)]

theorem State.nonceOperand_eq_take (s : State) (c : Nat) : s.nonceOperand c = (s.ivOperand c).take 12 :=
  (Memory.take_readBytes s.mem _ (by omega)).symm

/-! ### Where the commands end normally (R222, R223) -/

/-- `IVN` and `DOUT` hold what a CBC envelope would, and the nonce is the first 12 bytes of `IVN`. -/
theorem State.gcmEnvelope_of_written {s : State} {c : Nat} {nonce ct : List Byte} (hc : c < s.nch)
    (hnonce : nonce.length = 12) (hct : ct.length ≤ s.bufMax) :
    (((s.writeArray c .ivn (nonce ++ zeros 4)).setOutput c ct).complete c .none).gcmEnvelope c = ⟨ct, nonce⟩ := by
  obtain ⟨hout, hivn⟩ := Envelope.mk.inj
    (State.cbcEnvelope_of_written (iv := nonce ++ zeros 4) hc (by simp [hnonce]) hct)
  rw [State.gcmEnvelope, hout, State.nonceOperand_eq_take, hivn, List.take_left' hnonce]

/-- The text that GCM_ENC leaves in `DOUT` for message `p`: the ciphertext, then its tag (R222). -/
def gcmSealed (key nonce p : List Byte) : List Byte :=
  gcmCrypt key nonce p ++ gcmTag key nonce (gcmCrypt key nonce p)

theorem length_gcmSealed_le (key nonce p : List Byte) : (gcmSealed key nonce p).length ≤ p.length + 16 := by
  rw [gcmSealed, List.length_append]
  exact Nat.add_le_add (length_gcmCrypt_le key nonce p) (length_gcmTag_le key nonce _)

theorem exec_gcmEnc_gcmEnvelope {s : State} {c : Nat} (hready : s.Ready c)
    (hfits : (s.channel c).dinLen.toNat + 16 ≤ s.bufMax)
    (hkey : (s.channel c).keyLen.toNat = 16 ∨ (s.channel c).keyLen.toNat = 24 ∨ (s.channel c).keyLen.toNat = 32)
    (hdraw : s.Delivers 12) :
    ∃ t, exec .gcmEnc s = .next t ∧
      t.gcmEnvelope c = ⟨gcmSealed (s.keyOperand c) (s.nextRandom 12) (s.dataOperand c), s.nextRandom 12⟩ := by
  have hrule : ruleOf .gcmEnc c s = .ended
      (({ s with rsPos := s.rsPos + 12, rngInit := true }.writeArray c .ivn (s.nextRandom 12 ++ zeros 4)).setOutput c
        (gcmSealed (s.keyOperand c) (s.nextRandom 12) (s.dataOperand c))) := by
    rw [ruleOf, gcmEncRule, if_neg (by omega), State.withDraw_of_delivers s 12 _ hdraw]
    exact if_pos ((aesKeyOk_iff _).mpr hkey)
  have hlen := length_gcmSealed_le (s.keyOperand c) (s.nextRandom 12) (s.dataOperand c)
  rw [State.length_dataOperand] at hlen
  have ⟨_, hc, _⟩ := hready
  exact ⟨_, exec_eq_next_of_ended hready hrule,
    State.gcmEnvelope_of_written hc (s.length_nextRandom 12) (hlen.trans hfits)⟩

theorem exec_gcmDec_output {s : State} {c : Nat} {ct : List Byte} (hready : s.Ready c)
    (hkey : (s.channel c).keyLen.toNat = 16 ∨ (s.channel c).keyLen.toNat = 24 ∨ (s.channel c).keyLen.toNat = 32)
    (hdata : s.dataOperand c = ct ++ gcmTag (s.keyOperand c) (s.nonceOperand c) ct) :
    ∃ t, exec .gcmDec s = .next t ∧ (t.channel c).err = .none ∧
      t.output c = gcmCrypt (s.keyOperand c) (s.nonceOperand c) ct := by
  have htag : (gcmTag (s.keyOperand c) (s.nonceOperand c) ct).length = 16 :=
    length_gcmTag (by rwa [State.length_keyOperand]) _ ct
  have hdinLen : (s.channel c).dinLen.toNat = ct.length + 16 := by
    rw [← State.length_dataOperand, hdata, List.length_append, htag]
  have hequal := ctEqual_self (gcmTag (s.keyOperand c) (s.nonceOperand c) ct)
  rw [htag] at hequal
  have hrule : ruleOf .gcmDec c s =
      .ended (s.setOutput c (gcmCrypt (s.keyOperand c) (s.nonceOperand c) ct)) := by
    rw [ruleOf, gcmDecRule, if_pos ((aesKeyOk_iff _).mpr hkey), if_neg (by omega), hdinLen, Nat.add_sub_cancel, hdata,
      List.take_left, List.drop_left]
    exact if_pos hequal
  have hlen : (gcmCrypt (s.keyOperand c) (s.nonceOperand c) ct).length < 2 ^ 32 := by
    have hct := length_gcmCrypt_le (s.keyOperand c) (s.nonceOperand c) ct
    have hword := (s.channel c).dinLen.isLt
    omega
  have ⟨_, hc, _⟩ := hready
  have hc' : c < (s.setOutput c (gcmCrypt (s.keyOperand c) (s.nonceOperand c) ct)).nch := by simpa using hc
  exact ⟨_, exec_eq_next_of_ended hready hrule, State.err_complete hc' _,
    (State.output_complete hc' _).trans (State.output_setOutput s c _ hc hlen)⟩

/-- Settles O60: GCM_ENC leaves the encrypted message with its tag, and its nonce; any channel that holds this envelope and
the key computes the same tag and adds the same key stream again. -/
theorem gcmRoundTrip : Obligations.GcmRoundTrip := by
  intro s c hready hfits hkey hdraw
  obtain ⟨t, hexec, henvelope⟩ := exec_gcmEnc_gcmEnvelope hready hfits hkey hdraw
  refine ⟨t, hexec, fun u d hready' hkeyEq hpresented => ?_⟩
  obtain ⟨hdata, hnonce⟩ := Envelope.mk.inj (hpresented.trans henvelope)
  have hkeyLen : (u.channel d).keyLen.toNat = (s.channel c).keyLen.toNat := by
    rw [← State.length_keyOperand, hkeyEq, State.length_keyOperand]
  obtain ⟨v, hexec', herr, houtput⟩ := exec_gcmDec_output hready' (by rwa [hkeyLen])
    (ct := gcmCrypt (s.keyOperand c) (s.nextRandom 12) (s.dataOperand c))
    (by rw [hdata, hkeyEq, hnonce, gcmSealed])
  refine ⟨v, hexec', herr, houtput.trans ?_⟩
  rw [hkeyEq, hnonce, gcmCrypt_gcmCrypt (by rwa [State.length_keyOperand])]

end Sys2Proof.Machine

/-! PROOFS of the statements about errors (spec 60_exceptions.md R248, R251): what leaves the fatal latch, and what an
`IllegalCommand` changes. -/

namespace Sys2Proof.Machine

/-! ### The turn of an engine (R96) -/

/-- What an engine runs on a command word: the rule of the command it stands for, and `IllegalCommand` at once where it
stands for none (R94). -/
def wordRule (w : Word) : Nat → State → RuleResult :=
  match decode w with
  | .ok i => ruleOf i
  | .error _ => fun _ s => .raised .illegalCommand s

theorem wordRule_of_ok {w : Word} {i : Instr} (h : decode w = .ok i) : wordRule w = ruleOf i := by
  simp only [wordRule, h]

theorem wordRule_of_error {w : Word} {e : Reject} (h : decode w = .error e) :
    wordRule w = fun _ s => .raised .illegalCommand s := by
  simp only [wordRule, h]

/-- The turn of a busy channel is the engine step of its word's rule, legal or not, and never stops the machine. -/
theorem State.engineTurn_of_busy (s : State) (c : Nat) (a : Answer) (hc : c < s.nch) (hbusy : (s.channel c).busy = true) :
    s.engineTurn c a = .next ((s.takeTurn c a).runRule c (wordRule (s.channel c).cmdReg)) := by
  rcases State.engineTurn_cases s c a with ⟨habsent | hidle, -⟩ | ⟨-, -, i, hdecode, e⟩ | ⟨-, -, reject, hdecode, e⟩
  · exact absurd hc (Nat.not_lt.mpr habsent)
  · rw [hidle] at hbusy
    cases hbusy
  · rw [e, wordRule_of_ok hdecode]
    exact exec_eq_next i (s.takeTurn c a) hc
  · rw [e, wordRule_of_error hdecode]
    rfl

theorem State.engineTurn_of_not_busy (s : State) (c : Nat) (a : Answer) (h : ¬ (c < s.nch ∧ (s.channel c).busy = true)) :
    s.engineTurn c a = .next s := by
  rcases State.engineTurn_cases s c a with ⟨-, e⟩ | ⟨hc, hbusy, -⟩ | ⟨hc, hbusy, -⟩
  · exact e
  · exact absurd ⟨hc, hbusy⟩ h
  · exact absurd ⟨hc, hbusy⟩ h

/-! ### The fatal latch (R249, R251) -/

@[simp] theorem State.writeWord_fatal (s : State) (c : Nat) (r : WordReg) (v : Word) :
    (s.writeWord c r v).fatal = s.fatal := by
  rcases State.writeWord_cases s c r v with e | ⟨-, -, e⟩ | ⟨-, -, e⟩ | ⟨-, -, e⟩ | ⟨-, -, e⟩ | ⟨-, -, e⟩ <;> rw [e]
  all_goals exact State.updateChannel_fatal _ _ _

/-- No host write, to `STATUS` or to any other register, changes the latch (R251). -/
@[simp] theorem State.memWrite_fatal (s : State) (addr n : Nat) (v : Word) : (s.memWrite addr n v).fatal = s.fatal := by
  rcases State.memWrite_cases s addr n v with e | ⟨c, r, -, -, -, e⟩ | ⟨c, r, k, -, -, -, -, -, -, e⟩
  · rw [e]
  · rw [e, State.writeWord_fatal]
  · rw [e]

@[simp] theorem State.fatal_applyReset (s : State) (source : Source) : (s.applyReset source).fatal = false := rfl

/-- Under the latch an engine step runs no rule: it ends at once with code 4 (R249 (c)). -/
theorem State.runRule_of_fatal (s : State) (c : Nat) (rule : Nat → State → RuleResult) (h : s.fatal = true) :
    s.runRule c rule = s.complete c .entropyUnavailable := by
  rw [State.runRule, if_pos h]

theorem State.engineTurn_keeps_latch {s t : State} {c : Nat} {a : Answer} (hfatal : s.fatal = true)
    (h : s.engineTurn c a = .next t) : t.fatal = true := by
  by_cases hturn : c < s.nch ∧ (s.channel c).busy = true
  · obtain ⟨hc, hbusy⟩ := hturn
    rw [State.engineTurn_of_busy s c a hc hbusy, State.runRule_of_fatal (s.takeTurn c a) c _ hfatal] at h
    cases h
    exact hfatal
  · rw [State.engineTurn_of_not_busy s c a hturn] at h
    cases h
    exact hfatal

/-- No command, register write or environment answer clears the latch (R251). -/
theorem step_keeps_latch {s t : State} (hstep : step s = .next t) (hfatal : s.fatal = true)
    (hreset : ∀ source rest, s.agenda ≠ .reset source :: rest) : t.fatal = true := by
  rw [step_eq] at hstep
  split at hstep
  · cases hstep
    exact hfatal
  · cases hstep
    exact hfatal
  · next addr n v rest _ =>
    cases hstep
    exact (State.memWrite_fatal (s.popped rest) addr n v).trans hfatal
  · next rest _ => exact State.engineTurn_keeps_latch (s := s.popped rest) hfatal hstep
  · next source rest hagenda => exact absurd hagenda (hreset source rest)

/-- Settles O30: every agent's step but the reset input keeps the latch, and that one clears it. -/
theorem fatalLatchLeftOnlyByReset : Obligations.FatalLatchLeftOnlyByReset := by
  intro s t hstep hfatal
  constructor
  · intro hcleared
    by_contra hno
    have hkept := step_keeps_latch hstep hfatal fun source rest h => hno ⟨source, rest, h⟩
    rw [hcleared] at hkept
    cases hkept
  · rintro ⟨source, rest, hagenda⟩
    rw [step_eq, hagenda] at hstep
    cases hstep
    exact State.fatal_applyReset (s.popped rest) source

/-! ### What raises `IllegalCommand` (R248)

Every test that raises code 5 stands before the first effect of its rule, so the state it raises it in is the one the rule
began in. -/

/-- If a rule that began in `s` has raised `IllegalCommand`, it has had no effect. -/
def RuleResult.IllegalHasNoEffect (s : State) (res : RuleResult) : Prop :=
  ∀ s', res = .raised .illegalCommand s' → s' = s

theorem RuleResult.illegalHasNoEffect_ended (s s' : State) : (RuleResult.ended s').IllegalHasNoEffect s := nofun

/-- A raise is in question only if its code is 5, and harmless then if it comes before every effect. -/
theorem RuleResult.illegalHasNoEffect_raised {s s' : State} {e : ErrCode} (h : e = .illegalCommand → s' = s) :
    (RuleResult.raised e s').IllegalHasNoEffect s := by
  rintro u hu
  cases hu
  exact h rfl

/-- A failed draw raises code 4; so nothing raises code 5 from a draw on unless what follows the draw does. -/
theorem State.withDraw_illegalHasNoEffect (s : State) (n : Nat) (next : List Byte → State → RuleResult)
    (h : ∀ bytes s' u, next bytes s' ≠ .raised .illegalCommand u) : (s.withDraw n next).IllegalHasNoEffect s := by
  intro u hu
  rcases State.withDraw_cases s n next with ⟨-, e⟩ | ⟨-, e⟩ | ⟨-, e⟩ <;> rw [e] at hu
  · exact absurd hu (h _ _ u)
  · cases hu
  · cases hu

theorem genBytes_illegalHasNoEffect (n c : Nat) (s : State) : (genBytes n c s).IllegalHasNoEffect s := by
  unfold genBytes
  split
  · exact RuleResult.illegalHasNoEffect_raised fun _ => rfl
  · exact State.withDraw_illegalHasNoEffect s n _ nofun

theorem genKeyRule_illegalHasNoEffect (bits c : Nat) (s : State) : (genKeyRule bits c s).IllegalHasNoEffect s := by
  unfold genKeyRule
  split
  · exact RuleResult.illegalHasNoEffect_raised fun _ => rfl
  · exact genBytes_illegalHasNoEffect (bits / 8) c s

/-- After its draw CBC_ENC can end with code 0 or 1 only (R200). -/
theorem cbcEncDrawn_ne_illegalCommand (c : Nat) (iv : List Byte) (s u : State) :
    cbcEncDrawn c iv s ≠ .raised .illegalCommand u := by
  unfold cbcEncDrawn
  split <;> nofun

theorem cbcEncRule_illegalHasNoEffect (c : Nat) (s : State) : (cbcEncRule c s).IllegalHasNoEffect s := by
  unfold cbcEncRule
  split
  · exact RuleResult.illegalHasNoEffect_raised fun _ => rfl
  · exact State.withDraw_illegalHasNoEffect s 16 _ (cbcEncDrawn_ne_illegalCommand c)

theorem cbcDecRule_illegalHasNoEffect (c : Nat) (s : State) : (cbcDecRule c s).IllegalHasNoEffect s := by
  unfold cbcDecRule
  split
  · split
    · exact RuleResult.illegalHasNoEffect_raised nofun
    · split
      · exact RuleResult.illegalHasNoEffect_raised nofun
      · exact RuleResult.illegalHasNoEffect_ended s _
  · exact RuleResult.illegalHasNoEffect_raised nofun

/-- After its draw GCM_ENC can end with code 0 or 1 only (R222). -/
theorem gcmEncDrawn_ne_illegalCommand (c : Nat) (nonce : List Byte) (s u : State) :
    gcmEncDrawn c nonce s ≠ .raised .illegalCommand u := by
  unfold gcmEncDrawn
  split <;> nofun

theorem gcmEncRule_illegalHasNoEffect (c : Nat) (s : State) : (gcmEncRule c s).IllegalHasNoEffect s := by
  unfold gcmEncRule
  split
  · exact RuleResult.illegalHasNoEffect_raised fun _ => rfl
  · exact State.withDraw_illegalHasNoEffect s 12 _ (gcmEncDrawn_ne_illegalCommand c)

theorem gcmDecRule_illegalHasNoEffect (c : Nat) (s : State) : (gcmDecRule c s).IllegalHasNoEffect s := by
  unfold gcmDecRule
  split
  · split
    · exact RuleResult.illegalHasNoEffect_raised nofun
    · dsimp only
      split
      · exact RuleResult.illegalHasNoEffect_ended s _
      · exact RuleResult.illegalHasNoEffect_raised nofun
  · exact RuleResult.illegalHasNoEffect_raised nofun

theorem ruleOf_illegalHasNoEffect (i : Instr) (c : Nat) (s : State) : (ruleOf i c s).IllegalHasNoEffect s := by
  cases i with
  | rngBytes n => exact genBytes_illegalHasNoEffect n c s
  | genKey bits => exact genKeyRule_illegalHasNoEffect bits c s
  | genIv => exact genBytes_illegalHasNoEffect 16 c s
  | genNonce => exact genBytes_illegalHasNoEffect 12 c s
  | macCompute => exact RuleResult.illegalHasNoEffect_ended s _
  | macVerify => exact RuleResult.illegalHasNoEffect_ended s _
  | cbcEnc => exact cbcEncRule_illegalHasNoEffect c s
  | cbcDec => exact cbcDecRule_illegalHasNoEffect c s
  | gcmEnc => exact gcmEncRule_illegalHasNoEffect c s
  | gcmDec => exact gcmDecRule_illegalHasNoEffect c s

theorem wordRule_illegalHasNoEffect (w : Word) (c : Nat) (s : State) : (wordRule w c s).IllegalHasNoEffect s := by
  cases hdecode : decode w with
  | ok i =>
    rw [wordRule_of_ok hdecode]
    exact ruleOf_illegalHasNoEffect i c s
  | error e =>
    rw [wordRule_of_error hdecode]
    exact RuleResult.illegalHasNoEffect_raised fun _ => rfl

theorem wordRule_keepsOperands (w : Word) (c : Nat) (s : State) : (wordRule w c s).KeepsOperands s c := by
  cases hdecode : decode w with
  | ok i =>
    rw [wordRule_of_ok hdecode]
    exact ruleOf_keepsOperands i c s
  | error e =>
    rw [wordRule_of_error hdecode]
    exact WritesOnlyResults.refl s c

/-! ### What an `IllegalCommand` changes (R245, R248) -/

/-- The end of an engine step, by itself, writes `ERR`, `BUSY` and `DONE` (R96). -/
theorem State.endedOnly_complete {s : State} {c : Nat} (hc : c < s.nch) (e : ErrCode) : EndedOnly s (s.complete c e) c e where
  frame := engineFrame_updateChannel s c (Channel.complete e)
  hidden := ⟨rfl, rfl, rfl⟩
  control := State.channel_updateChannel_self s c (Channel.complete e) hc
  bytes _ := rfl

/-- The error raised is the one `STATUS` shows (R245). -/
theorem State.err_raise {s : State} {c : Nat} (hc : c < s.nch) (e : ErrCode) : ((s.raise c e).channel c).err = e := by
  have hout : c < (s.setOutput c []).nch := by rwa [State.setOutput_nch]
  rw [State.raise_eq]
  split
  · exact State.err_complete hc e
  · split
    · exact State.err_complete (s := { s.setOutput c [] with fatal := true }) hout e
    · exact State.err_complete hout e

/-- Of the ways an engine step ends, the one that leaves code 5 where it did not stand is a rule that raised it. -/
theorem State.runRule_endedOnly_of_illegalCommand {s : State} {c : Nat} {rule : Nat → State → RuleResult} (hc : c < s.nch)
    (hkeeps : (rule c s).KeepsOperands s c) (hillegal : (rule c s).IllegalHasNoEffect s)
    (hbefore : (s.channel c).err ≠ .illegalCommand) (hafter : ((s.runRule c rule).channel c).err = .illegalCommand) :
    EndedOnly s (s.runRule c rule) c .illegalCommand := by
  rcases State.runRule_cases s c rule with ⟨-, e⟩ | ⟨-, s', hr, e⟩ | ⟨-, code, s', hr, e⟩ | ⟨-, -, e⟩ <;> rw [e] at hafter
  · rw [State.err_complete hc] at hafter
    cases hafter
  · rw [hr] at hkeeps
    rw [State.err_complete (hkeeps.frame.nch.symm ▸ hc)] at hafter
    cases hafter
  · rw [hr] at hkeeps
    rw [State.err_raise (hkeeps.frame.nch.symm ▸ hc)] at hafter
    subst hafter
    obtain rfl := hillegal s' hr
    rw [e]
    exact State.endedOnly_complete hc .illegalCommand
  · exact absurd hafter hbefore

/-- Settles O34: the turn runs the rule of the channel's word, every rule raises code 5 before its first effect, and raising
it does no more than end the step. -/
theorem illegalCommandChangesOnlyStatus : Obligations.IllegalCommandChangesOnlyStatus := by
  intro s t c a rest hagenda hc hbusy hbefore hstep hafter
  have hturn := State.engineTurn_of_busy (s.popped rest) c a hc hbusy
  rw [step_eq, hagenda] at hstep
  obtain rfl : _ = t := by simpa only [hturn, Host.Outcome.next.injEq] using hstep
  exact State.runRule_endedOnly_of_illegalCommand (s := s.turn c a rest) hc (wordRule_keepsOperands _ c _)
    (wordRule_illegalHasNoEffect _ c _) hbefore hafter

end Sys2Proof.Machine

/-! PROOFS of the statements about the command word (spec 30_encoding.md R90 to R97): the decoder and the encoder in terms of
the word's three fields. -/

namespace Sys2Proof

/-! ### A command as the fields of its word (R90, R93) -/

/-- `OP` of a command's word (R93). -/
def Instr.opcode (i : Instr) : BitVec 8 :=
  match i with
  | .rngBytes _ => 0x01#8
  | .genKey _ => 0x02#8
  | .genIv => 0x03#8
  | .genNonce => 0x04#8
  | .macCompute => 0x10#8
  | .macVerify => 0x11#8
  | .cbcEnc => 0x20#8
  | .cbcDec => 0x21#8
  | .gcmEnc => 0x30#8
  | .gcmDec => 0x31#8

/-- `ARG` of a command's word (R92): 0 for a command of format N. -/
def Instr.argument (i : Instr) : Nat :=
  match i with
  | .rngBytes n => n
  | .genKey bits => bits
  | .genIv => 0
  | .genNonce => 0
  | .macCompute => 0
  | .macVerify => 0
  | .cbcEnc => 0
  | .cbcDec => 0
  | .gcmEnc => 0
  | .gcmDec => 0

theorem encode_eq_commandWord (i : Instr) : encode i = commandWord i.argument i.opcode := by cases i <;> rfl

theorem Instr.wellFormed_iff (i : Instr) : i.wellFormed = true ↔ i.argument < 65536 := by
  cases i <;> simp [Instr.wellFormed, Instr.argument]

/-! ### The fields of a word (R90) -/

theorem argField_commandWord (arg : Nat) (op : BitVec 8) : argField (commandWord arg op) = BitVec.ofNat 16 arg := by
  apply BitVec.eq_of_getLsbD_eq
  intro i hi
  simp only [argField, commandWord, BitVec.getLsbD_extractLsb', BitVec.getLsbD_append]
  simp [hi, show ¬ 16 + i < 8 by omega, show ¬ 16 + i - 8 < 8 by omega, show 16 + i - 8 - 8 = i by omega]

/-- A word is its three fields. -/
theorem word_eq_of_fields {v w : Word} (hop : opField v = opField w) (hrsv : rsvField v = rsvField w)
    (harg : argField v = argField w) : v = w := by
  apply BitVec.eq_of_getLsbD_eq
  intro k hk
  have hbit := fun (n : Nat) (f : Word → BitVec n) (h : f v = f w) (j : Nat) => congrArg (BitVec.getLsbD · j) h
  rcases (by omega : k < 8 ∨ (8 ≤ k ∧ k < 16) ∨ (16 ≤ k ∧ k < 32)) with h | ⟨hlo, hhi⟩ | ⟨hlo, hhi⟩
  · simpa [opField, h] using hbit 8 opField hop k
  · simpa [rsvField, show k - 8 < 8 by omega, show 8 + (k - 8) = k by omega] using hbit 8 rsvField hrsv (k - 8)
  · simpa [argField, show k - 16 < 16 by omega, show 16 + (k - 16) = k by omega] using hbit 16 argField harg (k - 16)

theorem commandWord_eq_iff (arg : Nat) (op : BitVec 8) (w : Word) :
    commandWord arg op = w ↔ opField w = op ∧ rsvField w = 0#8 ∧ argField w = BitVec.ofNat 16 arg := by
  constructor
  · rintro rfl
    exact ⟨Laws.opField_commandWord arg op, Laws.rsvField_commandWord arg op, argField_commandWord arg op⟩
  · rintro ⟨hop, hrsv, harg⟩
    exact word_eq_of_fields ((Laws.opField_commandWord arg op).trans hop.symm)
      ((Laws.rsvField_commandWord arg op).trans hrsv.symm) ((argField_commandWord arg op).trans harg.symm)

/-! ### The decoder -/

theorem formatA_eq_some {op : BitVec 8} {arg : Nat} {i : Instr} (h : formatA op arg = some i) :
    op = i.opcode ∧ arg = i.argument := by
  unfold formatA at h
  split at h
  · cases h
    exact ⟨‹_›, rfl⟩
  · split at h
    · cases h
      exact ⟨‹_›, rfl⟩
    · cases h

theorem formatN_eq_some {op : BitVec 8} {i : Instr} (h : formatN op = some i) : op = i.opcode ∧ i.argument = 0 := by
  unfold formatN at h
  repeat' split at h
  all_goals cases h
  all_goals exact ⟨‹_›, rfl⟩

/-- The decoder reads a word as the command with the word's `OP` and `ARG`, where `RSV` is 0. -/
theorem decode_eq_ok_iff (w : Word) (i : Instr) :
    decode w = .ok i ↔ rsvField w = 0#8 ∧ opField w = i.opcode ∧ (argField w).toNat = i.argument := by
  constructor
  · intro h
    unfold decode at h
    split at h
    · cases h
    · next hrsv =>
      refine ⟨not_not.mp hrsv, ?_⟩
      split at h
      · next hformat =>
        cases h
        exact formatA_eq_some hformat
      · split at h
        · next hformat =>
          split at h
          · next harg =>
            cases h
            obtain ⟨hop, hzero⟩ := formatN_eq_some hformat
            exact ⟨hop, by rw [harg, hzero]; rfl⟩
          · cases h
        · cases h
  · rintro ⟨hrsv, hop, harg⟩
    have hzero : i.argument = 0 → argField w = 0#16 := fun h => BitVec.eq_of_toNat_eq (harg.trans h)
    cases i with
    | rngBytes n => simp [decode, hrsv, hop, harg, Instr.opcode, Instr.argument, formatA]
    | genKey bits => simp [decode, hrsv, hop, harg, Instr.opcode, Instr.argument, formatA]
    | _ => simp [decode, hrsv, hop, hzero rfl, Instr.opcode, formatA, formatN]

/-- Settles O1: both sides say the same of the word's three fields. -/
theorem decodeInvertsEncode : Obligations.DecodeInvertsEncode := by
  intro w i
  rw [decode_eq_ok_iff, Instr.wellFormed_iff, encode_eq_commandWord, commandWord_eq_iff]
  constructor
  · rintro ⟨hrsv, hop, harg⟩
    have hlt := (argField w).isLt
    exact ⟨by omega, hop, hrsv, by rw [← harg, BitVec.ofNat_toNat, BitVec.setWidth_eq]⟩
  · rintro ⟨hlt, hop, hrsv, harg⟩
    exact ⟨hrsv, hop, by rw [harg, BitVec.toNat_ofNat]; omega⟩

/-! ### The opcode map as match and mask (R93) -/

theorem opField_and_lowMask (w : Word) : opField (w &&& 0x0000ffff#32) = opField w := by
  rw [opField, BitVec.extractLsb'_and]
  exact BitVec.and_allOnes

theorem rsvField_and_lowMask (w : Word) : rsvField (w &&& 0x0000ffff#32) = rsvField w := by
  rw [rsvField, BitVec.extractLsb'_and]
  exact BitVec.and_allOnes

theorem argField_and_lowMask (w : Word) : argField (w &&& 0x0000ffff#32) = 0#16 := by
  rw [argField, BitVec.extractLsb'_and]
  exact BitVec.and_zero

/-- The row of a format A command fixes `OP` and `RSV` and leaves `ARG` free. -/
theorem and_lowMask_eq_iff (w : Word) (op : BitVec 8) :
    w &&& 0x0000ffff#32 = commandWord 0 op ↔ opField w = op ∧ rsvField w = 0#8 := by
  rw [eq_comm, commandWord_eq_iff, opField_and_lowMask, rsvField_and_lowMask, argField_and_lowMask]
  simp

/-- The row of a format N command fixes the whole word. -/
theorem decode_of_and_fullMask {w v : Word} {i : Instr} (hmatch : w &&& 0xffffffff#32 = v) (hv : decode v = .ok i) :
    decode w = .ok i := by
  rw [show (0xffffffff#32 : Word) = BitVec.allOnes 32 from rfl, BitVec.and_allOnes] at hmatch
  rwa [hmatch]

/-- Settles O2: a row of format A fixes `OP` and `RSV`, and a row of format N fixes the whole word. -/
theorem decodeFollowsMatchAndMask : Obligations.DecodeFollowsMatchAndMask := by
  intro w
  constructor
  · intro i h
    obtain ⟨hrsv, hop, -⟩ := (decode_eq_ok_iff w i).mp h
    obtain ⟨-, hencode⟩ := (decodeInvertsEncode w i).mp h
    cases i with
    | rngBytes n =>
      exact ⟨⟨"RNG_BYTES", 0x0000ffff#32, 0x00000001#32⟩, by decide, rfl, (and_lowMask_eq_iff w 0x01#8).mpr ⟨hop, hrsv⟩⟩
    | genKey bits =>
      exact ⟨⟨"GEN_KEY", 0x0000ffff#32, 0x00000002#32⟩, by decide, rfl, (and_lowMask_eq_iff w 0x02#8).mpr ⟨hop, hrsv⟩⟩
    | _ =>
      subst hencode
      decide
  · intro r hr hmatch
    simp only [opcodeRows, List.mem_cons, List.not_mem_nil, or_false] at hr
    rcases hr with rfl | rfl | rfl | rfl | rfl | rfl | rfl | rfl | rfl | rfl
    · obtain ⟨hop, hrsv⟩ := (and_lowMask_eq_iff w 0x01#8).mp hmatch
      exact ⟨.rngBytes (argField w).toNat, (decode_eq_ok_iff _ _).mpr ⟨hrsv, hop, rfl⟩, rfl⟩
    · obtain ⟨hop, hrsv⟩ := (and_lowMask_eq_iff w 0x02#8).mp hmatch
      exact ⟨.genKey (argField w).toNat, (decode_eq_ok_iff _ _).mpr ⟨hrsv, hop, rfl⟩, rfl⟩
    · exact ⟨.genIv, decode_of_and_fullMask hmatch (by decide), rfl⟩
    · exact ⟨.genNonce, decode_of_and_fullMask hmatch (by decide), rfl⟩
    · exact ⟨.macCompute, decode_of_and_fullMask hmatch (by decide), rfl⟩
    · exact ⟨.macVerify, decode_of_and_fullMask hmatch (by decide), rfl⟩
    · exact ⟨.cbcEnc, decode_of_and_fullMask hmatch (by decide), rfl⟩
    · exact ⟨.cbcDec, decode_of_and_fullMask hmatch (by decide), rfl⟩
    · exact ⟨.gcmEnc, decode_of_and_fullMask hmatch (by decide), rfl⟩
    · exact ⟨.gcmDec, decode_of_and_fullMask hmatch (by decide), rfl⟩

/-- Settles O3: a legal word gives its opcode's command, with the word's `ARG` where the format has one. -/
theorem decodableIffLegal : Obligations.DecodableIffLegal := by
  intro w
  have hdecode := decode_eq_ok_iff w
  simp only [rsvField, opField, argField] at hdecode
  constructor
  · rintro ⟨i, hi⟩
    obtain ⟨hrsv, hop, harg⟩ := (hdecode i).mp hi
    have hzero : i.argument = 0 → w.extractLsb' 16 16 = 0#16 := fun h => BitVec.eq_of_toNat_eq (harg.trans h)
    refine ⟨hrsv, ?_⟩
    cases i with
    | rngBytes n => exact Or.inl hop
    | genKey bits => exact Or.inr (Or.inl hop)
    | _ => simp [hop, hzero rfl, Instr.opcode]
  · rintro ⟨hrsv, hop | hop | ⟨hop, harg⟩⟩
    · exact ⟨.rngBytes _, (hdecode _).mpr ⟨hrsv, hop, rfl⟩⟩
    · exact ⟨.genKey _, (hdecode _).mpr ⟨hrsv, hop, rfl⟩⟩
    · have hzero : (w.extractLsb' 16 16).toNat = 0 := congrArg BitVec.toNat harg
      rcases hop with hop | hop | hop | hop | hop | hop | hop | hop
      · exact ⟨.genIv, (hdecode _).mpr ⟨hrsv, hop, hzero⟩⟩
      · exact ⟨.genNonce, (hdecode _).mpr ⟨hrsv, hop, hzero⟩⟩
      · exact ⟨.macCompute, (hdecode _).mpr ⟨hrsv, hop, hzero⟩⟩
      · exact ⟨.macVerify, (hdecode _).mpr ⟨hrsv, hop, hzero⟩⟩
      · exact ⟨.cbcEnc, (hdecode _).mpr ⟨hrsv, hop, hzero⟩⟩
      · exact ⟨.cbcDec, (hdecode _).mpr ⟨hrsv, hop, hzero⟩⟩
      · exact ⟨.gcmEnc, (hdecode _).mpr ⟨hrsv, hop, hzero⟩⟩
      · exact ⟨.gcmDec, (hdecode _).mpr ⟨hrsv, hop, hzero⟩⟩

/-- Settles O4: the decoder evaluated on the nine words. -/
theorem writtenOutWordsDecode : Obligations.WrittenOutWordsDecode := by
  unfold Obligations.WrittenOutWordsDecode
  decide

end Sys2Proof

/-! SUPPORT of the proofs about the commands: everything a command's pseudocode can do, said once. -/

namespace Sys2Proof.Machine

/-! ### The commands up to their draw (R113 to R117, R200, R222) -/

/-- The state after `n` bytes were drawn (R111). -/
def State.drawn (s : State) (n : Nat) : State := { s with rsPos := s.rsPos + n, rngInit := true }

@[simp] theorem State.drawn_nch (s : State) (n : Nat) : (s.drawn n).nch = s.nch := rfl

/-- What a drawing command does with the bytes it drew. -/
def afterDraw (i : Instr) (c : Nat) (bytes : List Byte) (s : State) : RuleResult :=
  match i with
  | .cbcEnc => cbcEncDrawn c bytes s
  | .gcmEnc => gcmEncDrawn c bytes s
  | _ => .ended (s.setOutput c bytes)

theorem genBytes_of_le {n c : Nat} {s : State} (h : n ≤ s.bufMax) :
    genBytes n c s = s.withDraw n fun bytes s' => .ended (s'.setOutput c bytes) :=
  if_neg (Nat.not_lt.mpr h)

/-- A command whose operand checks pass draws, and goes on from its draw. -/
theorem ruleOf_of_drawsBytes {s : State} {c n : Nat} {i : Instr} (h : s.DrawsBytes c i n) :
    ruleOf i c s = s.withDraw n (afterDraw i c) := by
  obtain ⟨-, hmin, -⟩ := s.bufMax_range
  cases i with
  | rngBytes m =>
    obtain ⟨rfl, hm⟩ := h
    exact genBytes_of_le hm
  | genKey bits =>
    obtain ⟨hpos, hwhole, rfl, hfits⟩ := h
    exact (if_neg (by omega)).trans (genBytes_of_le hfits)
  | genIv =>
    obtain rfl : n = 16 := h
    exact genBytes_of_le (by omega)
  | genNonce =>
    obtain rfl : n = 12 := h
    exact genBytes_of_le (by omega)
  | cbcEnc =>
    obtain ⟨rfl, hfits⟩ := h
    exact if_neg (by omega)
  | gcmEnc =>
    obtain ⟨rfl, hfits⟩ := h
    exact if_neg (by omega)
  | macCompute | macVerify | cbcDec | gcmDec => cases h

/-- No command draws more than its registers hold. -/
theorem State.DrawsBytes.le_bufMax {s : State} {c n : Nat} {i : Instr} (h : s.DrawsBytes c i n) : n ≤ s.bufMax := by
  obtain ⟨-, hmin, -⟩ := s.bufMax_range
  cases i with
  | rngBytes m => exact h.1 ▸ h.2
  | genKey bits =>
    obtain ⟨-, -, rfl, hfits⟩ := h
    exact hfits
  | genIv | genNonce =>
    rw [show n = _ from h]
    omega
  | cbcEnc | gcmEnc =>
    rw [h.1]
    omega
  | macCompute | macVerify | cbcDec | gcmDec => cases h

/-- An operand out of range is noticed before anything else. -/
theorem ruleOf_of_outOfRange {s : State} {c : Nat} {i : Instr} (h : s.OutOfRange c i) :
    ruleOf i c s = .raised .illegalCommand s := by
  cases i with
  | rngBytes n => exact if_pos h
  | genKey bits =>
    by_cases hbits : bits = 0 ∨ bits % 8 ≠ 0
    · exact if_pos hbits
    · rcases h with h | h | h
      · exact absurd (Or.inl h) hbits
      · exact absurd (Or.inr h) hbits
      · exact (if_neg hbits).trans (if_pos h)
  | cbcEnc => exact if_pos h
  | gcmEnc => exact if_pos h
  | genIv | genNonce | macCompute | macVerify | cbcDec | gcmDec => cases h

/-- A command has an operand out of range, or draws, or is one of the four that never draw. -/
theorem State.outOfRange_or_drawsBytes (s : State) (c : Nat) (i : Instr) :
    s.OutOfRange c i ∨ (∃ n, s.DrawsBytes c i n) ∨
      i = .macCompute ∨ i = .macVerify ∨ i = .cbcDec ∨ i = .gcmDec := by
  cases i with
  | rngBytes n => exact (Nat.lt_or_ge s.bufMax n).imp_right fun h => Or.inl ⟨n, rfl, h⟩
  | genKey bits =>
    by_cases h : bits = 0 ∨ bits % 8 ≠ 0 ∨ s.bufMax < bits / 8
    · exact Or.inl h
    · exact Or.inr (Or.inl ⟨bits / 8, by omega, by omega, rfl, by omega⟩)
  | cbcEnc => exact (Nat.lt_or_ge s.bufMax _).imp_right fun h => Or.inl ⟨16, rfl, h⟩
  | gcmEnc => exact (Nat.lt_or_ge s.bufMax _).imp_right fun h => Or.inl ⟨12, rfl, h⟩
  | genIv => exact Or.inr (Or.inl ⟨16, rfl⟩)
  | genNonce => exact Or.inr (Or.inl ⟨12, rfl⟩)
  | macCompute | macVerify | cbcDec | gcmDec => exact Or.inr (Or.inr (by decide))

/-! ### Everything a command's pseudocode can do -/

/-- The ways the pseudocode of command `i` of channel `c` can end that began in `s`. -/
inductive RuleEnd (s : State) (c : Nat) (i : Instr) : RuleResult → Prop
  /-- An error raised before every effect. -/
  | rejected (e : ErrCode) (hcode : e ∈ possibleCodes i) (herror : e ≠ .none) (hdraw : e ≠ .entropyUnavailable) :
      RuleEnd s c i (.raised e s)
  | held (n : Nat) (hdraws : s.DrawsBytes c i n) (hstarves : s.Starves n) : RuleEnd s c i .held
  | failed (n : Nat) (hdraws : s.DrawsBytes c i n) (hfails : s.Fails n) :
      RuleEnd s c i (.raised .entropyUnavailable { s with rngInit := true })
  | generated (n : Nat) (hdraws : s.DrawsBytes c i n) (hdelivers : s.Delivers n) (hfits : n ≤ s.bufMax) :
      RuleEnd s c i (.ended ((s.drawn n).setOutput c (s.nextRandom n)))
  | encrypted (n : Nat) (ivn out : List Byte) (hdraws : s.DrawsBytes c i n) (hdelivers : s.Delivers n)
      (hivn : ivn.length = 16) (hfits : out.length ≤ s.bufMax) :
      RuleEnd s c i (.ended (((s.drawn n).writeArray c .ivn ivn).setOutput c out))
  | wrongKey (n : Nat) (ivn : List Byte) (hdraws : s.DrawsBytes c i n) (hdelivers : s.Delivers n)
      (hivn : ivn.length = 16) (hcode : .invalidKeyLength ∈ possibleCodes i) :
      RuleEnd s c i (.raised .invalidKeyLength ((s.drawn n).writeArray c .ivn ivn))
  | decrypted (p : List Byte) (hshort : p.length ≤ (s.channel c).dinLen.toNat) : RuleEnd s c i (.ended (s.setOutput c p))
  | tagged (tag : List Byte) (htag : tag.length = 32) : RuleEnd s c i (.ended (s.writeArray c .tag tag))
  | verified (ok : Bool) (hverify : i = .macVerify) : RuleEnd s c i (.ended (s.updateChannel c (Channel.setVok ok)))

/-- What the drawing commands do once their draw is delivered. -/
theorem afterDraw_ruleEnd {s : State} {c n : Nat} {i : Instr} (hdraws : s.DrawsBytes c i n) (hdelivers : s.Delivers n) :
    RuleEnd s c i (afterDraw i c (s.nextRandom n) (s.drawn n)) := by
  cases i with
  | rngBytes | genKey | genIv | genNonce => exact .generated n hdraws hdelivers hdraws.le_bufMax
  | cbcEnc =>
    obtain ⟨rfl, hfits⟩ := id hdraws
    have hlen := length_cbcEncryptRaw_cbcPad_le (s.keyOperand c) (s.nextRandom 16) (s.dataOperand c)
    rw [State.length_dataOperand] at hlen
    show RuleEnd s c .cbcEnc (cbcEncDrawn c _ _)
    unfold cbcEncDrawn
    split
    · exact .encrypted 16 _ _ hdraws hdelivers (State.length_nextRandom s 16) (hlen.trans hfits)
    · exact .wrongKey 16 _ hdraws hdelivers (State.length_nextRandom s 16) (by decide)
  | gcmEnc =>
    obtain ⟨rfl, hfits⟩ := id hdraws
    have hlen := length_gcmSealed_le (s.keyOperand c) (s.nextRandom 12) (s.dataOperand c)
    rw [State.length_dataOperand] at hlen
    have hivn : (s.nextRandom 12 ++ zeros 4).length = 16 := by simp
    show RuleEnd s c .gcmEnc (gcmEncDrawn c _ _)
    unfold gcmEncDrawn
    split
    · exact .encrypted 12 _ _ hdraws hdelivers hivn (hlen.trans hfits)
    · exact .wrongKey 12 _ hdraws hdelivers hivn (by decide)
  | macCompute | macVerify | cbcDec | gcmDec => cases hdraws

theorem cbcDecRule_ruleEnd (c : Nat) (s : State) : RuleEnd s c .cbcDec (cbcDecRule c s) := by
  unfold cbcDecRule
  split
  · split
    · exact .rejected .paddingError (by decide) nofun nofun
    · next hblocks =>
      split
      · exact .rejected .paddingError (by decide) nofun nofun
      · next p hp =>
        have hunpad := length_le_of_cbcUnpad_eq_some _ p hp
        have hraw := length_cbcDecryptRaw_le (s.keyOperand c) (s.ivOperand c) (s.dataOperand c)
          (by rw [State.length_dataOperand]; omega)
        rw [State.length_dataOperand] at hraw
        exact .decrypted p (hunpad.trans hraw)
  · exact .rejected .invalidKeyLength (by decide) nofun nofun

theorem gcmDecRule_ruleEnd (c : Nat) (s : State) : RuleEnd s c .gcmDec (gcmDecRule c s) := by
  unfold gcmDecRule
  split
  · split
    · exact .rejected .authenticationFailure (by decide) nofun nofun
    · dsimp only
      split
      · refine .decrypted _ ((length_gcmCrypt_le _ _ _).trans ?_)
        exact (List.length_take_le' _ _).trans (State.length_dataOperand s c).le
      · exact .rejected .authenticationFailure (by decide) nofun nofun
  · exact .rejected .invalidKeyLength (by decide) nofun nofun

theorem illegalCommand_mem_possibleCodes {s : State} {c : Nat} {i : Instr} (h : s.OutOfRange c i) :
    .illegalCommand ∈ possibleCodes i := by
  cases i with
  | rngBytes | genKey | cbcEnc | gcmEnc => simp [possibleCodes]
  | genIv | genNonce | macCompute | macVerify | cbcDec | gcmDec => cases h

theorem ruleOf_ruleEnd (i : Instr) (c : Nat) (s : State) : RuleEnd s c i (ruleOf i c s) := by
  rcases s.outOfRange_or_drawsBytes c i with hrange | ⟨n, hdraws⟩ | rfl | rfl | rfl | rfl
  · rw [ruleOf_of_outOfRange hrange]
    exact .rejected .illegalCommand (illegalCommand_mem_possibleCodes hrange) nofun nofun
  · rw [ruleOf_of_drawsBytes hdraws]
    rcases State.withDraw_cases s n (afterDraw i c) with ⟨h, e⟩ | ⟨h, e⟩ | ⟨h, e⟩ <;> rw [e]
    · exact afterDraw_ruleEnd hdraws h
    · exact .held n hdraws h
    · exact .failed n hdraws h
  · exact .tagged _ (length_hmacSha256 _ _)
  · exact .verified _ rfl
  · exact cbcDecRule_ruleEnd c s
  · exact gcmDecRule_ruleEnd c s

/-! ### The status of the channel at the end of an engine step (R96, R245) -/

theorem State.channel_complete_self {s : State} {c : Nat} (hc : c < s.nch) (e : ErrCode) :
    (s.complete c e).channel c = (s.channel c).ended e := by
  rw [State.complete_channel s c c e hc, if_pos rfl]
  rfl

theorem State.channel_setOutput_complete {s : State} {c : Nat} (hc : c < s.nch) (out : List Byte) (e : ErrCode) :
    ((s.setOutput c out).complete c e).channel c = (s.channel c).endedWith e out.length := by
  rw [State.channel_complete_self (by simpa using hc), State.setOutput_channel s c c out hc, if_pos rfl]
  rfl

/-- Every error but `IllegalCommand` clears the output (R245, R246, R248). -/
theorem State.channel_raise {s : State} {c : Nat} (hc : c < s.nch) {e : ErrCode} (herror : e ≠ .none) :
    (s.raise c e).channel c =
      if e = .illegalCommand then (s.channel c).ended e else (s.channel c).endedWith e 0 := by
  cases e with
  | none => exact absurd rfl herror
  | illegalCommand => exact State.channel_complete_self hc _
  | entropyUnavailable => exact State.channel_setOutput_complete hc [] _
  | invalidKeyLength => exact State.channel_setOutput_complete hc [] _
  | paddingError => exact State.channel_setOutput_complete hc [] _
  | authenticationFailure => exact State.channel_setOutput_complete hc [] _

theorem none_mem_possibleCodes (i : Instr) : .none ∈ possibleCodes i := by cases i <;> exact List.mem_cons_self

theorem entropyUnavailable_mem_possibleCodes {s : State} {c n : Nat} {i : Instr} (h : s.DrawsBytes c i n) :
    .entropyUnavailable ∈ possibleCodes i := by
  cases i with
  | rngBytes | genKey | genIv | genNonce | cbcEnc | gcmEnc => simp [possibleCodes]
  | macCompute | macVerify | cbcDec | gcmDec => cases h

end Sys2Proof.Machine

/-! PROOFS of the statements about the invariant (spec 10_state.md R22 to R34): every operation keeps what it says of lengths,
bytes and the hidden state, and an engine step ends with flags that it allows. -/

namespace Sys2Proof.Machine

/-! ### The invariant in two parts

An operation in the middle of an engine step keeps the lengths, the bytes and the hidden state in order; the flags are right
again only at its end. -/

/-- The lengths of a channel are within their capacities (R22, R68). -/
structure Channel.LengthsOk (bufMax : Nat) (ch : Channel) : Prop where
  keyLen_le : ch.keyLen.toNat ≤ Config.keyMax
  dinLen_le : ch.dinLen.toNat ≤ bufMax
  doutLen_le : ch.doutLen.toNat ≤ bufMax
  xtagLen_le : ch.xtagLen.toNat ≤ Config.xtagMax

/-- The flags of a channel are as they must be (R24, R70). -/
structure Channel.FlagsOk (ch : Channel) : Prop where
  busy_clear : ch.busy = true → ch.done = false ∧ ch.vok = false ∧ ch.err = .none
  vok_clean : ch.vok = true → ch.done = true ∧ ch.err = .none

theorem Channel.inv_iff (bufMax : Nat) (ch : Channel) : ch.Inv bufMax ↔ ch.LengthsOk bufMax ∧ ch.FlagsOk :=
  ⟨fun h => ⟨⟨h.keyLen_le, h.dinLen_le, h.doutLen_le, h.xtagLen_le⟩, ⟨h.busy_clear, h.vok_clean⟩⟩,
    fun h => ⟨h.1.keyLen_le, h.1.dinLen_le, h.1.doutLen_le, h.1.xtagLen_le, h.2.busy_clear, h.2.vok_clean⟩⟩

/-- Address `a` is that of an implemented byte of a byte array (R61). -/
def State.Mapped (s : State) (a : Nat) : Prop :=
  ∃ c r, c < s.nch ∧ arrayBase c r ≤ a ∧ a < arrayBase c r + r.size s.bufMax

/-- The invariant but for the flags. -/
structure State.DataInv (s : State) : Prop where
  nch_pos : 0 < s.nch
  lengths : ∀ c, c < s.nch → (s.channel c).LengthsOk s.bufMax
  mem_wf : s.mem.wf
  mem_mapped : ∀ e ∈ s.mem, s.Mapped e.1
  dout_tail : ∀ c k, c < s.nch → (s.channel c).doutLen.toNat ≤ k → k < s.bufMax →
    s.mem.read (arrayBase c .dout + k) = 0#8
  rsPos_le : ∀ l, s.source.limit = some l → s.rsPos ≤ l
  drawn_init : 0 < s.rsPos → s.rngInit = true
  fatal_init : s.fatal = true → s.rngInit = true

theorem State.forall_mem_channels (s : State) (P : Channel → Prop) :
    (∀ ch ∈ s.channels, P ch) ↔ ∀ c, c < s.nch → P (s.channel c) := by
  constructor
  · intro h c hc
    exact h _ (List.mem_of_getElem? (State.getElem?_channels s c hc))
  · intro h ch hch
    obtain ⟨c, hc, rfl⟩ := List.getElem_of_mem hch
    have hget := State.getElem?_channels s c hc
    rw [List.getElem?_eq_getElem hc, Option.some.injEq] at hget
    rw [hget]
    exact h c hc

theorem State.inv_iff (s : State) : s.Inv ↔ s.DataInv ∧ ∀ c, c < s.nch → (s.channel c).FlagsOk := by
  constructor
  · intro h
    have hch := fun c hc => (Channel.inv_iff _ _).mp (h.channel_inv_of_lt (c := c) hc)
    exact ⟨⟨h.nch_pos, fun c hc => (hch c hc).1, h.mem_wf, h.mem_mapped, h.dout_tail, h.rsPos_le, h.drawn_init,
      h.fatal_init⟩, fun c hc => (hch c hc).2⟩
  · rintro ⟨h, hflags⟩
    have hch := (s.forall_mem_channels (Channel.Inv s.bufMax)).mpr
      fun c hc => (Channel.inv_iff _ _).mpr ⟨h.lengths c hc, hflags c hc⟩
    exact ⟨h.nch_pos, hch, h.mem_wf, h.mem_mapped, h.dout_tail, h.rsPos_le, h.drawn_init, h.fatal_init⟩

/-! ### Every operation keeps the lengths, the bytes and the hidden state in order -/

section
variable {s : State} (h : s.DataInv)
include h

/-- A change of control words that leaves `DOUTLEN` alone, and every length within its capacity. -/
theorem State.DataInv.updateChannel {c : Nat} (hc : c < s.nch) {f : Channel → Channel}
    (hdout : (f (s.channel c)).doutLen = (s.channel c).doutLen) (hlengths : (f (s.channel c)).LengthsOk s.bufMax) :
    (s.updateChannel c f).DataInv where
  nch_pos := by simpa using h.nch_pos
  lengths d hd := by
    rw [State.updateChannel_nch] at hd
    rw [State.channel_updateChannel s c d f hc, State.updateChannel_bufMax]
    split
    · next hdc => exact hdc ▸ hlengths
    · exact h.lengths d hd
  mem_wf := h.mem_wf
  mem_mapped e he := by
    obtain ⟨d, r, hd, hlo, hhi⟩ := h.mem_mapped e he
    exact ⟨d, r, by simpa using hd, hlo, hhi⟩
  dout_tail d k hd hle hk := by
    rw [State.updateChannel_nch] at hd
    refine h.dout_tail d k hd ?_ hk
    rw [State.channel_updateChannel s c d f hc] at hle
    split at hle
    · next hdc => rw [hdc] at hle ⊢; rwa [hdout] at hle
    · exact hle
  rsPos_le := h.rsPos_le
  drawn_init := h.drawn_init
  fatal_init := h.fatal_init

/-- A change of the flags alone. -/
theorem State.DataInv.updateFlags {c : Nat} (hc : c < s.nch) {f : Channel → Channel}
    (hkey : ∀ ch, (f ch).keyLen = ch.keyLen) (hdin : ∀ ch, (f ch).dinLen = ch.dinLen)
    (hdout : ∀ ch, (f ch).doutLen = ch.doutLen) (hxtag : ∀ ch, (f ch).xtagLen = ch.xtagLen) :
    (s.updateChannel c f).DataInv := by
  obtain ⟨hk, hd, ho, hx⟩ := h.lengths c hc
  exact h.updateChannel hc (hdout _) ⟨by rwa [hkey], by rwa [hdin], by rwa [hdout], by rwa [hxtag]⟩

theorem State.DataInv.complete {c : Nat} (hc : c < s.nch) (e : ErrCode) : (s.complete c e).DataInv :=
  h.updateFlags hc (fun _ => rfl) (fun _ => rfl) (fun _ => rfl) (fun _ => rfl)

/-- A memory with new entries only in implemented bytes and with the same `DOUT` registers. -/
theorem State.DataInv.withMem {m : Memory} (hwf : m.wf) (hmapped : ∀ e ∈ m, s.Mapped e.1 ∨ e ∈ s.mem)
    (hdout : ∀ c k, c < s.nch → k < s.bufMax → m.read (arrayBase c .dout + k) = s.mem.read (arrayBase c .dout + k)) :
    State.DataInv { s with mem := m } where
  nch_pos := h.nch_pos
  lengths := h.lengths
  mem_wf := hwf
  mem_mapped e he := (hmapped e he).elim id (h.mem_mapped e)
  dout_tail c k hc hle hk := (hdout c k hc hk).trans (h.dout_tail c k hc hle hk)
  rsPos_le := h.rsPos_le
  drawn_init := h.drawn_init
  fatal_init := h.fatal_init

/-- A byte of another byte array than `DOUT` is no byte of a `DOUT`, of whatever channel (R61). -/
theorem State.DataInv.writeArray {c : Nat} (hc : c < s.nch) {r : ArrayReg} (hr : r ≠ .dout) {bytes : List Byte}
    (hlen : bytes.length ≤ r.size s.bufMax) : (s.writeArray c r bytes).DataInv := by
  refine h.withMem (Memory.wf_writeBytes _ _ _ h.mem_wf) (fun e he => ?_) fun d k _ hk => ?_
  · exact (Memory.mem_writeBytes _ _ _ e he).imp_left fun hin => ⟨c, r, hc, hin.1, by omega⟩
  · refine Memory.read_writeBytes_outside _ _ _ _ (not_and_or.mp ?_ |>.imp Nat.not_le.mp Nat.not_lt.mp)
    rintro ⟨hlo, hhi⟩
    obtain ⟨-, hdout, -⟩ := arrays_disjoint s c d r .dout (arrayBase d .dout + k - arrayBase c r) k (by omega) hk (by omega)
    exact hr hdout

theorem State.DataInv.setOutput {c : Nat} (hc : c < s.nch) {bytes : List Byte} (hlen : bytes.length ≤ s.bufMax) :
    (s.setOutput c bytes).DataInv where
  nch_pos := by simpa using h.nch_pos
  lengths d hd := by
    have hmax := s.bufMax_range
    rw [State.setOutput_nch] at hd
    obtain ⟨hk, hd, ho, hx⟩ := h.lengths d hd
    rw [State.setOutput_channel s c d bytes hc]
    split
    · exact ⟨hk, hd, by rw [State.setOutput_bufMax, BitVec.toNat_ofNat]; omega, hx⟩
    · exact ⟨hk, hd, ho, hx⟩
  mem_wf := Memory.wf_writeBytes _ _ _ (Memory.wf_clear _ _ _ h.mem_wf)
  mem_mapped e he := by
    rw [State.Mapped, State.setOutput_nch, State.setOutput_bufMax]
    rcases Memory.mem_writeBytes _ _ _ e he with ⟨hlo, hhi⟩ | hold
    · exact ⟨c, .dout, hc, hlo, hhi.trans_le (Nat.add_le_add_left hlen _)⟩
    · exact h.mem_mapped e (List.mem_filter.mp hold).1
  dout_tail d k hd hle hk := by
    have hmax := s.bufMax_range
    rw [State.setOutput_nch] at hd
    rw [State.setOutput_bufMax] at hk
    rw [State.setOutput_channel s c d bytes hc] at hle
    rw [State.read_setOutput s c bytes hlen]
    by_cases hdc : d = c
    · subst hdc
      rw [if_pos rfl] at hle
      have hle' : bytes.length ≤ k := by
        rw [BitVec.toNat_ofNat] at hle
        omega
      rw [if_pos (by omega), Nat.add_sub_cancel_left, List.getD_eq_default _ _ hle']
    · rw [if_neg hdc] at hle
      rw [if_neg]
      · exact h.dout_tail d k hd hle hk
      · rintro ⟨hlo, hhi⟩
        obtain ⟨hcd, -, -⟩ := arrays_disjoint s c d .dout .dout (arrayBase d .dout + k - arrayBase c .dout) k
          (show _ < s.bufMax by omega) hk (by omega)
        exact hdc hcd.symm
  rsPos_le := h.rsPos_le
  drawn_init := h.drawn_init
  fatal_init := h.fatal_init

theorem State.DataInv.drawn {n : Nat} (hdelivers : s.Delivers n) : (s.drawn n).DataInv where
  nch_pos := h.nch_pos
  lengths := h.lengths
  mem_wf := h.mem_wf
  mem_mapped := h.mem_mapped
  dout_tail := h.dout_tail
  rsPos_le l hl := by
    rcases hdelivers with rfl | ⟨-, hlimit⟩
    · exact h.rsPos_le l hl
    · exact hlimit l hl
  drawn_init _ := rfl
  fatal_init _ := rfl

theorem State.DataInv.attempted : State.DataInv { s with rngInit := true } where
  nch_pos := h.nch_pos
  lengths := h.lengths
  mem_wf := h.mem_wf
  mem_mapped := h.mem_mapped
  dout_tail := h.dout_tail
  rsPos_le := h.rsPos_le
  drawn_init _ := rfl
  fatal_init _ := rfl

/-- The latch is set after a draw was attempted. -/
theorem State.DataInv.latched (hinit : s.rngInit = true) : State.DataInv { s with fatal := true } where
  nch_pos := h.nch_pos
  lengths := h.lengths
  mem_wf := h.mem_wf
  mem_mapped := h.mem_mapped
  dout_tail := h.dout_tail
  rsPos_le := h.rsPos_le
  drawn_init _ := hinit
  fatal_init _ := hinit

theorem State.DataInv.raise {c : Nat} (hc : c < s.nch) (e : ErrCode) (hdraw : e = .entropyUnavailable → s.rngInit = true) :
    (s.raise c e).DataInv := by
  have hclear : (s.setOutput c []).DataInv := h.setOutput hc (Nat.zero_le _)
  have hc' : c < (s.setOutput c []).nch := by simpa using hc
  rw [State.raise_eq]
  split
  · exact h.complete hc e
  · split
    · next he => exact (hclear.latched (hdraw he)).complete hc' e
    · exact hclear.complete hc' e

/-- An engine step keeps the lengths, the bytes and the hidden state in order, whichever end its pseudocode comes to. -/
theorem State.DataInv.runRule {c : Nat} (hc : c < s.nch) {i : Instr} {rule : Nat → State → RuleResult}
    (hrule : RuleEnd s c i (rule c s)) : (s.runRule c rule).DataInv := by
  cases hfatal : s.fatal with
  | true =>
    rw [State.runRule_of_fatal s c rule hfatal]
    exact h.complete hc _
  | false =>
    rw [State.runRule_eq s c rule hfatal]
    generalize rule c s = result at hrule
    cases hrule with
    | rejected e hcode herror hdraw => exact h.raise hc e fun he => absurd he hdraw
    | held => exact h
    | failed n hdraws hfails => exact h.attempted.raise hc _ fun _ => rfl
    | generated n hdraws hdelivers hfits =>
      have hlen : (s.nextRandom n).length ≤ s.bufMax := (State.length_nextRandom s n).le.trans hfits
      exact ((h.drawn hdelivers).setOutput hc hlen).complete (by simpa using hc) _
    | encrypted n ivn out hdraws hdelivers hivn hfits =>
      have hivn' := (h.drawn hdelivers).writeArray (r := .ivn) hc (by decide) hivn.le
      exact (hivn'.setOutput hc hfits).complete (by simpa using hc) _
    | wrongKey n ivn hdraws hdelivers hivn hcode =>
      exact ((h.drawn hdelivers).writeArray (r := .ivn) hc (by decide) hivn.le).raise hc _ nofun
    | decrypted p hshort =>
      exact (h.setOutput hc (hshort.trans (h.lengths c hc).dinLen_le)).complete (by simpa using hc) _
    | tagged tag htag => exact (h.writeArray (r := .tag) hc (by decide) htag.le).complete hc _
    | verified ok hverify =>
      have hvok := h.updateFlags hc (f := Channel.setVok ok) (fun _ => rfl) (fun _ => rfl) (fun _ => rfl) fun _ => rfl
      exact hvok.complete (by simpa using hc) _

end

/-! ### The flags at the end of an engine step (R96, R245) -/

/-- A completed channel has the flags in order unless it shows an error and a `VOK` left from before. -/
theorem Channel.flagsOk_endedWith {ch : Channel} {e : ErrCode} (n : Nat) (h : ch.vok = true → e = .none) :
    (ch.endedWith e n).FlagsOk :=
  ⟨nofun, fun hvok => ⟨rfl, h hvok⟩⟩

theorem Channel.flagsOk_ended {ch : Channel} {e : ErrCode} (h : ch.vok = true → e = .none) : (ch.ended e).FlagsOk :=
  ⟨nofun, fun hvok => ⟨rfl, h hvok⟩⟩

theorem State.flagsOk_complete {s : State} {c : Nat} (hc : c < s.nch) {e : ErrCode}
    (h : (s.channel c).vok = true → e = .none) : ((s.complete c e).channel c).FlagsOk := by
  rw [State.channel_complete_self hc]
  exact Channel.flagsOk_ended h

theorem State.flagsOk_raise {s : State} {c : Nat} (hc : c < s.nch) {e : ErrCode} (herror : e ≠ .none)
    (hvok : (s.channel c).vok = false) : ((s.raise c e).channel c).FlagsOk := by
  have hvacuous : (s.channel c).vok = true → e = .none := fun h => by rw [hvok] at h; cases h
  rw [State.channel_raise hc herror]
  split
  · exact Channel.flagsOk_ended hvacuous
  · exact Channel.flagsOk_endedWith 0 hvacuous

/-- An engine step of a busy channel ends with its flags in order: `VOK` was 0, and only a command that completes sets it. -/
theorem State.flagsOk_runRule {s : State} {c : Nat} (hc : c < s.nch) (hflags : (s.channel c).FlagsOk)
    (hbusy : (s.channel c).busy = true) {i : Instr} {rule : Nat → State → RuleResult}
    (hrule : RuleEnd s c i (rule c s)) : ((s.runRule c rule).channel c).FlagsOk := by
  obtain ⟨-, hvok, -⟩ := hflags.busy_clear hbusy
  cases hfatal : s.fatal with
  | true =>
    rw [State.runRule_of_fatal s c rule hfatal]
    exact State.flagsOk_complete hc fun h => by rw [hvok] at h; cases h
  | false =>
    rw [State.runRule_eq s c rule hfatal]
    generalize rule c s = result at hrule
    cases hrule with
    | rejected e hcode herror hdraw => exact State.flagsOk_raise hc herror hvok
    | held => exact hflags
    | failed => exact State.flagsOk_raise (s := { s with rngInit := true }) hc nofun hvok
    | wrongKey n ivn => exact State.flagsOk_raise (s := (s.drawn n).writeArray c .ivn ivn) hc nofun hvok
    | generated | encrypted | decrypted | tagged | verified =>
      exact State.flagsOk_complete (by simpa using hc) fun _ => rfl

/-! ### Every step -/

theorem State.Inv.dataInv {s : State} (h : s.Inv) : s.DataInv := (s.inv_iff.mp h).1

theorem State.Inv.flagsOk {s : State} (h : s.Inv) {c : Nat} (hc : c < s.nch) : (s.channel c).FlagsOk :=
  (s.inv_iff.mp h).2 c hc

/-- The invariant says nothing of what the agents around the block bring. -/
theorem State.Inv.withAgents {s : State} (h : s.Inv) (active : Nat) (answer : Answer) (agenda : List Event)
    (replies : List Word) :
    State.Inv { s with active := active, answer := answer, agenda := agenda, replies := replies } where
  nch_pos := h.nch_pos
  channel_inv := h.channel_inv
  mem_wf := h.mem_wf
  mem_mapped := h.mem_mapped
  dout_tail := h.dout_tail
  rsPos_le := h.rsPos_le
  drawn_init := h.drawn_init
  fatal_init := h.fatal_init

/-- An engine step keeps the invariant, given what it leaves of its own channel. -/
theorem State.Inv.of_engineStep {s t : State} {c : Nat} (h : s.Inv) (hframe : EngineFrame s t c) (hdata : t.DataInv)
    (hflags : (t.channel c).FlagsOk) : t.Inv := by
  refine t.inv_iff.mpr ⟨hdata, fun d hd => ?_⟩
  by_cases hdc : d = c
  · exact hdc ▸ hflags
  · rw [hframe.others d hdc]
    exact h.flagsOk (hframe.nch ▸ hd)

/-- A word that is no command ends its engine step at once, with the code that the latch selects (R94, R249). -/
theorem State.runRule_illegal (s : State) (c : Nat) :
    (s.runRule c fun _ s' => .raised .illegalCommand s') =
      s.complete c (if s.fatal then .entropyUnavailable else .illegalCommand) := by
  cases hfatal : s.fatal with
  | true => exact State.runRule_of_fatal s c _ hfatal
  | false => exact State.runRule_eq s c _ hfatal

theorem State.Inv.runRule_wordRule {s : State} (h : s.Inv) {c : Nat} (hc : c < s.nch)
    (hbusy : (s.channel c).busy = true) (w : Word) : (s.runRule c (wordRule w)).Inv := by
  have hframe := (State.runRule_writesOnlyResults s c (wordRule w) (wordRule_keepsOperands w c s)).frame
  cases hdecode : decode w with
  | ok i =>
    rw [wordRule_of_ok hdecode] at hframe ⊢
    exact h.of_engineStep hframe (h.dataInv.runRule hc (ruleOf_ruleEnd i c s))
      (State.flagsOk_runRule hc (h.flagsOk hc) hbusy (ruleOf_ruleEnd i c s))
  | error e =>
    obtain ⟨-, hvok, -⟩ := (h.flagsOk hc).busy_clear hbusy
    rw [wordRule_of_error hdecode] at hframe ⊢
    refine h.of_engineStep hframe ?_ ?_ <;> rw [State.runRule_illegal]
    · exact h.dataInv.complete hc _
    · exact State.flagsOk_complete hc fun hset => by rw [hvok] at hset; cases hset

theorem State.Inv.engineTurn {s t : State} (h : s.Inv) {c : Nat} {a : Answer} (hturn : s.engineTurn c a = .next t) :
    t.Inv := by
  by_cases hready : c < s.nch ∧ (s.channel c).busy = true
  · rw [State.engineTurn_of_busy s c a hready.1 hready.2] at hturn
    cases hturn
    exact (h.withAgents c a s.agenda s.replies).runRule_wordRule hready.1 hready.2 _
  · rw [State.engineTurn_of_not_busy s c a hready] at hturn
    cases hturn
    exact h

/-- A host's write to a control word keeps the lengths within their capacities and the flags in order. -/
theorem State.Inv.writeWord {s : State} (h : s.Inv) {c : Nat} (hc : c < s.nch) (hidle : (s.channel c).busy = false)
    (r : WordReg) (v : Word) : (s.writeWord c r v).Inv := by
  obtain ⟨hlengths, hflags⟩ := (Channel.inv_iff _ _).mp (h.channel_inv_of_lt hc)
  have hupdate : ∀ f : Channel → Channel, (f (s.channel c)).doutLen = (s.channel c).doutLen →
      (f (s.channel c)).LengthsOk s.bufMax → (f (s.channel c)).FlagsOk → (s.updateChannel c f).Inv := by
    intro f hdout hlengths' hflags'
    refine h.of_engineStep (engineFrame_updateChannel s c f) (h.dataInv.updateChannel hc hdout hlengths') ?_
    rwa [State.channel_updateChannel_self s c f hc]
  obtain ⟨hkey, hdin, hdout, hxtag⟩ := hlengths
  obtain ⟨hbusyClear, hvokClean⟩ := hflags
  rcases State.writeWord_cases s c r v with e | ⟨-, -, e⟩ | ⟨-, -, e⟩ | ⟨-, hv, e⟩ | ⟨-, hv, e⟩ | ⟨-, hv, e⟩ <;> rw [e]
  · exact h
  · exact hupdate _ rfl ⟨hkey, hdin, hdout, hxtag⟩ ⟨fun hbusy => absurd (hidle.symm.trans hbusy) nofun, nofun⟩
  · exact hupdate _ rfl ⟨hkey, hdin, hdout, hxtag⟩ ⟨fun _ => ⟨rfl, rfl, rfl⟩, nofun⟩
  · exact hupdate _ rfl ⟨hv, hdin, hdout, hxtag⟩ ⟨hbusyClear, hvokClean⟩
  · exact hupdate _ rfl ⟨hkey, hv, hdout, hxtag⟩ ⟨hbusyClear, hvokClean⟩
  · exact hupdate _ rfl ⟨hkey, hdin, hdout, hv⟩ ⟨hbusyClear, hvokClean⟩

theorem State.Inv.memWrite {s : State} (h : s.Inv) (addr n : Nat) (v : Word) : (s.memWrite addr n v).Inv := by
  rcases State.memWrite_cases s addr n v with e | ⟨c, r, -, hc, hidle, e⟩ | ⟨c, r, k, -, hc, -, hw, rfl, hle, e⟩ <;> rw [e]
  · exact h
  · exact h.writeWord hc hidle r v
  · refine s.inv_iff.mp h |>.imp_left (fun hdata => ?_) |> (State.inv_iff _).mpr
    refine hdata.withMem (Memory.wf_writeLE _ _ _ _ h.mem_wf) (fun e he => ?_) fun d j _ hj => ?_
    · exact (Memory.mem_writeLE _ _ _ _ e he).imp_left fun hin => ⟨c, r, hc, by omega, by omega⟩
    · refine Memory.read_writeLE_outside _ _ _ _ _ (not_and_or.mp ?_ |>.imp Nat.not_le.mp Nat.not_lt.mp)
      rintro ⟨hlo, hhi⟩
      obtain ⟨-, rfl, -⟩ := arrays_disjoint s c d r .dout (arrayBase d .dout + j - arrayBase c r) j (by omega) hj (by omega)
      cases hw

/-- A block that was just reset meets the invariant (R39, R280). -/
theorem State.inv_resetWith (u : Fin 4095) {nch : Nat} (source : Source) (h : 0 < nch) :
    (State.resetWith u nch source).Inv where
  nch_pos := by rwa [State.nch_resetWith]
  channel_inv ch hch := by
    obtain rfl : ch = Channel.reset := List.eq_of_mem_replicate hch
    exact ⟨Nat.zero_le _, Nat.zero_le _, Nat.zero_le _, Nat.zero_le _, nofun, nofun⟩
  mem_wf := Memory.wf_nil
  mem_mapped _ he := absurd he List.not_mem_nil
  dout_tail _ _ _ _ _ := rfl
  rsPos_le _ _ := Nat.zero_le _
  drawn_init := nofun
  fatal_init := nofun

/-- Settles O8: the number of channels at reset is one more than a natural number. -/
theorem resetMeetsInvariant : Obligations.ResetMeetsInvariant := State.inv_resetWith _ _ (Nat.succ_pos _)

/-- Settles O7: the event of the step is the host's, an engine's or the reset input's, and each keeps the invariant. -/
theorem stepKeepsInvariant : Obligations.StepKeepsInvariant := by
  intro s t hinv hstep
  have hpopped : ∀ rest, (s.popped rest).Inv := fun rest => hinv.withAgents s.active s.answer rest s.replies
  rw [step_eq] at hstep
  split at hstep
  · cases hstep
    exact hinv
  · next addr n rest _ =>
    cases hstep
    exact hinv.withAgents s.active s.answer rest _
  · next addr n v rest _ =>
    cases hstep
    exact (hpopped rest).memWrite addr n v
  · next c a rest _ => exact (hpopped rest).engineTurn hstep
  · next source rest _ =>
    cases hstep
    exact (State.inv_resetWith s.bufUnits source hinv.nch_pos).withAgents _ _ _ _

end Sys2Proof.Machine

/-! PROOFS of the statement that a command depends on nothing but its own operands (spec 10_state.md R26 to R38): two states
that agree on them take every operation, and so every command, to states that agree again. -/

namespace Sys2Proof.Machine

/-! ### Every operation keeps the agreement -/

/-- If two memories agree after a change wherever they did before, then slices that were equal stay equal. -/
theorem Memory.readBytes_agree {m m' p p' : Memory} {a n : Nat}
    (hkeeps : ∀ b, m'.read b = m.read b → p'.read b = p.read b) (h : m'.readBytes a n = m.readBytes a n) :
    p'.readBytes a n = p.readBytes a n := by
  refine Memory.readBytes_congr p p' a n fun b hlo hhi => hkeeps b ?_
  have hbyte := congrArg (fun bytes => bytes.getD (b - a) 0#8) h
  simpa only [Memory.readBytes_getD _ a n (b - a) (by omega), Nat.add_sub_cancel' hlo] using hbyte

@[simp] theorem State.updateChannel_arrayBytes (s : State) (c d : Nat) (f : Channel → Channel) (r : ArrayReg) (n : Nat) :
    (s.updateChannel c f).arrayBytes d r n = s.arrayBytes d r n := rfl

section
variable {s u : State} {c : Nat} (h : AgreeOn s u c)
include h

theorem AgreeOn.bufMax : u.bufMax = s.bufMax := State.bufMax_of_bufUnits s u h.bufUnits

theorem AgreeOn.withMem {m m' : Memory} (hkeeps : ∀ a, u.mem.read a = s.mem.read a → m'.read a = m.read a) :
    AgreeOn { s with mem := m } { u with mem := m' } c := by
  have harray : ∀ r n, u.arrayBytes c r n = s.arrayBytes c r n →
      m'.readBytes (arrayBase c r) n = m.readBytes (arrayBase c r) n := fun r n => Memory.readBytes_agree hkeeps
  have hoperand : ∀ r (f : Channel → Word),
      u.arrayBytes c r (f (u.channel c)).toNat = s.arrayBytes c r (f (s.channel c)).toNat →
        m'.readBytes (arrayBase c r) (f (u.channel c)).toNat = m.readBytes (arrayBase c r) (f (s.channel c)).toNat := by
    intro r f heq
    rw [h.control] at heq ⊢
    exact harray r _ heq
  exact {
    h with
    key := hoperand .key Channel.keyLen h.key
    data := hoperand .din Channel.dinLen h.data
    expected := hoperand .xtag Channel.xtagLen h.expected
    ivn := harray .ivn 16 h.ivn
    tag := harray .tag 32 h.tag
    dout := fun k hk => hkeeps _ (h.dout k hk) }

theorem AgreeOn.writeArray (r : ArrayReg) (bytes : List Byte) :
    AgreeOn (s.writeArray c r bytes) (u.writeArray c r bytes) c :=
  h.withMem fun a ha => by rw [Memory.read_writeBytes, Memory.read_writeBytes, ha]

/-- A change of control words that leaves the operands' lengths alone. -/
theorem AgreeOn.updateChannel (hc : c < s.nch) {f : Channel → Channel}
    (hkey : ∀ ch, (f ch).keyLen = ch.keyLen) (hdin : ∀ ch, (f ch).dinLen = ch.dinLen)
    (hxtag : ∀ ch, (f ch).xtagLen = ch.xtagLen) : AgreeOn (s.updateChannel c f) (u.updateChannel c f) c := by
  have hs := State.channel_updateChannel_self s c f hc
  have hu := State.channel_updateChannel_self u c f (h.nch.symm ▸ hc)
  have hcontrol : (u.updateChannel c f).channel c = (s.updateChannel c f).channel c := by rw [hs, hu, h.control]
  exact {
    h with
    nch := by rw [State.updateChannel_nch, State.updateChannel_nch, h.nch]
    control := hcontrol
    key := by simpa only [State.keyOperand, hs, hu, hkey, State.updateChannel_arrayBytes] using h.key
    data := by simpa only [State.dataOperand, hs, hu, hdin, State.updateChannel_arrayBytes] using h.data
    expected := by simpa only [State.expectedTag, hs, hu, hxtag, State.updateChannel_arrayBytes] using h.expected }

theorem AgreeOn.complete (hc : c < s.nch) (e : ErrCode) : AgreeOn (s.complete c e) (u.complete c e) c :=
  h.updateChannel hc (fun _ => rfl) (fun _ => rfl) (fun _ => rfl)

theorem AgreeOn.setOutput (hc : c < s.nch) (bytes : List Byte) : AgreeOn (s.setOutput c bytes) (u.setOutput c bytes) c := by
  have hmem : ∀ a, u.mem.read a = s.mem.read a → (u.setOutput c bytes).mem.read a = (s.setOutput c bytes).mem.read a := by
    intro a ha
    rw [State.setOutput_mem, State.setOutput_mem, Memory.read_writeBytes, Memory.read_writeBytes, Memory.read_clear,
      Memory.read_clear, ha, h.bufMax]
  exact (h.withMem hmem).updateChannel hc (f := fun ch => { ch with doutLen := BitVec.ofNat 32 bytes.length })
    (fun _ => rfl) (fun _ => rfl) (fun _ => rfl)

theorem AgreeOn.drawn (n : Nat) : AgreeOn (s.drawn n) (u.drawn n) c :=
  { h with rsPos := congrArg (· + n) h.rsPos, rngInit := rfl }

theorem AgreeOn.attempted : AgreeOn { s with rngInit := true } { u with rngInit := true } c := { h with rngInit := rfl }

theorem AgreeOn.latched : AgreeOn { s with fatal := true } { u with fatal := true } c := { h with fatal := rfl }

theorem AgreeOn.raise (hc : c < s.nch) (e : ErrCode) : AgreeOn (s.raise c e) (u.raise c e) c := by
  have hclear := h.setOutput hc []
  have hc' : c < (s.setOutput c []).nch := by simpa using hc
  rw [State.raise_eq, State.raise_eq]
  split
  · exact h.complete hc e
  · split
    · exact hclear.latched.complete hc' e
    · exact hclear.complete hc' e

end

/-! ### Every command keeps the agreement -/

/-- Two pseudocodes of channel `c` end in the same way, in states that agree. -/
inductive RuleResult.Agree (c : Nat) : RuleResult → RuleResult → Prop
  | ended {s u : State} (h : AgreeOn s u c) : Agree c (.ended s) (.ended u)
  | raised {s u : State} (e : ErrCode) (h : AgreeOn s u c) : Agree c (.raised e s) (.raised e u)
  | held : Agree c .held .held

section
variable {s u : State} {c : Nat} (h : AgreeOn s u c) (hc : c < s.nch)
include h

theorem AgreeOn.withinLimit_iff (n : Nat) : u.WithinLimit n ↔ s.WithinLimit n := by
  rw [State.WithinLimit, State.WithinLimit, h.source, h.rsPos]

/-- The draw is answered alike, with the same bytes. -/
theorem AgreeOn.withDraw (n : Nat) {next next' : List Byte → State → RuleResult}
    (hnext : ∀ bytes, (next bytes (s.drawn n)).Agree c (next' bytes (u.drawn n))) :
    (s.withDraw n next).Agree c (u.withDraw n next') := by
  have hbytes : u.nextRandom n = s.nextRandom n := by rw [State.nextRandom, State.nextRandom, h.source, h.rsPos]
  rcases State.withDraw_cases s n next with ⟨hs, e⟩ | ⟨hs, e⟩ | ⟨hs, e⟩ <;> rw [e]
  · have hu : u.Delivers n := by rwa [State.Delivers, h.answer, h.withinLimit_iff]
    rw [State.withDraw_of_delivers u n next' hu, hbytes]
    exact hnext _
  · have hu : u.Starves n := by rwa [State.Starves, h.answer, h.withinLimit_iff]
    rw [State.withDraw_of_starves u n next' hu]
    exact .held
  · have hu : u.Fails n := by rwa [State.Fails, h.source, h.rsPos]
    rw [State.withDraw_of_fails u n next' hu]
    exact .raised _ h.attempted

theorem macComputeRule_agree : (macComputeRule c s).Agree c (macComputeRule c u) := by
  unfold macComputeRule State.computedTag
  rw [h.key, h.data]
  exact .ended (h.writeArray .tag _)

include hc

theorem genBytes_agree (n : Nat) : (genBytes n c s).Agree c (genBytes n c u) := by
  unfold genBytes
  rw [h.bufMax]
  split
  · exact .raised _ h
  · exact h.withDraw n fun bytes => .ended ((h.drawn n).setOutput hc bytes)

theorem genKeyRule_agree (bits : Nat) : (genKeyRule bits c s).Agree c (genKeyRule bits c u) := by
  unfold genKeyRule
  split
  · exact .raised _ h
  · exact genBytes_agree h hc (bits / 8)

theorem macVerifyRule_agree : (macVerifyRule c s).Agree c (macVerifyRule c u) := by
  unfold macVerifyRule State.computedTag
  rw [h.key, h.data, h.expected]
  exact .ended (h.updateChannel hc (fun _ => rfl) (fun _ => rfl) (fun _ => rfl))

theorem cbcEncDrawn_agree (iv : List Byte) : (cbcEncDrawn c iv s).Agree c (cbcEncDrawn c iv u) := by
  unfold cbcEncDrawn
  rw [h.key, h.data, h.control]
  split
  · exact .ended ((h.writeArray .ivn iv).setOutput hc _)
  · exact .raised _ (h.writeArray .ivn iv)

theorem cbcEncRule_agree : (cbcEncRule c s).Agree c (cbcEncRule c u) := by
  unfold cbcEncRule
  rw [h.control, h.bufMax]
  split
  · exact .raised _ h
  · exact h.withDraw 16 fun bytes => cbcEncDrawn_agree (h.drawn 16) hc bytes

theorem cbcDecRule_agree : (cbcDecRule c s).Agree c (cbcDecRule c u) := by
  unfold cbcDecRule
  rw [h.key, h.data, h.ivn, h.control]
  split
  · split
    · exact .raised _ h
    · split
      · exact .raised _ h
      · exact .ended (h.setOutput hc _)
  · exact .raised _ h

theorem gcmEncDrawn_agree (nonce : List Byte) : (gcmEncDrawn c nonce s).Agree c (gcmEncDrawn c nonce u) := by
  unfold gcmEncDrawn
  rw [h.key, h.data, h.control]
  split
  · exact .ended ((h.writeArray .ivn _).setOutput hc _)
  · exact .raised _ (h.writeArray .ivn _)

theorem gcmEncRule_agree : (gcmEncRule c s).Agree c (gcmEncRule c u) := by
  unfold gcmEncRule
  rw [h.control, h.bufMax]
  split
  · exact .raised _ h
  · exact h.withDraw 12 fun bytes => gcmEncDrawn_agree (h.drawn 12) hc bytes

theorem gcmDecRule_agree : (gcmDecRule c s).Agree c (gcmDecRule c u) := by
  have hnonce : u.nonceOperand c = s.nonceOperand c := by
    rw [State.nonceOperand_eq_take, State.nonceOperand_eq_take, h.ivn]
  unfold gcmDecRule
  rw [h.key, h.data, hnonce, h.control]
  split
  · split
    · exact .raised _ h
    · dsimp only
      split
      · exact .ended (h.setOutput hc _)
      · exact .raised _ h
  · exact .raised _ h

theorem ruleOf_agree (i : Instr) : (ruleOf i c s).Agree c (ruleOf i c u) := by
  cases i with
  | rngBytes n => exact genBytes_agree h hc n
  | genKey bits => exact genKeyRule_agree h hc bits
  | genIv => exact genBytes_agree h hc 16
  | genNonce => exact genBytes_agree h hc 12
  | macCompute => exact macComputeRule_agree h
  | macVerify => exact macVerifyRule_agree h hc
  | cbcEnc => exact cbcEncRule_agree h hc
  | cbcDec => exact cbcDecRule_agree h hc
  | gcmEnc => exact gcmEncRule_agree h hc
  | gcmDec => exact gcmDecRule_agree h hc

end

theorem AgreeOn.runRule {s u : State} {c : Nat} (h : AgreeOn s u c) (hc : c < s.nch) (i : Instr) :
    AgreeOn (s.runRule c (ruleOf i)) (u.runRule c (ruleOf i)) c := by
  cases hfatal : s.fatal with
  | true =>
    rw [State.runRule_of_fatal s c _ hfatal, State.runRule_of_fatal u c _ (h.fatal.trans hfatal)]
    exact h.complete hc _
  | false =>
    have hrules := ruleOf_agree h hc i
    have hkeeps := ruleOf_keepsOperands i c s
    rw [State.runRule_eq s c _ hfatal, State.runRule_eq u c _ (h.fatal.trans hfatal)]
    generalize ruleOf i c s = result, ruleOf i c u = result' at hrules hkeeps
    cases hrules with
    | ended hagree => exact hagree.complete (hkeeps.frame.nch.symm ▸ hc) _
    | raised e hagree => exact hagree.raise (hkeeps.frame.nch.symm ▸ hc) e
    | held => exact h

/-- Settles O39: agreement is kept by every operation, a command's pseudocode takes the same course in both states, and so
does its end. -/
theorem commandsIgnoreUnusedBytes : Obligations.CommandsIgnoreUnusedBytes := by
  rintro s t u c i - - h rfl hexec
  obtain ⟨hc, rfl⟩ := exec_next i s t hexec
  have hactive : u.active = s.active := h.active
  refine ⟨_, exec_eq_next i u (by rwa [hactive, h.nch]), ?_⟩
  rw [hactive]
  exact h.runRule hc i

end Sys2Proof.Machine

/-! PROOFS of the statements about host accesses (spec 20_memory.md R60 to R70): what an access meets decides what it does. -/

namespace Sys2Proof.Machine

/-! ### Offsets (R61) -/

theorem wordAddr_mod (c : Nat) (r : WordReg) : wordAddr c r % Config.channelStride = r.offset := by
  have hr := r.offset_lt
  rw [wordAddr, channelStride_eq]
  omega

theorem arrayBase_add_mod (s : State) (c : Nat) (r : ArrayReg) {k : Nat} (hk : k < r.size s.bufMax) :
    (arrayBase c r + k) % Config.channelStride = r.offset + k := by
  obtain ⟨-, hk⟩ := r.within_channel s k hk
  rw [arrayBase, Nat.add_assoc, Nat.mul_add_mod_self_right, Nat.mod_eq_of_lt hk]

theorem WordReg.eq_cmd_of_writeOnlyOffset {r : WordReg} (h : WriteOnlyOffset r.offset) : r = .cmd := by
  revert h
  cases r <;> simp [WordReg.offset, WriteOnlyOffset]

theorem ArrayReg.eq_key_of_writeOnlyOffset {r : ArrayReg} {bufMax k : Nat} (hk : k < r.size bufMax)
    (h : WriteOnlyOffset (r.offset + k)) : r = .key := by
  cases r with
  | key => rfl
  | tag | xtag | ivn | din | dout =>
    simp only [ArrayReg.offset, ArrayReg.size, WriteOnlyOffset, Config.xtagMax] at h hk
    omega

/-- A read-only control word keeps its value whatever is written. -/
theorem State.writeWord_of_readOnlyOffset {s : State} {r : WordReg} (c : Nat) (v : Word)
    (h : ReadOnlyOffset s.bufMax r.offset) : s.writeWord c r v = s := by
  cases r with
  | status | doutLen | caps0 | caps1 => rfl
  | cmd | keyLen | dinLen | xtagLen =>
    simp only [WordReg.offset, ReadOnlyOffset] at h
    omega

theorem ArrayReg.writable_of_readOnlyOffset {r : ArrayReg} {bufMax k : Nat} (hmax : bufMax ≤ 65536)
    (hk : k < r.size bufMax) (h : ReadOnlyOffset bufMax (r.offset + k)) : r.writable = false := by
  cases r with
  | tag | dout => rfl
  | xtag | ivn | key | din =>
    simp only [ArrayReg.offset, ArrayReg.size, ReadOnlyOffset, Config.xtagMax, Config.keyMax] at h hk
    omega

/-! ### Accesses that meet nothing (R66 (a), (b), (e)) -/

/-- An access of an absent channel, of part of a control word, or that touches a reserved offset, meets nothing. -/
theorem State.target_eq_none_of_refused (s : State) (addr n : Nat)
    (h : s.nch * Config.channelStride ≤ addr ∨ (n ≠ 4 ∧ addr % Config.channelStride < 0x20) ∨
      ∃ k, k < n ∧ ReservedOffset s.bufMax ((addr + k) % Config.channelStride)) : s.target addr n = none := by
  have hpresent : addr / Config.channelStride < s.nch → ¬ s.nch * Config.channelStride ≤ addr := by
    rw [channelStride_eq]
    omega
  rcases s.target_cases addr n with hnone | ⟨r, -, hc, rfl, haddr⟩ | ⟨r, j, -, hc, hn, -, haddr, hle⟩
  · exact hnone
  · exfalso
    rcases h with habsent | ⟨hfour, -⟩ | ⟨k, hk, hreserved⟩
    · exact hpresent hc habsent
    · exact hfour rfl
    · have hr := r.offset_lt
      refine r.not_reserved s.bufMax k hk ?_
      rwa [haddr, wordAddr, Nat.add_assoc, Nat.mul_add_mod_self_right, Nat.mod_eq_of_lt] at hreserved
      rw [channelStride_eq]
      omega
  · exfalso
    rcases h with habsent | ⟨-, hword⟩ | ⟨k, hk, hreserved⟩
    · exact hpresent hc habsent
    · obtain ⟨hlo, -⟩ := r.within_channel s j (by omega)
      rw [haddr, arrayBase_add_mod s _ r (by omega)] at hword
      omega
    · rw [haddr, Nat.add_assoc, arrayBase_add_mod s _ r (by omega)] at hreserved
      exact r.not_reserved _ s.bufMax_range.2.2 (j + k) (by omega) hreserved

/-! ### Registers that are read or written only (R66 (c), (d)) -/

/-- `CMD` and `KEY` read as 0. -/
theorem State.memRead_of_writeOnly (s : State) (addr n : Nat) (h : WriteOnlyOffset (addr % Config.channelStride)) :
    s.memRead addr n = 0#32 := by
  rcases s.target_cases addr n with hnone | ⟨r, htarget, -, -, haddr⟩ | ⟨r, j, htarget, -, hn, -, haddr, hle⟩
  · exact s.memRead_of_none addr n hnone
  · rw [haddr, wordAddr_mod] at h
    obtain rfl := WordReg.eq_cmd_of_writeOnlyOffset h
    rw [s.memRead_of_word addr n _ _ htarget]
    exact ite_self _
  · have hj : j < r.size s.bufMax := by omega
    rw [haddr, arrayBase_add_mod s _ r hj] at h
    obtain rfl := ArrayReg.eq_key_of_writeOnlyOffset hj h
    rw [s.memRead_of_bytes addr n _ _ htarget, ArrayReg.readable, Bool.not_false, Bool.or_true, if_pos rfl]

/-- `STATUS`, `DOUTLEN`, `CAPS0`, `CAPS1`, `TAG` and `DOUT` keep their values. -/
theorem State.memWrite_of_readOnly (s : State) (addr n : Nat) (v : Word)
    (h : ReadOnlyOffset s.bufMax (addr % Config.channelStride)) : s.memWrite addr n v = s := by
  rcases s.target_cases addr n with hnone | ⟨r, htarget, -, -, haddr⟩ | ⟨r, j, htarget, -, hn, -, haddr, hle⟩
  · exact s.memWrite_of_none addr n v hnone
  · rw [haddr, wordAddr_mod] at h
    rw [s.memWrite_of_word addr n _ _ v htarget, State.writeWord_of_readOnlyOffset _ v h, ite_self]
  · have hj : j < r.size s.bufMax := by omega
    rw [haddr, arrayBase_add_mod s _ r hj] at h
    rw [s.memWrite_of_bytes addr n _ _ v htarget, ArrayReg.writable_of_readOnlyOffset s.bufMax_range.2.2 hj h,
      Bool.not_false, Bool.or_true, if_pos rfl]

/-- Settles O14: such an access meets nothing, or a register that it cannot read or write. -/
theorem refusedAccessHasNoEffect : Obligations.RefusedAccessHasNoEffect := by
  refine fun s addr n v => ⟨fun h => ?_, s.memRead_of_writeOnly addr n, s.memWrite_of_readOnly addr n v⟩
  have hnone := s.target_eq_none_of_refused addr n h
  exact ⟨s.memWrite_of_none addr n v hnone, s.memRead_of_none addr n hnone⟩

/-- Settles O15: a read is a step of the host that leaves the block alone. -/
theorem readHasNoSideEffect : Obligations.ReadHasNoSideEffect := step_of_memRead

/-! ### Busy channels (R70) -/

theorem State.memWrite_of_busy (s : State) (addr n : Nat) (v : Word)
    (hbusy : (s.channel (addr / Config.channelStride)).busy = true) : s.memWrite addr n v = s := by
  have hidle : ∀ c, c = addr / Config.channelStride → ¬ (s.channel c).busy = false := by
    rintro c rfl
    rw [hbusy]
    nofun
  rcases s.memWrite_cases addr n v with h | ⟨c, r, hc, -, h, -⟩ | ⟨c, r, k, hc, -, h, -⟩
  · exact h
  · exact absurd h (hidle c hc)
  · exact absurd h (hidle c hc)

theorem WordReg.readableBusy_eq_false {r : WordReg} (h : ¬ (r.offset = 0x4 ∨ r.offset = 0x18 ∨ r.offset = 0x1C)) :
    r.readableBusy = false := by
  cases r with
  | cmd | keyLen | dinLen | doutLen | xtagLen => rfl
  | status => exact absurd (Or.inl rfl) h
  | caps0 => exact absurd (Or.inr (Or.inl rfl)) h
  | caps1 => exact absurd (Or.inr (Or.inr rfl)) h

theorem State.memRead_of_busy (s : State) (addr n : Nat) (hbusy : (s.channel (addr / Config.channelStride)).busy = true)
    (h : ¬ (n = 4 ∧ (addr % Config.channelStride = 0x4 ∨ addr % Config.channelStride = 0x18 ∨
      addr % Config.channelStride = 0x1C))) : s.memRead addr n = 0#32 := by
  rcases s.target_cases addr n with hnone | ⟨r, htarget, -, rfl, haddr⟩ | ⟨r, j, htarget, -⟩
  · exact s.memRead_of_none addr n hnone
  · have hhidden : r.readableBusy = false := by
      rw [haddr, wordAddr_mod] at h
      exact WordReg.readableBusy_eq_false fun hoff => h ⟨rfl, hoff⟩
    rw [s.memRead_of_word addr 4 _ _ htarget, hbusy, hhidden]
    rfl
  · rw [s.memRead_of_bytes addr n _ _ htarget, hbusy]
    rfl

/-- Settles O16: of a busy channel only the three control words are readable, and nothing is writable. -/
theorem busyChannelRefusesAccess : Obligations.BusyChannelRefusesAccess := fun s addr n v _ hbusy =>
  ⟨s.memWrite_of_busy addr n v hbusy, s.memRead_of_busy addr n hbusy⟩

/-! ### Byte arrays (R63) -/

/-- A bus value is the sum of its bytes, each with the weight of its lane. -/
theorem Memory.toNat_readLE (m : Memory) (a n : Nat) (h : n ≤ 4) :
    (m.readLE a n).toNat = ((List.range n).map fun j => (m.read (a + j)).toNat * 2 ^ (8 * j)).sum := by
  induction n generalizing a with
  | zero => rfl
  | succ k ih =>
    rw [Memory.toNat_readLE_succ m a k (by omega), ih (a + 1) (by omega), List.range_succ_eq_map, List.map_cons,
      List.sum_cons, List.map_map, ← List.sum_map_mul_left]
    refine congrArg₂ (· + ·) (by simp) (congrArg List.sum (List.map_congr_left fun j _ => ?_))
    rw [Function.comp, Nat.add_right_comm a 1 j, Nat.mul_succ 8 j, Nat.pow_add]
    exact (Nat.mul_comm 256 _).trans (Nat.mul_assoc _ _ _)

theorem State.memRead_array {s : State} {c : Nat} {r : ArrayReg} {k n : Nat} (hc : c < s.nch)
    (hidle : (s.channel c).busy = false) (hr : r.readable = true) (hn : n = 1 ∨ n = 2 ∨ n = 4) (hk : k % n = 0)
    (hle : k + n ≤ r.size s.bufMax) : s.memRead (arrayBase c r + k) n = s.mem.readLE (arrayBase c r + k) n := by
  rw [s.memRead_of_bytes _ n c r (s.target_bytes c r k n hc hn hk hle), hidle, hr]
  rfl

/-- Settles O17: the access is performed, and gives the bytes' sum. -/
theorem byteArrayReadIsLittleEndian : Obligations.ByteArrayReadIsLittleEndian := by
  intro s c r k n hc hidle hkey hn hk hle
  have hr : r.readable = true := by
    cases r with
    | key => exact absurd rfl hkey
    | tag | xtag | ivn | din | dout => rfl
  rw [State.memRead_array hc hidle hr hn hk hle, Memory.toNat_readLE _ _ _ (by omega)]

theorem State.memWrite_array {s : State} {c : Nat} {r : ArrayReg} {k n : Nat} (v : Word) (hc : c < s.nch)
    (hidle : (s.channel c).busy = false) (hr : r.writable = true) (hn : n = 1 ∨ n = 2 ∨ n = 4) (hk : k % n = 0)
    (hle : k + n ≤ r.size s.bufMax) :
    s.memWrite (arrayBase c r + k) n v = { s with mem := s.mem.writeLE (arrayBase c r + k) n v } := by
  rw [s.memWrite_of_bytes _ n c r v (s.target_bytes c r k n hc hn hk hle), hidle, hr]
  rfl

/-- A bus value just stored reads back, as far as its lanes go. -/
theorem Memory.toNat_readLE_writeLE (m : Memory) (a n : Nat) (v : Word) (h : n ≤ 4) :
    ((m.writeLE a n v).readLE a n).toNat = v.toNat % 2 ^ (8 * n) := by
  induction n generalizing m a v with
  | zero => simp [Memory.readLE, Nat.mod_one]
  | succ k ih =>
    have hfirst : (m.writeLE a (k + 1) v).read a = v.setWidth 8 := by
      simpa using Memory.read_writeLE_inside m a (k + 1) v 0 (Nat.succ_pos k)
    rw [Memory.toNat_readLE_succ _ _ _ (by omega), hfirst, Memory.writeLE, ih _ _ _ (by omega), BitVec.toNat_setWidth,
      BitVec.toNat_ushiftRight, Nat.shiftRight_eq_div_pow, Nat.mul_succ, Nat.add_comm (8 * k), Nat.pow_add, Nat.mod_mul]

/-- Settles O18: the write stores the value's lanes and nothing else, and the read puts them together again. -/
theorem writeThenReadReturnsValue : Obligations.WriteThenReadReturnsValue := by
  intro s c r k n v rest hc hidle hn hk hle
  have hwritten : ∀ rest', (r = .key ∨ r = .ivn ∨ r = .xtag ∨ r = .din) →
      s.agenda = .memWrite (arrayBase c r + k) n v :: rest' →
      step s = .next { s.popped rest' with mem := s.mem.writeLE (arrayBase c r + k) n v } := by
    intro rest' hoperand hagenda
    have hr : r.writable = true := by rcases hoperand with rfl | rfl | rfl | rfl <;> rfl
    rw [step_of_memWrite s _ n v rest' hagenda]
    exact congrArg _ (State.memWrite_array (s := s.popped rest') v hc hidle hr hn hk hle)
  constructor
  · intro hoperand hagenda
    exact ⟨_, hwritten rest hoperand hagenda, fun j hj => Memory.read_writeLE_inside _ _ _ _ _ hj, rfl, rfl, rfl,
      ⟨rfl, rfl, rfl⟩, fun a ha => Memory.read_writeLE_outside _ _ _ _ _ ha⟩
  · intro hoperand hagenda
    have hr : r.readable = true := by rcases hoperand with rfl | rfl | rfl <;> rfl
    refine ⟨_, _, hwritten _ (Or.inr hoperand) hagenda, step_of_memRead _ _ n rest rfl, ?_, rfl, rfl, ⟨rfl, rfl, rfl⟩,
      fun a ha => Memory.read_writeLE_outside _ _ _ _ _ ha⟩
    have hread := State.memRead_array (s := { s with mem := s.mem.writeLE (arrayBase c r + k) n v }) hc hidle hr hn hk hle
    refine congrArg (· :: s.replies) (hread.trans (BitVec.eq_of_toNat_eq ?_))
    rw [Memory.toNat_readLE_writeLE _ _ _ _ (by omega), BitVec.toNat_ofNat,
      Nat.mod_eq_of_lt ((Nat.mod_le _ _).trans_lt v.isLt)]

/-- A bus value is the same where its bytes are. -/
theorem Memory.readLE_congr {m m' : Memory} {a n : Nat} (h : ∀ b, a ≤ b → b < a + n → m'.read b = m.read b) :
    m'.readLE a n = m.readLE a n := by
  induction n generalizing a with
  | zero => rfl
  | succ k ih =>
    rw [Memory.readLE, Memory.readLE, h a le_rfl (by omega), ih fun b hlo hhi => h b (by omega) (by omega)]

/-- Settles O19: an access that is performed on bytes is performed on another byte array than `KEY`, and that has no byte in
common with any `KEY`. -/
theorem hostNeverReadsKeys : Obligations.HostNeverReadsKeys := by
  intro s m addr n hkeys
  rcases s.target_cases addr n with hnone | ⟨r, htarget, -⟩ | ⟨r, k, htarget, -, hn, -, haddr, hle⟩
  · rw [s.memRead_of_none addr n hnone]
    exact State.memRead_of_none { s with mem := m } addr n hnone
  · rw [s.memRead_of_word addr n _ r htarget]
    exact State.memRead_of_word { s with mem := m } addr n _ r htarget
  · rw [s.memRead_of_bytes addr n _ r htarget, State.memRead_of_bytes { s with mem := m } addr n _ r htarget]
    cases hr : r.readable with
    | false => simp
    | true =>
      refine congrArg (ite _ _) (Memory.readLE_congr fun b hlo hhi => hkeys b ?_)
      rintro c ⟨hlo', hhi'⟩
      obtain ⟨-, rfl, -⟩ := arrays_disjoint s (addr / Config.channelStride) c r .key
        (b - arrayBase (addr / Config.channelStride) r) (b - arrayBase c .key) (by omega)
        (show _ < Config.keyMax by omega) (by omega)
      cases hr

/-! ### Control words (R67, R68) -/

theorem State.memRead_wordAddr_of_idle {s : State} {c : Nat} (hc : c < s.nch) (hidle : (s.channel c).busy = false)
    (r : WordReg) : s.memRead (wordAddr c r) 4 = s.wordValue c r := by
  rw [s.memRead_of_word _ 4 c r (s.target_word c r hc), hidle]
  rfl

theorem State.memWrite_wordAddr_of_idle {s : State} {c : Nat} (hc : c < s.nch) (hidle : (s.channel c).busy = false)
    (r : WordReg) (v : Word) : s.memWrite (wordAddr c r) 4 v = s.writeWord c r v := by
  rw [s.memWrite_of_word _ 4 c r v (s.target_word c r hc), hidle]
  rfl

/-- Settles O20: on an idle channel the accesses are performed, and a length beyond its capacity is dropped. -/
theorem lengthRegistersReadAndWrite : Obligations.LengthRegistersReadAndWrite := by
  intro s c v hc hidle
  have hread := State.memRead_wordAddr_of_idle hc hidle
  have hwrite := fun r => State.memWrite_wordAddr_of_idle hc hidle r v
  refine ⟨⟨hread .keyLen, hread .dinLen, hread .doutLen, hread .xtagLen⟩, ?_, ?_, ?_⟩
  · exact ⟨fun h => (hwrite .keyLen).trans (if_pos h), fun h => (hwrite .keyLen).trans (if_neg (Nat.not_le.mpr h))⟩
  · exact ⟨fun h => (hwrite .dinLen).trans (if_pos h), fun h => (hwrite .dinLen).trans (if_neg (Nat.not_le.mpr h))⟩
  · exact ⟨fun h => (hwrite .xtagLen).trans (if_pos h), fun h => (hwrite .xtagLen).trans (if_neg (Nat.not_le.mpr h))⟩

/-- The fields of a status word, whatever the flags and the code are (R24). -/
theorem statusWord_fields (fatal : Bool) (ch : Channel) :
    (statusWord fatal ch).getLsbD 0 = ch.busy ∧ (statusWord fatal ch).getLsbD 1 = ch.done ∧
    (statusWord fatal ch).getLsbD 2 = ch.vok ∧ (statusWord fatal ch).getLsbD 3 = fatal ∧
    (statusWord fatal ch).extractLsb' 4 4 = 0#4 ∧ (statusWord fatal ch).extractLsb' 8 4 = ch.err.code ∧
    (statusWord fatal ch).extractLsb' 12 20 = 0#20 := by
  have hall : ∀ (code : BitVec 4) (fatal vok done busy : Bool) (w : Word),
      w = 0#20 ++ code ++ 0#4 ++ BitVec.ofBool fatal ++ BitVec.ofBool vok ++ BitVec.ofBool done ++ BitVec.ofBool busy →
      w.getLsbD 0 = busy ∧ w.getLsbD 1 = done ∧ w.getLsbD 2 = vok ∧ w.getLsbD 3 = fatal ∧
        w.extractLsb' 4 4 = 0#4 ∧ w.extractLsb' 8 4 = code ∧ w.extractLsb' 12 20 = 0#20 := by
    rintro code fatal vok done busy w rfl
    revert code fatal vok done busy
    decide
  exact hall ch.err.code fatal ch.vok ch.done ch.busy _ rfl

/-- Settles O21: a read of `STATUS` gives the status word, busy or not. -/
theorem statusReadHasFields : Obligations.StatusReadHasFields := by
  refine ⟨fun s c hc => ?_, rfl, rfl, rfl, rfl, rfl, rfl⟩
  rw [s.memRead_status c hc]
  exact statusWord_fields s.fatal (s.channel c)

end Sys2Proof.Machine

/-! PROOFS of the statements about single steps (spec 10_state.md R20, R21, 30_encoding.md R95 to R98): what runs when an agent is
scheduled, and what its step leaves alone. -/

namespace Sys2Proof.Machine

/-! ### What a step runs -/

theorem step_of_engineTurn (s : State) (c : Nat) (a : Answer) (rest : List Event)
    (h : s.agenda = .engineTurn c a :: rest) : step s = (s.popped rest).engineTurn c a := by
  rw [step_eq, h]

/-- The step of a busy channel's engine is that of its word's rule, on the state in which it has the turn. -/
theorem step_of_busy {s : State} {c : Nat} {a : Answer} {rest : List Event} (hagenda : s.agenda = .engineTurn c a :: rest)
    (hc : c < s.nch) (hbusy : (s.channel c).busy = true) :
    step s = .next ((s.turn c a rest).runRule c (wordRule (s.channel c).cmdReg)) := by
  rw [step_of_engineTurn s c a rest hagenda, State.engineTurn_of_busy (s.popped rest) c a hc hbusy]
  rfl

theorem step_of_decode {s : State} {c : Nat} {a : Answer} {rest : List Event} {i : Instr}
    (hagenda : s.agenda = .engineTurn c a :: rest) (hc : c < s.nch) (hbusy : (s.channel c).busy = true)
    (hdecode : decode (s.channel c).cmdReg = .ok i) : step s = exec i (s.turn c a rest) := by
  rw [step_of_busy hagenda hc hbusy, wordRule_of_ok hdecode]
  exact (exec_eq_next i (s.turn c a rest) hc).symm

/-- Settles O5: a busy channel's turn is its command's, and any other turn is only taken off the agenda. -/
theorem stepRunsDecodedCommand : Obligations.StepRunsDecodedCommand := by
  intro s c a rest hagenda
  refine ⟨fun i hc hbusy hdecode => step_of_decode hagenda hc hbusy hdecode, fun hidle => ?_⟩
  rw [step_of_engineTurn s c a rest hagenda, State.engineTurn_of_not_busy]
  rintro ⟨hc, hbusy⟩
  rcases hidle with habsent | hidle
  · exact absurd hc (Nat.not_lt.mpr habsent)
  · exact absurd (hidle.symm.trans hbusy) nofun

/-- Settles O6: an engine's turn runs a rule or nothing, and every other event is answered at once. -/
theorem everyStepAnswersNext : Obligations.EveryStepAnswersNext := by
  intro s
  rw [step_eq]
  split
  · exact ⟨_, rfl⟩
  · exact ⟨_, rfl⟩
  · exact ⟨_, rfl⟩
  · next c a rest _ =>
    by_cases hready : c < s.nch ∧ (s.channel c).busy = true
    · exact ⟨_, State.engineTurn_of_busy (s.popped rest) c a hready.1 hready.2⟩
    · exact ⟨_, State.engineTurn_of_not_busy (s.popped rest) c a hready⟩
  · exact ⟨_, rfl⟩

/-- Settles O9: after the reset input every channel is `Channel.reset` and nothing is stored. -/
theorem resetClearsEverything : Obligations.ResetClearsEverything := by
  intro s source rest hagenda
  have hstep : step s = .next ((s.popped rest).applyReset source) := by rw [step_eq, hagenda]
  have hnch : ((s.popped rest).applyReset source).nch = s.nch := State.nch_applyReset _ _
  refine ⟨_, hstep, hnch, rfl, fun c hc => ?_, fun _ => rfl, rfl, rfl, rfl, rfl, rfl, rfl⟩
  rw [State.memRead_status _ c (hnch.symm ▸ hc), State.channel_applyReset]
  exact ⟨rfl, rfl, rfl, rfl, rfl, statusWord_reset⟩

/-- Settles O33: the rule of such a word raises code 5 at once, and raising it only ends the step. -/
theorem illegalWordCompletes : Obligations.IllegalWordCompletes := by
  intro s c a rest e hagenda hc hbusy hdecode
  have hstep := step_of_busy hagenda hc hbusy
  rw [wordRule_of_error hdecode, State.runRule_illegal] at hstep
  refine ⟨_, hstep, fun hfatal => ?_, fun hfatal => ?_⟩
  · rw [show (s.turn c a rest).fatal = false from hfatal]
    exact State.endedOnly_complete (s := s.turn c a rest) hc _
  · rw [show (s.turn c a rest).fatal = true from hfatal]
    exact State.endedOnly_complete (s := s.turn c a rest) hc _

/-! ### What a step leaves of other channels (R21) -/

/-- Between `s` and `t` no register of a channel other than `c` changed. -/
def OthersKept (s t : State) (c : Nat) : Prop :=
  ∀ d, d ≠ c → t.channel d = s.channel d ∧
    ∀ off, off < Config.channelStride → t.mem.read (d * Config.channelStride + off) = s.mem.read (d * Config.channelStride + off)

theorem OthersKept.refl (s : State) (c : Nat) : OthersKept s s c := fun _ _ => ⟨rfl, fun _ _ => rfl⟩

/-- The byte arrays of a channel lie in its own window (R60, R61). -/
theorem outside_array_of_other {s : State} {c d off k : Nat} (r : ArrayReg) (hdc : d ≠ c)
    (hoff : off < Config.channelStride) (hk : k ≤ r.size s.bufMax) :
    d * Config.channelStride + off < arrayBase c r ∨ arrayBase c r + k ≤ d * Config.channelStride + off := by
  have hsize := r.size_le s.bufMax s.bufMax_range.2.2
  rw [channelStride_eq] at hoff
  rw [arrayBase, channelStride_eq]
  omega

theorem WritesOnlyResults.othersKept {s t : State} {c : Nat} (h : WritesOnlyResults s t c)
    (hdin : (s.channel c).dinLen.toNat ≤ s.bufMax) : OthersKept s t c := fun d hdc =>
  ⟨h.frame.others d hdc, fun _ hoff => h.bytes hdin _ fun r _ => outside_array_of_other r hdc hoff le_rfl⟩

theorem State.engineTurn_othersKept {s t : State} {c : Nat} {a : Answer} (hinv : s.Inv)
    (h : s.engineTurn c a = .next t) : OthersKept s t c := by
  by_cases hready : c < s.nch ∧ (s.channel c).busy = true
  · rw [State.engineTurn_of_busy s c a hready.1 hready.2] at h
    cases h
    exact (State.runRule_writesOnlyResults (s.takeTurn c a) c _ (wordRule_keepsOperands _ c _)).othersKept
      (hinv.channel_inv_of_lt hready.1).dinLen_le
  · rw [State.engineTurn_of_not_busy s c a hready] at h
    cases h
    exact OthersKept.refl s c

theorem othersKept_updateChannel (s : State) (c : Nat) (f : Channel → Channel) : OthersKept s (s.updateChannel c f) c :=
  fun d hdc => ⟨State.channel_updateChannel_ne s c d f hdc, fun _ _ => rfl⟩

theorem State.memWrite_othersKept (s : State) (addr n : Nat) (v : Word) :
    OthersKept s (s.memWrite addr n v) (addr / Config.channelStride) := by
  rcases s.memWrite_cases addr n v with e | ⟨c, r, rfl, -, -, e⟩ | ⟨c, r, k, rfl, -, -, -, haddr, hle, e⟩ <;> rw [e]
  · exact OthersKept.refl s _
  · rcases s.writeWord_cases (addr / Config.channelStride) r v with
      e | ⟨-, -, e⟩ | ⟨-, -, e⟩ | ⟨-, -, e⟩ | ⟨-, -, e⟩ | ⟨-, -, e⟩ <;> rw [e]
    · exact OthersKept.refl s _
    all_goals exact othersKept_updateChannel s _ _
  · refine fun d hdc => ⟨rfl, fun off hoff => Memory.read_writeLE_outside _ _ _ _ _ ?_⟩
    have hout := outside_array_of_other (s := s) (k := k + n) r hdc hoff hle
    omega

/-- Settles O38: an access reaches the window of the channel it addresses, and an engine its own channel's. -/
theorem channelsAreIsolated : Obligations.ChannelsAreIsolated := by
  intro s t c d e rest hinv hagenda hchannel hstep hdc
  suffices hkept : OthersKept s t c from hkept d hdc
  rw [step_eq, hagenda] at hstep
  cases e with
  | memRead addr n =>
    cases hstep
    exact OthersKept.refl s c
  | memWrite addr n v =>
    cases hstep
    cases hchannel
    exact (s.popped rest).memWrite_othersKept addr n v
  | engineTurn b a =>
    cases hchannel
    exact State.engineTurn_othersKept (s := s.popped rest) (hinv.withAgents s.active s.answer rest s.replies) hstep
  | reset source => cases hchannel

/-- Settles O12: a host access of a busy channel is refused or only read, and every other step concerns another channel. -/
theorem busyChannelIsUntouched : Obligations.BusyChannelIsUntouched := by
  intro s t c e rest hinv hc hbusy hagenda hturn hreset hstep
  have hother : ∀ b, e.onChannel = some b → c ≠ b → _ := fun b hb =>
    channelsAreIsolated s t b c e rest hinv hagenda hb hstep
  cases e with
  | memRead addr n =>
    rw [step_of_memRead s addr n rest hagenda] at hstep
    cases hstep
    exact ⟨rfl, fun _ _ => rfl⟩
  | memWrite addr n v =>
    by_cases haddr : c = addr / Config.channelStride
    · subst haddr
      rw [step_of_memWrite s addr n v rest hagenda, State.memWrite_of_busy (s.popped rest) addr n v hbusy] at hstep
      cases hstep
      exact ⟨rfl, fun _ _ => rfl⟩
    · exact hother _ rfl haddr
  | engineTurn b a => exact hother b rfl fun hcb => hturn a (by rw [hcb])
  | reset source => exact absurd rfl (hreset source)

end Sys2Proof.Machine

/-! PROOFS of the statements about SHA-256's padding, HMAC's keys and the comparison of tags (spec 41_mac.md R131 to R145), about
padding and chaining (43_cbc.md R190 to R193), the counter mode (44_gcm.md R214) and the S-box tables (42_aes_core.md R162,
R163). -/

namespace Sys2Proof.Machine

/-! ### SHA-256's padding (R131, R141) -/

theorem shaZeros_fills (len : Nat) : (len + 1 + shaZeros len) % 64 = 56 := by
  unfold shaZeros
  omega

theorem length_shaPad (m : List Byte) : (shaPad m).length = 64 * ((m.length + 9 + 63) / 64) := by
  have hfills := shaZeros_fills m.length
  have hlt : shaZeros m.length < 64 := Nat.mod_lt _ (by omega)
  simp only [shaPad, List.length_append, List.length_singleton, length_zeros, length_beBytes]
  omega

/-- Settles O41: the model's number of zeros is below 64, so that no smaller one leaves the same remainder. -/
theorem shaPaddingFillsBlocks : Obligations.ShaPaddingFillsBlocks := by
  intro m
  have hfills := shaZeros_fills m.length
  have hlt : shaZeros m.length < 64 := Nat.mod_lt _ (by omega)
  exact ⟨shaZeros m.length, rfl, hfills, fun y hy => by omega, length_shaPad m⟩

/-! ### HMAC's keys (R140, R141) -/

theorem zeros_append_zeros (a b : Nat) : zeros a ++ zeros b = zeros (a + b) := List.replicate_append_replicate

/-- HMAC sees a key only through its key block (R140). -/
theorem hmacSha256_congr {key key' : List Byte} (data : List Byte) (h : hmacKeyBlock key' = hmacKeyBlock key) :
    hmacSha256 key' data = hmacSha256 key data := by
  rw [hmacSha256, hmacSha256, h]

theorem hmacKeyBlock_of_le {key : List Byte} (h : key.length ≤ 64) :
    hmacKeyBlock key = key ++ zeros (64 - key.length) := by
  rw [hmacKeyBlock, if_neg (Nat.not_lt.mpr h)]

theorem hmacKeyBlock_append_zeros {key : List Byte} {k : Nat} (h : key.length + k ≤ 64) :
    hmacKeyBlock (key ++ zeros k) = hmacKeyBlock key := by
  have hlen : (key ++ zeros k).length = key.length + k := by simp
  rw [hmacKeyBlock_of_le (by omega), hmacKeyBlock_of_le (by omega), hlen, List.append_assoc, zeros_append_zeros]
  congr 2
  omega

theorem hmacKeyBlock_sha256 {key : List Byte} (h : 64 < key.length) : hmacKeyBlock key = hmacKeyBlock (sha256 key) := by
  rw [hmacKeyBlock_of_le (key := sha256 key) (by simp), hmacKeyBlock, if_pos h]

/-- Settles O42: the two keys have one key block. -/
theorem hmacKeyNormalisation : Obligations.HmacKeyNormalisation :=
  ⟨fun _ data _ h => hmacSha256_congr data (hmacKeyBlock_append_zeros h),
    fun _ data h => hmacSha256_congr data (hmacKeyBlock_sha256 h)⟩

/-! ### The comparison of tags (R145) -/

/-- The sum of differences that the loop collects is 0 only if each of them is. -/
theorem foldl_or_eq_zero_iff (f : Nat → Byte) (l : List Nat) (acc : Byte) :
    l.foldl (fun acc i => acc ||| f i) acc = 0#8 ↔ acc = 0#8 ∧ ∀ i ∈ l, f i = 0#8 := by
  induction l generalizing acc with
  | nil => simp
  | cons x rest ih => rw [List.foldl_cons, ih, BitVec.or_eq_zero_iff, List.forall_mem_cons, and_assoc]

theorem ctEqual_iff (computed expected : List Byte) (n : Nat) :
    ctEqual computed expected n = true ↔
      expected.length = n ∧ ∀ i, i < n → computed.getD i 0#8 = expected.getD i 0#8 := by
  have hlength : (if expected.length = n then 0#8 else 1#8) = 0#8 ↔ expected.length = n := by
    split <;> simp_all
  rw [ctEqual, beq_iff_eq, BitVec.or_eq_zero_iff, hlength, foldl_or_eq_zero_iff, and_comm]
  simp only [true_and, List.mem_range, BitVec.xor_eq_zero_iff]

/-- Settles O43: both the collected differences and the length test are 0. -/
theorem ctEqualDecidesEquality : Obligations.CtEqualDecidesEquality := fun computed expected n _ =>
  ctEqual_iff computed expected n

/-- Of tags of the same length, the comparison accepts exactly the computed one. -/
theorem ctEqual_eq_true_iff_eq {computed expected : List Byte} {n : Nat} (h : computed.length = n) :
    ctEqual computed expected n = true ↔ expected = computed := by
  rw [ctEqual_iff]
  constructor
  · rintro ⟨hlen, hbytes⟩
    refine List.ext_getElem (hlen.trans h.symm) fun i hi hi' => ?_
    have hbyte := hbytes i (h ▸ hi')
    rw [List.getD_eq_getElem _ _ hi, List.getD_eq_getElem _ _ hi'] at hbyte
    exact hbyte.symm
  · rintro rfl
    exact ⟨h, fun _ _ => rfl⟩

/-! ### Padding and chaining (R190 to R193) -/

/-- What the removal of padding accepts, it accepts as some bytes of their own number at the end. -/
theorem eq_append_replicate_of_cbcUnpad {m p : List Byte} (h : cbcUnpad m = some p) (hshort : 16 ≤ m.length) :
    ∃ n, 1 ≤ n ∧ n ≤ 16 ∧ m = p ++ List.replicate n (BitVec.ofNat 8 n) := by
  simp only [cbcUnpad] at h
  generalize m.getD (m.length - 1) 0#8 = last at h
  split at h
  · cases h
  · next hrange =>
    split at h
    · next hall =>
      injection h with h
      refine ⟨last.toNat, by omega, by omega, ?_⟩
      have htail : m.drop (m.length - last.toNat) = List.replicate last.toNat last := by
        refine List.eq_replicate_iff.mpr ⟨by rw [List.length_drop]; omega, fun b hb => ?_⟩
        simpa using List.all_eq_true.mp hall b hb
      rw [BitVec.ofNat_toNat, BitVec.setWidth_eq, ← htail, ← h, List.take_append_drop]
    · cases h

/-- Settles O49: the last byte says how many bytes come off, and they are checked. -/
theorem unpadUndoesPad : Obligations.UnpadUndoesPad := by
  refine ⟨cbcUnpad_cbcPad, fun m p hpos hwhole => ⟨fun h => eq_append_replicate_of_cbcUnpad h (by omega), ?_⟩⟩
  rintro ⟨n, hlo, hhi, rfl⟩
  exact cbcUnpad_append_rep p hlo hhi

/-- Settles O50: the chaining loop is undone block by block. -/
theorem cbcDecryptUndoesEncrypt : Obligations.CbcDecryptUndoesEncrypt := fun _ _ _ hkey hiv hm =>
  ⟨length_cbcEncryptRaw hkey hiv hm, cbcDecryptRaw_cbcEncryptRaw hkey hiv hm⟩

/-- Settles O55: the second pass adds the same key stream. -/
theorem gctrIsInvolution : Obligations.GctrIsInvolution := fun _ icb x hkey _ =>
  ⟨length_gctr hkey icb x, gctr_gctr hkey icb x⟩

/-! ### The S-box (R162, R163) -/

/-- The square in GF(2^8). -/
def gfSquare (a : Byte) : Byte := gfMul a a

/-- The inverse in GF(2^8), as the power 254 that makes 0 of 0: `2 + 4 + 8 + ... + 128` is 254. -/
def gfInverse (a : Byte) : Byte :=
  let a2 := gfSquare a
  let a4 := gfSquare a2
  let a8 := gfSquare a4
  let a16 := gfSquare a8
  let a32 := gfSquare a16
  let a64 := gfSquare a32
  let a128 := gfSquare a64
  gfMul a2 (gfMul a4 (gfMul a8 (gfMul a16 (gfMul a32 (gfMul a64 a128)))))

theorem gfInverse_zero : gfInverse 0#8 = 0#8 := by decide +kernel

theorem gfMul_gfInverse : ∀ a : Byte, a ≠ 0#8 → gfMul a (gfInverse a) = 1#8 := by decide +kernel

theorem sbox_eq_affine_gfInverse : ∀ a : Byte,
    sbox a = gfInverse a ^^^ (gfInverse a).rotateLeft 1 ^^^ (gfInverse a).rotateLeft 2 ^^^ (gfInverse a).rotateLeft 3 ^^^
      (gfInverse a).rotateLeft 4 ^^^ 0x63#8 := by decide +kernel

/-- Settles O47: the byte's inverse is its power 254, and both facts are checked on each of the 256 bytes. -/
theorem sboxTablesAgreeWithDefinition : Obligations.SboxTablesAgreeWithDefinition := by
  refine fun a => ⟨invSbox_sbox a, sbox_invSbox a, gfInverse a, ?_, gfMul_gfInverse a, sbox_eq_affine_gfInverse a⟩
  rintro rfl
  exact gfInverse_zero

end Sys2Proof.Machine

/-! PROOFS of the statement about the multiplication of GCM (spec 44_gcm.md R211). The product with a fixed `x` is a sum of powers
of one additive map, the multiplication by the field's generator; so all these products commute, and `2^127` is the neutral
element because the product with it reads off the bits of the other factor. -/

namespace Sys2Proof.Machine

/-- What one iteration of R211 makes of `V`: its product with the generator of the field. -/
def gcmMulX (v : BitVec 128) : BitVec 128 := if v.getLsbD 0 then (v >>> 1) ^^^ gcmR else v >>> 1

theorem gf128MulFrom_succ (x : BitVec 128) (k : Nat) (z v : BitVec 128) :
    gf128MulFrom x (k + 1) z v = gf128MulFrom x k (if x.getLsbD k then z ^^^ v else z) (gcmMulX v) := rfl

/-- With `BitVec.xor_assoc` and `BitVec.xor_comm`, sorts a sum of field elements. -/
theorem xor_left_comm_block (a b c : BitVec 128) : a ^^^ (b ^^^ c) = b ^^^ (a ^^^ c) := by
  rw [← BitVec.xor_assoc, BitVec.xor_comm a b, BitVec.xor_assoc]

theorem gcmMulX_xor (v w : BitVec 128) : gcmMulX (v ^^^ w) = gcmMulX v ^^^ gcmMulX w := by
  simp only [gcmMulX, BitVec.getLsbD_xor, BitVec.ushiftRight_xor_distrib]
  cases v.getLsbD 0 <;> cases w.getLsbD 0 <;> simp [BitVec.xor_assoc, BitVec.xor_comm, xor_left_comm_block]

/-! ### The product is additive in both factors -/

theorem gf128MulFrom_xor_left (x y : BitVec 128) (k : Nat) (z z' v : BitVec 128) :
    gf128MulFrom (x ^^^ y) k (z ^^^ z') v = gf128MulFrom x k z v ^^^ gf128MulFrom y k z' v := by
  induction k generalizing z z' v with
  | zero => rfl
  | succ j ih =>
    have hsum : (if (x ^^^ y).getLsbD j then z ^^^ z' ^^^ v else z ^^^ z') =
        (if x.getLsbD j then z ^^^ v else z) ^^^ (if y.getLsbD j then z' ^^^ v else z') := by
      rw [BitVec.getLsbD_xor]
      cases x.getLsbD j <;> cases y.getLsbD j <;> simp [BitVec.xor_assoc, BitVec.xor_comm, xor_left_comm_block]
    rw [gf128MulFrom_succ, gf128MulFrom_succ, gf128MulFrom_succ, hsum, ih]

theorem gf128MulFrom_xor_right (x : BitVec 128) (k : Nat) (z z' v w : BitVec 128) :
    gf128MulFrom x k (z ^^^ z') (v ^^^ w) = gf128MulFrom x k z v ^^^ gf128MulFrom x k z' w := by
  induction k generalizing z z' v w with
  | zero => rfl
  | succ j ih =>
    have hsum : (if x.getLsbD j then z ^^^ z' ^^^ (v ^^^ w) else z ^^^ z') =
        (if x.getLsbD j then z ^^^ v else z) ^^^ (if x.getLsbD j then z' ^^^ w else z') := by
      cases x.getLsbD j <;> simp [BitVec.xor_assoc, xor_left_comm_block]
    rw [gf128MulFrom_succ, gf128MulFrom_succ, gf128MulFrom_succ, gcmMulX_xor, hsum, ih]

theorem gf128Mul_xor_left (x y z : BitVec 128) : gf128Mul (x ^^^ y) z = gf128Mul x z ^^^ gf128Mul y z :=
  gf128MulFrom_xor_left x y 128 0#128 0#128 z

theorem gf128Mul_xor_right (x y z : BitVec 128) : gf128Mul x (y ^^^ z) = gf128Mul x y ^^^ gf128Mul x z :=
  gf128MulFrom_xor_right x 128 0#128 0#128 y z

/-! ### Products commute -/

/-- An additive map that commutes with the multiplication by the generator commutes with the product loop. -/
theorem map_gf128MulFrom (f : BitVec 128 → BitVec 128) (hadd : ∀ v w, f (v ^^^ w) = f v ^^^ f w)
    (hgen : ∀ v, f (gcmMulX v) = gcmMulX (f v)) (x : BitVec 128) (k : Nat) (z v : BitVec 128) :
    f (gf128MulFrom x k z v) = gf128MulFrom x k (f z) (f v) := by
  induction k generalizing z v with
  | zero => rfl
  | succ j ih => rw [gf128MulFrom_succ, gf128MulFrom_succ, ih, hgen, apply_ite f, hadd]

theorem map_gf128Mul (f : BitVec 128 → BitVec 128) (hadd : ∀ v w, f (v ^^^ w) = f v ^^^ f w)
    (hgen : ∀ v, f (gcmMulX v) = gcmMulX (f v)) (x y : BitVec 128) : f (gf128Mul x y) = gf128Mul x (f y) := by
  have hzero : f 0#128 = 0#128 := by simpa using hadd 0#128 0#128
  rw [gf128Mul, map_gf128MulFrom f hadd hgen, hzero, gf128Mul]

theorem gf128Mul_gcmMulX (x y : BitVec 128) : gf128Mul x (gcmMulX y) = gcmMulX (gf128Mul x y) :=
  (map_gf128Mul gcmMulX gcmMulX_xor (fun _ => rfl) x y).symm

theorem gf128Mul_left_comm (x y z : BitVec 128) : gf128Mul x (gf128Mul y z) = gf128Mul y (gf128Mul x z) :=
  map_gf128Mul (gf128Mul x) (gf128Mul_xor_right x) (gf128Mul_gcmMulX x) y z

/-! ### The neutral element -/

theorem gcmMulX_twoPow {k : Nat} (hk : k + 1 < 128) : gcmMulX (BitVec.twoPow 128 (k + 1)) = BitVec.twoPow 128 k := by
  have hbit : (BitVec.twoPow 128 (k + 1)).getLsbD 0 = false := by simp
  rw [gcmMulX, hbit, if_neg Bool.false_ne_true]
  apply BitVec.eq_of_getLsbD_eq
  intro i _
  have hlt : k < 128 := by omega
  simp [hk, hlt, Nat.add_comm 1 i]

/-- One summand: the power `2^k` where the factor has that bit. -/
theorem getLsbD_add_twoPow (bit : Bool) (z : BitVec 128) {k : Nat} (hk : k < 128) (i : Nat) :
    (if bit then z ^^^ BitVec.twoPow 128 k else z).getLsbD i = (z.getLsbD i ^^ (decide (k = i) && bit)) := by
  cases bit <;> simp [hk]

/-- From `2^k` on, the product loop adds the factor's bits up to `k`. -/
theorem getLsbD_gf128MulFrom_twoPow (x : BitVec 128) {k : Nat} (hk : k < 128) (z : BitVec 128) (i : Nat) :
    (gf128MulFrom x (k + 1) z (BitVec.twoPow 128 k)).getLsbD i = (z.getLsbD i ^^ (decide (i ≤ k) && x.getLsbD i)) := by
  induction k generalizing z with
  | zero =>
    rw [gf128MulFrom_succ, gf128MulFrom, getLsbD_add_twoPow _ _ hk]
    by_cases h : i = 0
    · simp [h]
    · simp [h, Ne.symm h]
  | succ j ih =>
    rw [gf128MulFrom_succ, gcmMulX_twoPow hk, ih (by omega), getLsbD_add_twoPow _ _ hk]
    by_cases h : i = j + 1
    · simp [h]
    · simp [Ne.symm h, Nat.le_succ_iff, h]

theorem gf128Mul_one (x : BitVec 128) : gf128Mul x (1#128 <<< 127) = x := by
  apply BitVec.eq_of_getLsbD_eq
  intro i hi
  refine (getLsbD_gf128MulFrom_twoPow x (by omega) _ i).trans ?_
  simp [show i ≤ 127 by omega]

theorem gf128Mul_comm (x y : BitVec 128) : gf128Mul x y = gf128Mul y x :=
  calc gf128Mul x y = gf128Mul x (gf128Mul y (1#128 <<< 127)) := by rw [gf128Mul_one]
    _ = gf128Mul y (gf128Mul x (1#128 <<< 127)) := gf128Mul_left_comm x y _
    _ = gf128Mul y x := by rw [gf128Mul_one]

/-- Settles O54: products are sums of powers of one additive map, and `2^127` is neutral on the right, hence on the left. -/
theorem gf128MulIsBilinear : Obligations.Gf128MulIsBilinear := fun x y z =>
  ⟨gf128Mul_xor_left x y z, gf128Mul_xor_right x y z, gf128Mul_comm x y, (gf128Mul_comm _ _).trans (gf128Mul_one y)⟩

end Sys2Proof.Machine

/-! PROOFS of the statements about what each command does (spec 40_random_keymaterial.md R111 to R119, 41_mac.md R150 to R152,
43_cbc.md R200, R201, 44_gcm.md R222 to R225, 60_exceptions.md R240 to R252): each is the end of its pseudocode, and the ends are
few. -/

namespace Sys2Proof.Machine

/-! ### Ends that write an output (R29, R96, R245) -/

/-- Between `s` and `t` the engine step of channel `c` ended with code `e` and the output `out`; nothing is said of the hidden
state. -/
structure WroteOutput (s t : State) (c : Nat) (e : ErrCode) (out : List Byte) : Prop where
  frame : EngineFrame s t c
  control : t.channel c = (s.channel c).endedWith e out.length
  output : OutputIs s t c out
  bytes : BytesKept s t (arrayBase c .dout) s.bufMax

theorem State.wroteOutput_complete {s : State} {c : Nat} (hc : c < s.nch) (e : ErrCode) {out : List Byte}
    (hlen : out.length ≤ s.bufMax) : WroteOutput s ((s.setOutput c out).complete c e) c e out where
  frame := (writesOnlyResults_setOutput s c out fun _ => hlen).frame.trans (engineFrame_updateChannel _ c _)
  control := State.channel_setOutput_complete hc out e
  output := by
    have hmax := s.bufMax_range
    constructor
    · rw [State.output_complete (by simpa using hc), State.output_setOutput s c out hc (by omega)]
    · intro k hlo hk
      rw [State.complete_mem, State.read_setOutput s c out hlen, if_pos (by omega), Nat.add_sub_cancel_left,
        List.getD_eq_default _ _ hlo]
  bytes a ha := by rw [State.complete_mem, State.read_setOutput s c out hlen, if_neg (by omega)]

/-- The hidden state may have changed before. -/
theorem WroteOutput.of_hidden {s t : State} {c p : Nat} {init fatal : Bool} {e : ErrCode} {out : List Byte}
    (h : WroteOutput { s with rsPos := p, rngInit := init, fatal := fatal } t c e out) : WroteOutput s t c e out where
  frame := (writesOnlyResults_hidden s c p init fatal).frame.trans h.frame
  control := h.control
  output := ⟨h.output.output, h.output.tail⟩
  bytes := h.bytes

theorem State.fatal_raise {s : State} {c : Nat} {e : ErrCode} (h : e ≠ .entropyUnavailable) :
    (s.raise c e).fatal = s.fatal := by
  cases e with
  | entropyUnavailable => exact absurd rfl h
  | none | illegalCommand | invalidKeyLength | paddingError | authenticationFailure => rfl

/-- An error of a decrypt clears the output (R246, R247). -/
theorem State.wroteOutput_raise {s : State} {c : Nat} (hc : c < s.nch) {e : ErrCode} (herror : e ≠ .none)
    (hillegal : e ≠ .illegalCommand) (hdraw : e ≠ .entropyUnavailable) : WroteOutput s (s.raise c e) c e [] := by
  rw [State.raise_eq, if_neg (by simp [herror, hillegal]), if_neg hdraw]
  exact State.wroteOutput_complete hc e (Nat.zero_le _)

/-! ### The outcomes of an engine step on a ready channel (R96) -/

section
variable {s : State} {c : Nat} {i : Instr} (hready : s.Ready c)
include hready

theorem exec_eq_next_of_raised {s' : State} {e : ErrCode} (hrule : ruleOf i c s = .raised e s') :
    exec i s = .next (s'.raise c e) := by
  obtain ⟨rfl, hc, hfatal⟩ := hready
  rw [exec_eq_next i s hc, State.runRule_eq _ _ _ hfatal, hrule]

theorem exec_eq_next_of_held (hrule : ruleOf i c s = .held) : exec i s = .next s := by
  obtain ⟨rfl, hc, hfatal⟩ := hready
  rw [exec_eq_next i s hc, State.runRule_eq _ _ _ hfatal, hrule]

theorem exec_decrypted {p : List Byte} (hrule : ruleOf i c s = .ended (s.setOutput c p)) (hlen : p.length ≤ s.bufMax) :
    ∃ t, exec i s = .next t ∧ Decrypted s t c p := by
  have ⟨_, hc, _⟩ := hready
  obtain ⟨hframe, hcontrol, houtput, hbytes⟩ := State.wroteOutput_complete hc .none hlen
  exact ⟨_, exec_eq_next_of_ended hready hrule, hframe, ⟨rfl, rfl, rfl⟩, hcontrol, houtput, hbytes⟩

theorem exec_decryptFailed {e : ErrCode} (hrule : ruleOf i c s = .raised e s) (herror : e ≠ .none)
    (hillegal : e ≠ .illegalCommand) (hdraw : e ≠ .entropyUnavailable) :
    ∃ t, exec i s = .next t ∧ DecryptFailed s t c e := by
  have ⟨_, hc, _⟩ := hready
  obtain ⟨hframe, hcontrol, houtput, hbytes⟩ := State.wroteOutput_raise hc herror hillegal hdraw
  exact ⟨_, exec_eq_next_of_raised hready hrule, hframe,
    ⟨State.raise_rsPos s c e, State.raise_rngInit s c e, State.fatal_raise hdraw⟩, hcontrol, houtput, hbytes⟩

end

/-! ### Draws (R111, R112) -/

theorem ruleOf_of_delivers {s : State} {c : Nat} {i : Instr} {n : Nat} (hdraws : s.DrawsBytes c i n) (hdelivers : s.Delivers n) :
    ruleOf i c s = afterDraw i c (s.nextRandom n) (s.drawn n) := by
  rw [ruleOf_of_drawsBytes hdraws, State.withDraw_of_delivers s n _ hdelivers]
  rfl

/-- Settles O27: a command whose draw is starved is held. -/
theorem starvedDrawHoldsCommand : Obligations.StarvedDrawHoldsCommand := by
  intro s c n i hready hdraws hstarves
  refine exec_eq_next_of_held hready ?_
  rw [ruleOf_of_drawsBytes hdraws, State.withDraw_of_starves s n _ hstarves]

/-- Settles O28: the draw raises code 4, which clears the output and sets the latch. -/
theorem failedDrawSetsFatalLatch : Obligations.FailedDrawSetsFatalLatch := by
  intro s c n i hready hdraws hfails
  have ⟨_, hc, _⟩ := hready
  have hrule : ruleOf i c s = .raised .entropyUnavailable { s with rngInit := true } := by
    rw [ruleOf_of_drawsBytes hdraws, State.withDraw_of_fails s n _ hfails]
  have hwrote : WroteOutput s (State.raise { s with rngInit := true } c .entropyUnavailable) c .entropyUnavailable [] :=
    WroteOutput.of_hidden (p := s.rsPos) (init := true) (fatal := true)
      (State.wroteOutput_complete (s := { s with rngInit := true, fatal := true }) hc _ (Nat.zero_le _))
  exact ⟨_, exec_eq_next_of_raised hready hrule, hwrote.frame, ⟨rfl, rfl, rfl⟩, hwrote.control, hwrote.output, hwrote.bytes⟩

/-- Settles O32: the test stands before every effect, and raising code 5 only ends the step. -/
theorem operandOutOfRangeIsIllegal : Obligations.OperandOutOfRangeIsIllegal := by
  intro s c i hready hrange
  have ⟨_, hc, _⟩ := hready
  exact ⟨_, exec_eq_next_of_raised hready (ruleOf_of_outOfRange hrange), State.endedOnly_complete hc .illegalCommand⟩

/-- Settles O31: under the latch no pseudocode runs, and the step only ends. -/
theorem fatalLatchRefusesEveryCommand : Obligations.FatalLatchRefusesEveryCommand := by
  rintro s c i rfl hc hfatal
  refine ⟨_, exec_eq_next i s hc, ?_⟩
  rw [State.runRule_of_fatal s _ _ hfatal]
  exact State.endedOnly_complete hc _

/-- Settles O35: each end of a pseudocode has a code of the command's row, and a held command leaves the state. -/
theorem commandEndsWithPossibleCode : Obligations.CommandEndsWithPossibleCode := by
  rintro s t c i ⟨rfl, hc, hfatal⟩ hexec
  obtain ⟨-, rfl⟩ := exec_next i s t hexec
  have hended : ∀ s' : State, s'.nch = s.nch → ((s'.complete s.active .none).channel s.active).busy = false ∧
      ((s'.complete s.active .none).channel s.active).done = true ∧
      ((s'.complete s.active .none).channel s.active).err ∈ possibleCodes i := by
    intro s' hnch
    rw [State.channel_complete_self (hnch ▸ hc)]
    exact ⟨rfl, rfl, none_mem_possibleCodes i⟩
  have hraised : ∀ (s' : State) (e : ErrCode), s'.nch = s.nch → e ∈ possibleCodes i → e ≠ .none →
      ((s'.raise s.active e).channel s.active).busy = false ∧ ((s'.raise s.active e).channel s.active).done = true ∧
      ((s'.raise s.active e).channel s.active).err ∈ possibleCodes i := by
    intro s' e hnch hcode herror
    rw [State.channel_raise (hnch ▸ hc) herror]
    split <;> exact ⟨rfl, rfl, hcode⟩
  have hends := ruleOf_ruleEnd i s.active s
  rw [State.runRule_eq s _ _ hfatal]
  generalize ruleOf i s.active s = result at hends
  cases hends with
  | held => exact Or.inl rfl
  | rejected e hcode herror hdraw => exact Or.inr (hraised s e rfl hcode herror)
  | failed n hdraws hfails => exact Or.inr (hraised _ _ rfl (entropyUnavailable_mem_possibleCodes hdraws) nofun)
  | wrongKey n ivn hdraws hdelivers hivn hcode => exact Or.inr (hraised _ _ rfl hcode nofun)
  | generated | encrypted | decrypted | tagged | verified => exact Or.inr (hended _ (by simp))

/-! ### The hidden state (R34, R111) -/

/-- An engine step leaves the hidden state, or draws for its command. -/
theorem State.runRule_hidden {s : State} {c : Nat} {i : Instr} {rule : Nat → State → RuleResult}
    (hrule : RuleEnd s c i (rule c s)) :
    HiddenKept s (s.runRule c rule) ∨
      ∃ n, s.DrawsBytes c i n ∧ (Drew s (s.runRule c rule) n ∨ DrawFailed s (s.runRule c rule)) := by
  cases hfatal : s.fatal with
  | true =>
    rw [State.runRule_of_fatal s c rule hfatal]
    exact Or.inl ⟨rfl, rfl, rfl⟩
  | false =>
    rw [State.runRule_eq s c rule hfatal]
    generalize rule c s = result at hrule
    cases hrule with
    | rejected e hcode herror hdraw =>
      exact Or.inl ⟨State.raise_rsPos s c e, State.raise_rngInit s c e, State.fatal_raise hdraw⟩
    | held | decrypted | tagged | verified => exact Or.inl ⟨rfl, rfl, rfl⟩
    | failed n hdraws => exact Or.inr ⟨n, hdraws, Or.inr ⟨rfl, rfl, rfl⟩⟩
    | generated n hdraws => exact Or.inr ⟨n, hdraws, Or.inl ⟨rfl, rfl, rfl⟩⟩
    | encrypted n ivn out hdraws => exact Or.inr ⟨n, hdraws, Or.inl ⟨rfl, rfl, rfl⟩⟩
    | wrongKey n ivn hdraws => exact Or.inr ⟨n, hdraws, Or.inl ⟨rfl, rfl, rfl⟩⟩

/-- Taking the turn changes nothing that the operand checks look at. -/
theorem State.drawsBytes_turn {s : State} {b c n : Nat} {a : Answer} {rest : List Event} {i : Instr} :
    (s.turn b a rest).DrawsBytes c i n ↔ s.DrawsBytes c i n := by cases i <;> exact Iff.rfl

theorem State.memWrite_hiddenKept (s : State) (addr n : Nat) (v : Word) : HiddenKept s (s.memWrite addr n v) := by
  rcases s.memWrite_cases addr n v with e | ⟨c, r, -, -, -, e⟩ | ⟨c, r, k, -, -, -, -, -, -, e⟩ <;> rw [e]
  · exact ⟨rfl, rfl, rfl⟩
  · rcases s.writeWord_cases c r v with e | ⟨-, -, e⟩ | ⟨-, -, e⟩ | ⟨-, -, e⟩ | ⟨-, -, e⟩ | ⟨-, -, e⟩ <;> rw [e]
    all_goals exact ⟨rfl, rfl, rfl⟩
  · exact ⟨rfl, rfl, rfl⟩

/-- Settles O29: no host access writes the hidden state, and an engine writes it only at its command's draw. -/
theorem hiddenStateChangesOnlyByDraw : Obligations.HiddenStateChangesOnlyByDraw := by
  intro s t hstep hreset
  rw [step_eq] at hstep
  split at hstep
  · cases hstep
    exact Or.inl ⟨rfl, rfl, rfl⟩
  · cases hstep
    exact Or.inl ⟨rfl, rfl, rfl⟩
  · next addr n v rest _ =>
    cases hstep
    obtain ⟨hpos, hinit, hfatal⟩ := State.memWrite_hiddenKept (s.popped rest) addr n v
    exact Or.inl ⟨hpos, hinit, hfatal⟩
  · next c a rest hagenda =>
    by_cases hturn : c < s.nch ∧ (s.channel c).busy = true
    · rw [State.engineTurn_of_busy (s.popped rest) c a hturn.1 hturn.2, State.takeTurn_popped, State.popped_channel] at hstep
      cases hstep
      cases hdecode : decode (s.channel c).cmdReg with
      | ok i =>
        rw [wordRule_of_ok hdecode]
        rcases State.runRule_hidden (ruleOf_ruleEnd i c (s.turn c a rest)) with ⟨hpos, hinit, hfatal⟩ | ⟨n, hdraws, hdrew⟩
        · exact Or.inl ⟨hpos, hinit, hfatal⟩
        · refine Or.inr ⟨c, a, rest, i, n, hagenda, hturn.2, hdecode, State.drawsBytes_turn.mp hdraws, ?_⟩
          exact hdrew.imp (fun ⟨hpos, hinit, hfatal⟩ => ⟨hpos, hinit, hfatal⟩)
            fun ⟨hpos, hinit, hfatal⟩ => ⟨hpos, hinit, hfatal⟩
      | error e =>
        rw [wordRule_of_error hdecode, State.runRule_illegal]
        exact Or.inl ⟨rfl, rfl, rfl⟩
    · rw [State.engineTurn_of_not_busy (s.popped rest) c a hturn] at hstep
      cases hstep
      exact Or.inl ⟨rfl, rfl, rfl⟩
  · next source rest hagenda => exact absurd hagenda (hreset source rest)

/-! ### `VOK` (R24) -/

theorem State.vok_complete {s : State} {c : Nat} (hc : c < s.nch) (e : ErrCode) :
    ((s.complete c e).channel c).vok = (s.channel c).vok := by
  rw [State.channel_complete_self hc]
  rfl

theorem State.vok_raise {s : State} {c : Nat} (hc : c < s.nch) {e : ErrCode} (herror : e ≠ .none) :
    ((s.raise c e).channel c).vok = (s.channel c).vok := by
  rw [State.channel_raise hc herror]
  split <;> rfl

theorem State.vok_setOutput {s : State} {c : Nat} (hc : c < s.nch) (out : List Byte) :
    ((s.setOutput c out).channel c).vok = (s.channel c).vok := by
  rw [State.setOutput_channel s c c out hc, if_pos rfl]

/-- No command but MAC_VERIFY writes `VOK`. -/
theorem State.vok_runRule {s : State} {c : Nat} (hc : c < s.nch) {i : Instr} (hi : i ≠ .macVerify)
    {rule : Nat → State → RuleResult} (hrule : RuleEnd s c i (rule c s)) :
    ((s.runRule c rule).channel c).vok = (s.channel c).vok := by
  cases hfatal : s.fatal with
  | true =>
    rw [State.runRule_of_fatal s c rule hfatal]
    exact State.vok_complete hc _
  | false =>
    rw [State.runRule_eq s c rule hfatal]
    generalize rule c s = result at hrule
    cases hrule with
    | rejected e hcode herror hdraw => exact State.vok_raise hc herror
    | held => rfl
    | failed => exact State.vok_raise (s := { s with rngInit := true }) hc nofun
    | wrongKey n ivn => exact State.vok_raise (s := (s.drawn n).writeArray c .ivn ivn) hc nofun
    | generated n => exact (State.vok_complete (by simpa using hc) _).trans (State.vok_setOutput (s := s.drawn n) hc _)
    | encrypted n ivn =>
      exact (State.vok_complete (by simpa using hc) _).trans
        (State.vok_setOutput (s := (s.drawn n).writeArray c .ivn ivn) hc _)
    | decrypted => exact (State.vok_complete (by simpa using hc) _).trans (State.vok_setOutput hc _)
    | tagged => exact State.vok_complete hc _
    | verified ok hverify => exact absurd hverify hi

/-- A channel that does not exist is not busy. -/
theorem State.lt_nch_of_busy {s : State} {c : Nat} (hbusy : (s.channel c).busy = true) : c < s.nch := by
  by_contra habsent
  have hreset : s.channel c = Channel.reset := List.getD_eq_default _ _ (Nat.not_lt.mp habsent)
  rw [hreset] at hbusy
  cases hbusy

/-- Settles O40: `VOK` is 0 while a channel is busy, and only MAC_VERIFY writes it. -/
theorem onlyMacVerifySetsVok : Obligations.OnlyMacVerifySetsVok := by
  intro s t c a rest hinv hagenda hbusy hstep hvok
  have hc := State.lt_nch_of_busy hbusy
  obtain ⟨-, hbefore, -⟩ := (hinv.flagsOk hc).busy_clear hbusy
  rw [step_of_busy hagenda hc hbusy] at hstep
  cases hstep
  cases hdecode : decode (s.channel c).cmdReg with
  | ok i =>
    by_contra hi
    rw [wordRule_of_ok hdecode, State.vok_runRule (s := s.turn c a rest) hc (fun h => hi (h ▸ rfl))
      (ruleOf_ruleEnd i c _)] at hvok
    exact absurd (hbefore.symm.trans hvok) nofun
  | error e =>
    rw [wordRule_of_error hdecode, State.runRule_illegal, State.vok_complete (s := s.turn c a rest) hc] at hvok
    exact absurd (hbefore.symm.trans hvok) nofun

end Sys2Proof.Machine

/-! PROOFS of the statements about the commands that complete normally (spec 40_random_keymaterial.md R113 to R119, 41_mac.md
R150 to R152, 43_cbc.md R200, R201, 44_gcm.md R222 to R224), and about those that a key or a tag stops. -/

namespace Sys2Proof.Machine

/-! ### The generation commands (R113 to R117) -/

/-- A command that puts the bytes it draws into `DOUT` and does nothing else. -/
theorem exec_generated {s : State} {c n : Nat} {i : Instr} (hready : s.Ready c) (hdraws : s.DrawsBytes c i n)
    (hdelivers : s.Delivers n)
    (hrule : ∀ bytes s', afterDraw i c bytes s' = .ended (s'.setOutput c bytes)) :
    ∃ t, exec i s = .next t ∧ Generated s t c n := by
  have ⟨_, hc, _⟩ := hready
  have hlen := State.length_nextRandom s n
  have hfits := hdraws.le_bufMax
  have hwrote : WroteOutput s (((s.drawn n).setOutput c (s.nextRandom n)).complete c .none) c .none (s.nextRandom n) :=
    WroteOutput.of_hidden (fatal := s.fatal) (State.wroteOutput_complete (s := s.drawn n) hc .none (hlen.le.trans hfits))
  refine ⟨_, exec_eq_next_of_ended hready ((ruleOf_of_delivers hdraws hdelivers).trans (hrule _ _)), hwrote.frame,
    ⟨rfl, rfl, rfl⟩, ?_, hwrote.output, hwrote.bytes⟩
  rw [hwrote.control, hlen]

/-- Settles O23: the one operand check is that the bytes fit `BUF_MAX`. -/
theorem rngBytesDeliversNextBytes : Obligations.RngBytesDeliversNextBytes := fun _ _ _ hready hfits hdelivers =>
  exec_generated hready ⟨rfl, hfits⟩ hdelivers fun _ _ => rfl

/-- Settles O24: the checks on the number of bits are those of the statement. -/
theorem genKeyDeliversKey : Obligations.GenKeyDeliversKey := fun _ _ _ hready hpos hwhole hfits hdelivers =>
  exec_generated hready ⟨hpos, hwhole, rfl, hfits⟩ hdelivers fun _ _ => rfl

/-- Settles O25: neither command has an operand to check. -/
theorem genIvAndNonceDeliver : Obligations.GenIvAndNonceDeliver := fun _ _ hready =>
  ⟨fun hdelivers => exec_generated hready (i := .genIv) rfl hdelivers fun _ _ => rfl,
    fun hdelivers => exec_generated hready (i := .genNonce) rfl hdelivers fun _ _ => rfl⟩

/-! ### The encrypts (R200, R222) -/

/-- The end of an encrypt: `IVN` written after the draw, then the output. -/
theorem State.encrypted_complete {s : State} {c : Nat} (n : Nat) {ivn out : List Byte} (e : ErrCode) (hc : c < s.nch)
    (hivn : ivn.length = 16) (hlen : out.length ≤ s.bufMax) :
    Encrypted s ((((s.drawn n).writeArray c .ivn ivn).setOutput c out).complete c e) c n ivn e out := by
  have hwrote := State.wroteOutput_complete (s := (s.drawn n).writeArray c .ivn ivn) hc e hlen
  have hkept := writesOnlyResults_hidden s c (s.rsPos + n) true s.fatal
  have hwritten := writesOnlyResults_writeArray (s.drawn n) c .ivn ivn rfl hivn.le
  exact {
    frame := (hkept.frame.trans hwritten.frame).trans hwrote.frame
    hidden := ⟨rfl, rfl, rfl⟩
    control := hwrote.control
    ivn := (State.ivOperand_setOutput ((s.drawn n).writeArray c .ivn ivn) c c hlen).trans
      (State.ivOperand_writeArray_ivn (s.drawn n) c hivn)
    output := ⟨hwrote.output.output, hwrote.output.tail⟩
    bytes := fun a hout hin => (hwrote.bytes a hout).trans (Memory.read_writeBytes_outside _ _ _ _ (by omega)) }

theorem exec_cbcEnc_encrypted {s : State} {c : Nat} (hready : s.Ready c)
    (hfits : 16 * ((s.channel c).dinLen.toNat / 16 + 1) ≤ s.bufMax) (hdelivers : s.Delivers 16)
    (hkey : (s.channel c).keyLen.toNat = 16 ∨ (s.channel c).keyLen.toNat = 24 ∨ (s.channel c).keyLen.toNat = 32) :
    ∃ t, exec .cbcEnc s = .next t ∧
      Encrypted s t c 16 (s.nextRandom 16) .none
        (cbcEncryptRaw (s.keyOperand c) (s.nextRandom 16) (cbcPad (s.dataOperand c))) := by
  have ⟨_, hc, _⟩ := hready
  have hrule := ruleOf_of_delivers (i := .cbcEnc) (c := c) ⟨rfl, hfits⟩ hdelivers
  have hlen := length_cbcEncryptRaw_cbcPad_le (s.keyOperand c) (s.nextRandom 16) (s.dataOperand c)
  rw [State.length_dataOperand] at hlen
  exact ⟨_, exec_eq_next_of_ended hready (hrule.trans (if_pos ((aesKeyOk_iff _).mpr hkey))),
    State.encrypted_complete 16 .none hc (State.length_nextRandom s 16) (hlen.trans hfits)⟩

theorem exec_gcmEnc_encrypted {s : State} {c : Nat} (hready : s.Ready c)
    (hfits : (s.channel c).dinLen.toNat + 16 ≤ s.bufMax) (hdelivers : s.Delivers 12)
    (hkey : (s.channel c).keyLen.toNat = 16 ∨ (s.channel c).keyLen.toNat = 24 ∨ (s.channel c).keyLen.toNat = 32) :
    ∃ t, exec .gcmEnc s = .next t ∧
      Encrypted s t c 12 (s.nextRandom 12 ++ zeros 4) .none
        (gcmSealed (s.keyOperand c) (s.nextRandom 12) (s.dataOperand c)) := by
  have ⟨_, hc, _⟩ := hready
  have hrule := ruleOf_of_delivers (i := .gcmEnc) (c := c) ⟨rfl, hfits⟩ hdelivers
  have hlen := length_gcmSealed_le (s.keyOperand c) (s.nextRandom 12) (s.dataOperand c)
  rw [State.length_dataOperand] at hlen
  exact ⟨_, exec_eq_next_of_ended hready (hrule.trans (if_pos ((aesKeyOk_iff _).mpr hkey))),
    State.encrypted_complete 12 .none hc (by simp) (hlen.trans hfits)⟩

/-- Settles O51: the padded message fits, so that `DOUT` takes its whole ciphertext, and `IVN` is outside `DOUT`. -/
theorem cbcEncWritesEnvelope : Obligations.CbcEncWritesEnvelope := fun _ _ => exec_cbcEnc_encrypted

/-- Settles O56: the message and a tag fit, so that `DOUT` takes both, and `IVN` is outside `DOUT`. -/
theorem gcmEncWritesEnvelope : Obligations.GcmEncWritesEnvelope := fun _ _ => exec_gcmEnc_encrypted

/-! ### A wrong key length (R171, R247) -/

section
variable {s : State} {c : Nat} (hready : s.Ready c) (hkey : ¬ aesKeyOk (s.channel c).keyLen.toNat = true)
include hready hkey

theorem exec_cbcEnc_wrongKey (hfits : 16 * ((s.channel c).dinLen.toNat / 16 + 1) ≤ s.bufMax)
    (hdelivers : s.Delivers 16) :
    ∃ t, exec .cbcEnc s = .next t ∧ Encrypted s t c 16 (s.nextRandom 16) .invalidKeyLength [] := by
  have ⟨_, hc, _⟩ := hready
  have hrule := ruleOf_of_delivers (i := .cbcEnc) (c := c) ⟨rfl, hfits⟩ hdelivers
  exact ⟨_, exec_eq_next_of_raised hready (hrule.trans (if_neg hkey)),
    State.encrypted_complete 16 .invalidKeyLength hc (State.length_nextRandom s 16) (Nat.zero_le _)⟩

theorem exec_gcmEnc_wrongKey (hfits : (s.channel c).dinLen.toNat + 16 ≤ s.bufMax) (hdelivers : s.Delivers 12) :
    ∃ t, exec .gcmEnc s = .next t ∧ Encrypted s t c 12 (s.nextRandom 12 ++ zeros 4) .invalidKeyLength [] := by
  have ⟨_, hc, _⟩ := hready
  have hrule := ruleOf_of_delivers (i := .gcmEnc) (c := c) ⟨rfl, hfits⟩ hdelivers
  exact ⟨_, exec_eq_next_of_raised hready (hrule.trans (if_neg hkey)),
    State.encrypted_complete 12 .invalidKeyLength hc (by simp) (Nat.zero_le _)⟩

theorem exec_cbcDec_wrongKey : ∃ t, exec .cbcDec s = .next t ∧ DecryptFailed s t c .invalidKeyLength :=
  exec_decryptFailed hready (if_neg hkey) nofun nofun nofun

theorem exec_gcmDec_wrongKey : ∃ t, exec .gcmDec s = .next t ∧ DecryptFailed s t c .invalidKeyLength :=
  exec_decryptFailed hready (if_neg hkey) nofun nofun nofun

end

/-- Settles O36: a decrypt tests the key first, and an encrypt after `IVN` is written. -/
theorem wrongKeyLengthEndsWithCodeOne : Obligations.WrongKeyLengthEndsWithCodeOne := by
  rintro s c hready ⟨h16, h24, h32⟩
  have hkey : ¬ aesKeyOk (s.channel c).keyLen.toNat = true := by simp [aesKeyOk_iff, h16, h24, h32]
  exact ⟨exec_cbcDec_wrongKey hready hkey, exec_gcmDec_wrongKey hready hkey, exec_cbcEnc_wrongKey hready hkey,
    exec_gcmEnc_wrongKey hready hkey⟩

/-! ### Two channels that draw one after the other (R111, R119) -/

/-- Between `s` and `t` command `i` of channel `c` drew `n` bytes and put them where it puts drawn bytes. -/
structure DrewInto (s t : State) (c : Nat) (i : Instr) (n : Nat) : Prop where
  frame : EngineFrame s t c
  hidden : Drew s t n
  drawn : t.drawnBytes c i = s.nextRandom n
  bytes : ∀ a, OutsideResults s.bufMax c a → t.mem.read a = s.mem.read a

theorem Generated.drewInto {s t : State} {c n : Nat} {i : Instr} (h : Generated s t c n)
    (hi : t.drawnBytes c i = t.output c) : DrewInto s t c i n where
  frame := h.frame
  hidden := h.hidden
  drawn := hi.trans h.output.output
  bytes a ha := h.bytes a (ha .dout rfl)

theorem Encrypted.drewInto {s t : State} {c n : Nat} {i : Instr} {ivn out : List Byte} {e : ErrCode}
    (h : Encrypted s t c n ivn e out) (hi : t.drawnBytes c i = s.nextRandom n) : DrewInto s t c i n where
  frame := h.frame
  hidden := h.hidden
  drawn := hi
  bytes a ha := h.bytes a (ha .dout rfl) (ha .ivn rfl)

/-- Every command whose draw is delivered puts the bytes in their place, the encrypts even under a wrong key length. -/
theorem exec_drewInto {s : State} {c n : Nat} {i : Instr} (hready : s.Ready c) (hdraws : s.DrawsBytes c i n)
    (hdelivers : s.Delivers n) : ∃ t, exec i s = .next t ∧ DrewInto s t c i n := by
  have hgen : (∀ bytes s', afterDraw i c bytes s' = .ended (s'.setOutput c bytes)) →
      (∀ t : State, t.drawnBytes c i = t.output c) → ∃ t, exec i s = .next t ∧ DrewInto s t c i n := by
    intro hrule hi
    obtain ⟨t, hexec, ht⟩ := exec_generated hready hdraws hdelivers hrule
    exact ⟨t, hexec, ht.drewInto (hi t)⟩
  cases i with
  | rngBytes | genKey | genIv | genNonce => exact hgen (fun _ _ => rfl) fun _ => rfl
  | cbcEnc =>
    obtain ⟨rfl, hfits⟩ := hdraws
    by_cases hkey : aesKeyOk (s.channel c).keyLen.toNat = true
    · obtain ⟨t, hexec, ht⟩ := exec_cbcEnc_encrypted hready hfits hdelivers ((aesKeyOk_iff _).mp hkey)
      exact ⟨t, hexec, ht.drewInto ht.ivn⟩
    · obtain ⟨t, hexec, ht⟩ := exec_cbcEnc_wrongKey hready hkey hfits hdelivers
      exact ⟨t, hexec, ht.drewInto ht.ivn⟩
  | gcmEnc =>
    obtain ⟨rfl, hfits⟩ := hdraws
    have hnonce : ∀ t : State, t.ivOperand c = s.nextRandom 12 ++ zeros 4 → t.nonceOperand c = s.nextRandom 12 := by
      intro t ht
      rw [State.nonceOperand_eq_take, ht, List.take_left' (State.length_nextRandom s 12)]
    by_cases hkey : aesKeyOk (s.channel c).keyLen.toNat = true
    · obtain ⟨t, hexec, ht⟩ := exec_gcmEnc_encrypted hready hfits hdelivers ((aesKeyOk_iff _).mp hkey)
      exact ⟨t, hexec, ht.drewInto (hnonce t ht.ivn)⟩
    · obtain ⟨t, hexec, ht⟩ := exec_gcmEnc_wrongKey hready hkey hfits hdelivers
      exact ⟨t, hexec, ht.drewInto (hnonce t ht.ivn)⟩
  | macCompute | macVerify | cbcDec | gcmDec => cases hdraws

theorem DrewInto.othersKept {s t : State} {c n : Nat} {i : Instr} (h : DrewInto s t c i n) : OthersKept s t c := fun d hdc =>
  ⟨h.frame.others d hdc, fun _ hoff => h.bytes _ fun r _ => outside_array_of_other r hdc hoff le_rfl⟩

/-- A byte array of another channel reads as before. -/
theorem OthersKept.arrayBytes {s t : State} {b c n : Nat} (h : OthersKept s t b) (hcb : c ≠ b) {r : ArrayReg}
    (hn : n ≤ r.size s.bufMax) : t.arrayBytes c r n = s.arrayBytes c r n := by
  obtain ⟨-, hbytes⟩ := h c hcb
  have hsize := r.size_le s.bufMax s.bufMax_range.2.2
  refine Memory.readBytes_congr _ _ _ _ fun a hlo hhi => ?_
  have hbyte := hbytes (a - c * Config.channelStride)
  rw [arrayBase, channelStride_eq] at hlo hhi
  rw [channelStride_eq] at hbyte
  rw [show c * 262144 + (a - c * 262144) = a by omega] at hbyte
  exact hbyte (by omega)

/-- Where a channel's drawn bytes stand, they stay through the steps of other channels. -/
theorem OthersKept.drawnBytes {s t : State} {b c : Nat} (i : Instr) (h : OthersKept s t b) (hcb : c ≠ b)
    (hlen : (s.drawnBytes c i).length ≤ s.bufMax) : t.drawnBytes c i = s.drawnBytes c i := by
  have hout : (s.output c).length ≤ s.bufMax → t.output c = s.output c := by
    intro hfits
    rw [State.output, (h c hcb).1]
    exact h.arrayBytes (r := .dout) hcb ((State.length_output s c).ge.trans hfits)
  cases i with
  | rngBytes | genKey | genIv | genNonce => exact hout hlen
  | cbcEnc => exact h.arrayBytes (r := .ivn) (n := 16) hcb le_rfl
  | gcmEnc => exact h.arrayBytes (r := .ivn) (n := 12) hcb (by simp [ArrayReg.size])
  | macCompute | macVerify | cbcDec | gcmDec => rfl

/-- The turn of a busy channel whose command draws and whose draw the environment delivers. -/
theorem step_drewInto {s : State} {c n : Nat} {i : Instr} {rest : List Event} (hfatal : s.fatal = false)
    (hagenda : s.agenda = .engineTurn c .deliver :: rest) (hc : c < s.nch) (hbusy : (s.channel c).busy = true)
    (hdecode : decode (s.channel c).cmdReg = .ok i) (hdraws : s.DrawsBytes c i n) (hlimit : s.WithinLimit n) :
    ∃ t, step s = .next t ∧ DrewInto (s.turn c .deliver rest) t c i n := by
  rw [step_of_decode hagenda hc hbusy hdecode]
  exact exec_drewInto ⟨rfl, hc, hfatal⟩ (State.drawsBytes_turn.mpr hdraws) (Or.inr ⟨rfl, hlimit⟩)

/-- The operand checks look at the channel's `DINLEN` and at `BUF_MAX`. -/
theorem State.DrawsBytes.congr {s t : State} {c n : Nat} {i : Instr} (h : s.DrawsBytes c i n)
    (hbuf : t.bufMax = s.bufMax) (hch : t.channel c = s.channel c) : t.DrawsBytes c i n := by
  cases i with
  | rngBytes | genKey | cbcEnc | gcmEnc => simpa only [State.DrawsBytes, hbuf, hch] using h
  | genIv | genNonce | macCompute | macVerify | cbcDec | gcmDec => exact h

/-- Settles O26: the first step leaves the other channel's command and operands, the second draws from where the first
stopped and leaves what the first one wrote. -/
theorem concurrentDrawsAreDisjoint : Obligations.ConcurrentDrawsAreDisjoint := by
  intro s c d n m i j rest hcd hc hd hfatal hbusyC hdecodeC hdrawsC hbusyD hdecodeD hdrawsD hlimit hagenda
  have hlimitN : s.WithinLimit n := fun l hl => by
    have hle := hlimit l hl
    omega
  obtain ⟨t, hstep, ht⟩ := step_drewInto hfatal hagenda hc hbusyC hdecodeC hdrawsC hlimitN
  have hpos : t.rsPos = s.rsPos + n := ht.hidden.rsPos
  have hsource : t.source = s.source := ht.frame.source
  have hchannel : t.channel d = s.channel d := ht.frame.others d hcd.symm
  have hlimitM : t.WithinLimit m := by
    intro l hl
    have hle := hlimit l (hsource ▸ hl)
    omega
  obtain ⟨u, hstep', hu⟩ := step_drewInto (s := t) (c := d) (ht.hidden.fatal.trans hfatal) ht.frame.agenda
    (ht.frame.nch.symm ▸ hd) (hchannel ▸ hbusyD) (hchannel ▸ hdecodeD) (hdrawsD.congr ht.frame.bufMax hchannel) hlimitM
  have hfirst : t.drawnBytes c i = s.nextRandom n := ht.drawn
  have hkept : u.drawnBytes c i = t.drawnBytes c i := by
    refine OthersKept.drawnBytes i (s := t.turn d .deliver rest) hu.othersKept hcd ?_
    refine (congrArg List.length hfirst).le.trans ((State.length_nextRandom s n).le.trans ?_)
    exact hdrawsC.le_bufMax.trans ht.frame.bufMax.ge
  refine ⟨t, u, hstep, hstep', ?_, hu.frame.agenda, hkept.trans hfirst, hu.drawn.trans ?_⟩
  · exact hu.hidden.rsPos.trans (congrArg (· + m) hpos)
  · show t.nextRandom m = _
    rw [State.nextRandom, hpos, hsource]

end Sys2Proof.Machine

/-! PROOFS of the statements about the MAC Engine's commands and the decrypts (spec 41_mac.md R150 to R152, 43_cbc.md R201,
44_gcm.md R223 to R225). -/

namespace Sys2Proof.Machine

/-! ### The MAC Engine (R150 to R152) -/

/-- Settles O44: the tag is as long as `TAG`. -/
theorem macComputeWritesTag : Obligations.MacComputeWritesTag := by
  intro s c hready
  have ⟨_, hc, _⟩ := hready
  have htag : (s.computedTag c).length = 32 := length_hmacSha256 _ _
  have hwritten := writesOnlyResults_writeArray s c .tag (s.computedTag c) rfl htag.le
  have hread := Memory.readBytes_writeBytes s.mem (arrayBase c .tag) (s.computedTag c)
  rw [htag] at hread
  refine ⟨_, exec_eq_next_of_ended (i := .macCompute) hready rfl, hwritten.frame.trans (engineFrame_updateChannel _ c _),
    ⟨rfl, rfl, rfl⟩, State.channel_complete_self (s := s.writeArray c .tag (s.computedTag c)) hc .none, hread,
    fun a ha => ?_⟩
  exact Memory.read_writeBytes_outside _ _ _ _ (by omega)

/-- MAC_VERIFY writes the outcome of the comparison to `VOK` and ends (R151). -/
theorem exec_macVerify {s : State} {c : Nat} (hready : s.Ready c) :
    ∃ t, exec .macVerify s = .next t ∧ EngineFrame s t c ∧ HiddenKept s t ∧ AllBytesKept s t ∧
      t.channel c = { (s.channel c).ended .none with vok := ctEqual (s.computedTag c) (s.expectedTag c) 32 } := by
  have ⟨_, hc, _⟩ := hready
  refine ⟨_, exec_eq_next_of_ended (i := .macVerify) hready rfl,
    (engineFrame_updateChannel s c _).trans (engineFrame_updateChannel _ c _), ⟨rfl, rfl, rfl⟩, fun _ => rfl, ?_⟩
  rw [State.channel_complete_self (by simpa using hc), State.channel_updateChannel_self s c _ hc]
  rfl

theorem ctEqual_computedTag_iff (s : State) (c : Nat) :
    ctEqual (s.computedTag c) (s.expectedTag c) 32 = true ↔ s.expectedTag c = s.computedTag c :=
  ctEqual_eq_true_iff_eq (length_hmacSha256 _ _)

/-- Settles O45: the comparison is an equality of tags. -/
theorem macVerifyWritesVok : Obligations.MacVerifyWritesVok := by
  intro s c hready
  obtain ⟨t, hexec, hframe, hhidden, hbytes, hcontrol⟩ := exec_macVerify hready
  refine ⟨t, hexec, hframe, hhidden, hbytes, ?_, ?_⟩
  · rw [hcontrol]
  · rw [hcontrol]
    exact ctEqual_computedTag_iff s c

/-- Settles O46: both commands compute the tag of the same operands. -/
theorem verifyAcceptsExactlyComputedTag : Obligations.VerifyAcceptsExactlyComputedTag := by
  intro s c hready
  obtain ⟨t, hexec, -, -, -, htag, -⟩ := macComputeWritesTag s c hready
  refine ⟨t, hexec, fun u d hready' hkey hdata => ?_⟩
  obtain ⟨v, hexec', -, -, -, hcontrol⟩ := exec_macVerify hready'
  refine ⟨v, hexec', by rw [hcontrol]; rfl, ?_⟩
  rw [hcontrol, htag, ← hkey, ← hdata]
  exact ctEqual_computedTag_iff u d

/-! ### CBC_DEC (R201) -/

section
variable {s : State} {c : Nat} (hready : s.Ready c) (hkey : aesKeyOk (s.channel c).keyLen.toNat = true)
include hready hkey

theorem exec_cbcDec_decrypted {p : List Byte} (hfits : (s.channel c).dinLen.toNat ≤ s.bufMax)
    (hpos : (s.channel c).dinLen.toNat ≠ 0) (hwhole : (s.channel c).dinLen.toNat % 16 = 0)
    (hunpad : cbcUnpad (cbcDecryptRaw (s.keyOperand c) (s.ivOperand c) (s.dataOperand c)) = some p) :
    ∃ t, exec .cbcDec s = .next t ∧ Decrypted s t c p := by
  have hrule : ruleOf .cbcDec c s = .ended (s.setOutput c p) := by
    rw [ruleOf, cbcDecRule, if_pos hkey, if_neg (by omega), hunpad]
  have hraw := length_cbcDecryptRaw_le (s.keyOperand c) (s.ivOperand c) (s.dataOperand c)
    (by rwa [State.length_dataOperand])
  rw [State.length_dataOperand] at hraw
  exact exec_decrypted hready hrule ((length_le_of_cbcUnpad_eq_some _ p hunpad).trans (hraw.trans hfits))

theorem exec_cbcDec_paddingError (h : (s.channel c).dinLen.toNat = 0 ∨ (s.channel c).dinLen.toNat % 16 ≠ 0 ∨
      cbcUnpad (cbcDecryptRaw (s.keyOperand c) (s.ivOperand c) (s.dataOperand c)) = none) :
    ∃ t, exec .cbcDec s = .next t ∧ DecryptFailed s t c .paddingError := by
  refine exec_decryptFailed hready ?_ nofun nofun nofun
  rw [ruleOf, cbcDecRule, if_pos hkey]
  split
  · rfl
  · next hblocks =>
    rw [h.resolve_left (fun h0 => hblocks (Or.inl h0)) |>.resolve_left fun h16 => hblocks (Or.inr h16)]

end

/-- Settles O52: the two clauses are the two ways the pseudocode goes under a legal key length. -/
theorem cbcDecWritesPlaintext : Obligations.CbcDecWritesPlaintext := by
  intro s c hinv hready hkey
  have ⟨_, hc, _⟩ := hready
  have hkey' := (aesKeyOk_iff _).mpr hkey
  exact ⟨fun p => exec_cbcDec_decrypted hready hkey' (hinv.channel_inv_of_lt hc).dinLen_le,
    exec_cbcDec_paddingError hready hkey'⟩

/-! ### GCM_DEC (R223 to R225) -/

theorem gcmDecRule_of_short {s : State} {c : Nat} (hkey : aesKeyOk (s.channel c).keyLen.toNat = true)
    (hshort : (s.channel c).dinLen.toNat < 16) : gcmDecRule c s = .raised .authenticationFailure s := by
  rw [gcmDecRule, if_pos hkey, if_pos hshort]

/-- Of an input that ends with a tag, the plaintext is written only if the tag is the ciphertext's. -/
theorem gcmDecRule_of_append {s : State} {c : Nat} {ct tag : List Byte}
    (hkey : aesKeyOk (s.channel c).keyLen.toNat = true) (hdata : s.dataOperand c = ct ++ tag) (htag : tag.length = 16) :
    gcmDecRule c s =
      if tag = gcmTag (s.keyOperand c) (s.nonceOperand c) ct then
        .ended (s.setOutput c (gcmCrypt (s.keyOperand c) (s.nonceOperand c) ct))
      else .raised .authenticationFailure s := by
  have hcomputed : (gcmTag (s.keyOperand c) (s.nonceOperand c) ct).length = 16 :=
    length_gcmTag (by rw [State.length_keyOperand]; exact (aesKeyOk_iff _).mp hkey) _ ct
  have hdinLen : (s.channel c).dinLen.toNat = ct.length + 16 := by
    rw [← State.length_dataOperand, hdata, List.length_append, htag]
  rw [gcmDecRule, if_pos hkey, if_neg (by omega), hdinLen, Nat.add_sub_cancel, hdata, List.take_left, List.drop_left]
  exact if_congr (ctEqual_eq_true_iff_eq hcomputed) rfl rfl

section
variable {s : State} {c : Nat} (hready : s.Ready c) (hkey : aesKeyOk (s.channel c).keyLen.toNat = true)
include hready hkey

theorem exec_gcmDec_decrypted {ct : List Byte} (hfits : (s.channel c).dinLen.toNat ≤ s.bufMax)
    (hdata : s.dataOperand c = ct ++ gcmTag (s.keyOperand c) (s.nonceOperand c) ct) :
    ∃ t, exec .gcmDec s = .next t ∧ Decrypted s t c (gcmCrypt (s.keyOperand c) (s.nonceOperand c) ct) := by
  have htag : (gcmTag (s.keyOperand c) (s.nonceOperand c) ct).length = 16 :=
    length_gcmTag (by rw [State.length_keyOperand]; exact (aesKeyOk_iff _).mp hkey) _ ct
  have hdinLen : (s.channel c).dinLen.toNat = ct.length + 16 := by
    rw [← State.length_dataOperand, hdata, List.length_append, htag]
  have hlen := length_gcmCrypt_le (s.keyOperand c) (s.nonceOperand c) ct
  exact exec_decrypted hready ((gcmDecRule_of_append hkey hdata htag).trans (if_pos rfl)) (by omega)

theorem exec_gcmDec_wrongTag {ct tag : List Byte} (hdata : s.dataOperand c = ct ++ tag) (htag : tag.length = 16)
    (hwrong : tag ≠ gcmTag (s.keyOperand c) (s.nonceOperand c) ct) :
    ∃ t, exec .gcmDec s = .next t ∧ DecryptFailed s t c .authenticationFailure :=
  exec_decryptFailed hready ((gcmDecRule_of_append hkey hdata htag).trans (if_neg hwrong)) nofun nofun nofun

theorem exec_gcmDec_short (hshort : (s.channel c).dinLen.toNat < 16) :
    ∃ t, exec .gcmDec s = .next t ∧ DecryptFailed s t c .authenticationFailure :=
  exec_decryptFailed hready (gcmDecRule_of_short hkey hshort) nofun nofun nofun

end

/-- Settles O57: the input's last 16 bytes are the tag that the command computes, and the rest fits `DOUT` by the invariant. -/
theorem gcmDecWritesPlaintext : Obligations.GcmDecWritesPlaintext := by
  intro s c ct hinv hready hkey hdata
  have ⟨_, hc, _⟩ := hready
  exact exec_gcmDec_decrypted hready ((aesKeyOk_iff _).mpr hkey) (hinv.channel_inv_of_lt hc).dinLen_le hdata

/-- Settles O58: the length test or the comparison of tags raises code 3 before anything is written. -/
theorem gcmDecRejectsWrongTag : Obligations.GcmDecRejectsWrongTag := fun _ _ hready hkey =>
  ⟨exec_gcmDec_short hready ((aesKeyOk_iff _).mpr hkey),
    fun _ _ => exec_gcmDec_wrongTag hready ((aesKeyOk_iff _).mpr hkey)⟩

/-- Under a legal key length the input is too short for a tag, or ends with its ciphertext's, or with another. -/
theorem State.gcmDec_input_cases (s : State) (c : Nat) :
    (s.channel c).dinLen.toNat < 16 ∨
    (∃ ct, s.dataOperand c = ct ++ gcmTag (s.keyOperand c) (s.nonceOperand c) ct) ∨
    ∃ ct tag, s.dataOperand c = ct ++ tag ∧ tag.length = 16 ∧ tag ≠ gcmTag (s.keyOperand c) (s.nonceOperand c) ct := by
  refine (Nat.lt_or_ge _ 16).imp_right fun hlong => ?_
  have hsplit := List.take_append_drop ((s.channel c).dinLen.toNat - 16) (s.dataOperand c)
  have htag : ((s.dataOperand c).drop ((s.channel c).dinLen.toNat - 16)).length = 16 := by
    rw [List.length_drop, State.length_dataOperand]
    omega
  by_cases hmatch : (s.dataOperand c).drop ((s.channel c).dinLen.toNat - 16) =
      gcmTag (s.keyOperand c) (s.nonceOperand c) ((s.dataOperand c).take ((s.channel c).dinLen.toNat - 16))
  · exact Or.inl ⟨_, by rw [← hmatch, hsplit]⟩
  · exact Or.inr ⟨_, _, hsplit.symm, htag, hmatch⟩

/-- A decrypt that failed shows its error and an empty output. -/
theorem released_nothing_of_decryptFailed {s t : State} {c : Nat} {i : Instr} {e : ErrCode} (hexec : exec i s = .next t)
    (hfailed : ∃ u, exec i s = .next u ∧ DecryptFailed s u c e) (herror : e ≠ .none) :
    (t.channel c).err ≠ .none ∧ (t.channel c).doutLen = 0#32 ∧
      ∀ k, k < s.bufMax → t.mem.read (arrayBase c .dout + k) = 0#8 := by
  obtain ⟨u, hexec', hu⟩ := hfailed
  cases hexec.symm.trans hexec'
  rw [hu.control]
  exact ⟨herror, rfl, fun k hk => hu.output.tail k (Nat.zero_le _) hk⟩

/-- Settles O59: of the ways GCM_DEC can go, the one that does not fail is that of an input with its own tag. -/
theorem gcmDecIsAtomic : Obligations.GcmDecIsAtomic := by
  intro s t c hinv hready hexec
  have ⟨_, hc, _⟩ := hready
  by_cases hkey : aesKeyOk (s.channel c).keyLen.toNat = true
  · rcases s.gcmDec_input_cases c with hshort | ⟨ct, hdata⟩ | ⟨ct, tag, hdata, htag, hwrong⟩
    · exact Or.inr (released_nothing_of_decryptFailed hexec (exec_gcmDec_short hready hkey hshort) nofun)
    · obtain ⟨u, hexec', hu⟩ := exec_gcmDec_decrypted hready hkey (hinv.channel_inv_of_lt hc).dinLen_le hdata
      cases hexec.symm.trans hexec'
      exact Or.inl ⟨by rw [hu.control]; rfl, ct, hdata, hu.output.output⟩
    · exact Or.inr (released_nothing_of_decryptFailed hexec (exec_gcmDec_wrongTag hready hkey hdata htag hwrong) nofun)
  · exact Or.inr (released_nothing_of_decryptFailed hexec (exec_gcmDec_wrongKey hready hkey) nofun)

end Sys2Proof.Machine
